-- ==== Sys2Proof/Word.lean ====
section
/-! DEFINITION. The words of NBTG-DC: bytes, 32-bit words, command words and the one-bit colour (spec/00_scope.md R13, R16). -/

namespace Sys2Proof

/-- `u8` (00_scope.md R13). -/
abbrev Byte := BitVec 8

/-- `u16` (00_scope.md R13). -/
abbrev Half := BitVec 16

/-- `u32` (00_scope.md R13): addresses, counts and lengths. -/
abbrev Word := BitVec 32

/-- The 128-bit command word of the command port (30_encoding.md R90). -/
abbrev CommandWord := BitVec 128

/-- The colour of a pixel, one bit: `Black = 0`, `White = 1` (00_scope.md R16). -/
inductive Colour where
  | black
  | white
  deriving DecidableEq, Repr

/-- The other colour, `~col` (00_scope.md R16). -/
def Colour.other : Colour → Colour
  | .black => .white
  | .white => .black

/-- The pixel bit of a colour: set when White (00_scope.md R16, 20_memory.md R67). -/
def Colour.bit : Colour → Bool
  | .black => false
  | .white => true

/-- The colour whose bit is `b` (00_scope.md R16). -/
def Colour.ofBit : Bool → Colour
  | false => .black
  | true => .white

end Sys2Proof
end

