-- ==== Sys2Proof/Syntax.lean ====
section
/-! DEFINITION. The twenty commands of the command port (spec/30_encoding.md R93), one constructor per row of
spec/opcode_table.json, each operand at the width of the field that carries it (R91, R95). -/

namespace Sys2Proof

/-- A command with its operands. The operands of a one-bit or a partial field stand at the field's width; that the
unused bits of the field are 0 (30_encoding.md R94) is `Instr.wellFormed` (log 17). -/
inductive Instr where
  /-- `INIT mode`, format `V`: `a[0]` = mode (46_session.md R236). -/
  | init (mode : Byte)
  /-- `SET_DISPLAY_ON on`, format `V`: `a[0]` = on (46_session.md R239). -/
  | setDisplayOn (on : Byte)
  /-- `SET_CONTRAST v`, format `V`: `a` = contrast (46_session.md R240). -/
  | setContrast (v : Byte)
  /-- `UPDATE_SCREEN`, format `Z` (46_session.md R241). -/
  | updateScreen
  /-- `BEGIN_TRANSFER addr, buffer, length`, format `X`: `a[6:0]`, `p`, `n` (40_transfer_engine.md R121). -/
  | beginTransfer (addr : Byte) (buffer length : Word)
  /-- `DRAW_PIXEL x, y, col`, format `PC` (42_framebuffer.md R164). -/
  | drawPixel (x y : Byte) (col : Colour)
  /-- `DRAW_LINE x1, y1, x2, y2, col`, format `RC` (43_graphics_shapes.md R182). -/
  | drawLine (x1 y1 x2 y2 : Byte) (col : Colour)
  /-- `DRAW_CIRCLE x, y, r, col`, format `KC` (43_graphics_shapes.md R185). -/
  | drawCircle (x y r : Byte) (col : Colour)
  /-- `FILL_CIRCLE x, y, r, col`, format `KC` (43_graphics_shapes.md R186). -/
  | fillCircle (x y r : Byte) (col : Colour)
  /-- `DRAW_ARC x, y, r, seg, start, sweep, col [, cap]`, format `AC`: the sweep is `p[15:0]` (44_graphics_arc.md R208). -/
  | drawArc (x y r seg : Byte) (start : Half) (sweep : Word) (col : Colour) (cap : Bool)
  /-- `DRAW_POLYLINE verts, count, col`, format `MC` (43_graphics_shapes.md R187). -/
  | drawPolyline (verts count : Word) (col : Colour)
  /-- `DRAW_RECTANGLE x1, y1, x2, y2, col`, format `RC` (43_graphics_shapes.md R188). -/
  | drawRectangle (x1 y1 x2 y2 : Byte) (col : Colour)
  /-- `FILL_RECTANGLE x1, y1, x2, y2, col`, format `RC` (43_graphics_shapes.md R189). -/
  | fillRectangle (x1 y1 x2 y2 : Byte) (col : Colour)
  /-- `INVERT_RECTANGLE x1, y1, x2, y2`, format `R` (42_framebuffer.md R166). -/
  | invertRectangle (x1 y1 x2 y2 : Byte)
  /-- `DRAW_BITMAP x, y, w, h, bitmap, col`, format `BC` (45_graphics_bitmap_text.md R215). -/
  | drawBitmap (x y w h : Byte) (bitmap : Word) (col : Colour)
  /-- `WRITE_CHAR ch, col`, format `VC` (45_graphics_bitmap_text.md R221). -/
  | writeChar (ch : Byte) (col : Colour)
  /-- `WRITE_STRING str, col`, format `SC` (45_graphics_bitmap_text.md R222). -/
  | writeString (str : Word) (col : Colour)
  /-- `SET_CURSOR x, y`, format `P` (45_graphics_bitmap_text.md R217). -/
  | setCursor (x y : Byte)
  /-- `FILL col`, format `C` (42_framebuffer.md R165). -/
  | fill (col : Colour)
  /-- `LOAD_BUFFER src, len`, format `M` (42_framebuffer.md R168). -/
  | loadBuffer (src len : Word)
  deriving DecidableEq, Repr

end Sys2Proof
end

