-- ==== Sys2Proof/WellFormed.lean ====
section
/-! DEFINITION. Which commands have an encoding: the unused bits of a partly used field are 0 (spec/30_encoding.md R94).
Every other operand fills its field and may hold any value (R95). -/

namespace Sys2Proof

/-- The operand fits the bits its field gives it (30_encoding.md R94): `a[7:1]` is 0 for `INIT` and `SET_DISPLAY_ON`,
`a[7]` for `BEGIN_TRANSFER`, `p[31:16]` for `DRAW_ARC`. -/
def Instr.wellFormed : Instr → Bool
  | .init mode => decide (mode.toNat < 2)
  | .setDisplayOn on => decide (on.toNat < 2)
  | .setContrast _ => true
  | .updateScreen => true
  | .beginTransfer addr _ _ => decide (addr.toNat < 128)
  | .drawPixel _ _ _ => true
  | .drawLine _ _ _ _ _ => true
  | .drawCircle _ _ _ _ => true
  | .fillCircle _ _ _ _ => true
  | .drawArc _ _ _ _ _ sweep _ _ => decide (sweep.toNat < 65536)
  | .drawPolyline _ _ _ => true
  | .drawRectangle _ _ _ _ _ => true
  | .fillRectangle _ _ _ _ _ => true
  | .invertRectangle _ _ _ _ => true
  | .drawBitmap _ _ _ _ _ _ => true
  | .writeChar _ _ => true
  | .writeString _ _ => true
  | .setCursor _ _ => true
  | .fill _ => true
  | .loadBuffer _ _ => true

end Sys2Proof
end

