-- ==== Sys2Proof/Decode.lean ====
section
/-! DEFINITION. The command word: its fields (spec/30_encoding.md R91), the opcode table with match and mask
(spec/opcode_table.json), the decoder (R96), the encoder (R91 to R95), and the 16-byte serial form (R90). -/

namespace Sys2Proof

/-! ### The fields of the command word -/

/-- The fields of the command word, the same positions in every format (30_encoding.md R91). -/
structure Fields where
  op : BitVec 8
  col : BitVec 1
  cap : BitVec 1
  rsv : BitVec 6
  a : BitVec 8
  b : BitVec 8
  c : BitVec 8
  d : BitVec 8
  e : BitVec 16
  p : BitVec 32
  n : BitVec 32
  deriving DecidableEq, Repr

/-- The word with these fields: `n` in the most significant bits, `op` in bits 7:0 (30_encoding.md R91). -/
def Fields.pack (f : Fields) : CommandWord :=
  f.n ++ f.p ++ f.e ++ f.d ++ f.c ++ f.b ++ f.a ++ f.rsv ++ f.cap ++ f.col ++ f.op

/-- The fields of a word, at the bit positions of 30_encoding.md R91. -/
def fieldsOf (w : CommandWord) : Fields where
  op := w.extractLsb' 0 8
  col := w.extractLsb' 8 1
  cap := w.extractLsb' 9 1
  rsv := w.extractLsb' 10 6
  a := w.extractLsb' 16 8
  b := w.extractLsb' 24 8
  c := w.extractLsb' 32 8
  d := w.extractLsb' 40 8
  e := w.extractLsb' 48 16
  p := w.extractLsb' 64 32
  n := w.extractLsb' 96 32

/-- A one-bit field as a flag. -/
def flagOf (b : BitVec 1) : Bool := b.getLsbD 0

/-- The colour a `col` field carries: 0 Black, 1 White (30_encoding.md R91, 00_scope.md R16). -/
def colourOf (b : BitVec 1) : Colour := .ofBit (flagOf b)

/-! ### The opcode table -/

/-- One row of the opcode table (spec/opcode_table.json): the command is legal when `(cmd & mask) = match`
(30_encoding.md R96); `bits` is the row's `match`. -/
structure Row where
  mnemonic : String
  op : BitVec 8
  bits : CommandWord
  mask : CommandWord

/-- The opcode table, row by row as spec/opcode_table.json gives it (30_encoding.md R93). -/
def opcodeTable : List Row := [
  ⟨"init", 0x01, 0x00000000000000000000000000000001, 0xFFFFFFFFFFFFFFFFFFFFFFFFFFFEFFFF⟩,
  ⟨"set_display_on", 0x02, 0x00000000000000000000000000000002, 0xFFFFFFFFFFFFFFFFFFFFFFFFFFFEFFFF⟩,
  ⟨"set_contrast", 0x03, 0x00000000000000000000000000000003, 0xFFFFFFFFFFFFFFFFFFFFFFFFFF00FFFF⟩,
  ⟨"update_screen", 0x04, 0x00000000000000000000000000000004, 0xFFFFFFFFFFFFFFFFFFFFFFFFFFFFFFFF⟩,
  ⟨"begin_transfer", 0x05, 0x00000000000000000000000000000005, 0x0000000000000000FFFFFFFFFF80FFFF⟩,
  ⟨"draw_pixel", 0x10, 0x00000000000000000000000000000010, 0xFFFFFFFFFFFFFFFFFFFFFFFF0000FEFF⟩,
  ⟨"draw_line", 0x11, 0x00000000000000000000000000000011, 0xFFFFFFFFFFFFFFFFFFFF00000000FEFF⟩,
  ⟨"draw_circle", 0x12, 0x00000000000000000000000000000012, 0xFFFFFFFFFFFFFFFFFFFFFF000000FEFF⟩,
  ⟨"fill_circle", 0x13, 0x00000000000000000000000000000013, 0xFFFFFFFFFFFFFFFFFFFFFF000000FEFF⟩,
  ⟨"draw_arc", 0x14, 0x00000000000000000000000000000014, 0xFFFFFFFFFFFF0000000000000000FCFF⟩,
  ⟨"draw_polyline", 0x15, 0x00000000000000000000000000000015, 0x0000000000000000FFFFFFFFFFFFFEFF⟩,
  ⟨"draw_rectangle", 0x16, 0x00000000000000000000000000000016, 0xFFFFFFFFFFFFFFFFFFFF00000000FEFF⟩,
  ⟨"fill_rectangle", 0x17, 0x00000000000000000000000000000017, 0xFFFFFFFFFFFFFFFFFFFF00000000FEFF⟩,
  ⟨"invert_rectangle", 0x18, 0x00000000000000000000000000000018, 0xFFFFFFFFFFFFFFFFFFFF00000000FFFF⟩,
  ⟨"draw_bitmap", 0x19, 0x00000000000000000000000000000019, 0xFFFFFFFF00000000FFFF00000000FEFF⟩,
  ⟨"write_char", 0x1A, 0x0000000000000000000000000000001A, 0xFFFFFFFFFFFFFFFFFFFFFFFFFF00FEFF⟩,
  ⟨"write_string", 0x1B, 0x0000000000000000000000000000001B, 0xFFFFFFFF00000000FFFFFFFFFFFFFEFF⟩,
  ⟨"set_cursor", 0x1C, 0x0000000000000000000000000000001C, 0xFFFFFFFFFFFFFFFFFFFFFFFF0000FFFF⟩,
  ⟨"fill", 0x1D, 0x0000000000000000000000000000001D, 0xFFFFFFFFFFFFFFFFFFFFFFFFFFFFFEFF⟩,
  ⟨"load_buffer", 0x1E, 0x0000000000000000000000000000001E, 0x0000000000000000FFFFFFFFFFFFFFFF⟩]

/-- The row of an opcode, if it is one of the twenty (30_encoding.md R93, R98). -/
def rowOf (op : BitVec 8) : Option Row := opcodeTable.find? fun r => decide (r.op = op)

/-! ### The decoder -/

/-- Why a word or a byte string is no command (30_encoding.md R96 to R98). -/
inductive Illegal where
  /-- The opcode is not one of the twenty (R98). -/
  | unassignedOpcode
  /-- A reserved bit, or a bit of a field the format does not use, is 1 (R94). -/
  | unusedBitSet
  /-- Fewer than the 16 bytes of a command word (R90). -/
  | shortWord
  deriving DecidableEq, Repr

/-- What the decoder answers: exactly one legal command, or illegal with the reason (30_encoding.md R96). -/
inductive Decoded where
  | legal (i : Instr)
  | illegal (why : Illegal)
  deriving DecidableEq, Repr

/-- The command of an opcode with its operands, taken from the fields as they stand (30_encoding.md R93, R95). -/
def assemble (f : Fields) : Option Instr :=
  match f.op.toNat with
  | 0x01 => some (.init f.a)
  | 0x02 => some (.setDisplayOn f.a)
  | 0x03 => some (.setContrast f.a)
  | 0x04 => some .updateScreen
  | 0x05 => some (.beginTransfer f.a f.p f.n)
  | 0x10 => some (.drawPixel f.a f.b (colourOf f.col))
  | 0x11 => some (.drawLine f.a f.b f.c f.d (colourOf f.col))
  | 0x12 => some (.drawCircle f.a f.b f.c (colourOf f.col))
  | 0x13 => some (.fillCircle f.a f.b f.c (colourOf f.col))
  | 0x14 => some (.drawArc f.a f.b f.c f.d f.e f.p (colourOf f.col) (flagOf f.cap))
  | 0x15 => some (.drawPolyline f.p f.n (colourOf f.col))
  | 0x16 => some (.drawRectangle f.a f.b f.c f.d (colourOf f.col))
  | 0x17 => some (.fillRectangle f.a f.b f.c f.d (colourOf f.col))
  | 0x18 => some (.invertRectangle f.a f.b f.c f.d)
  | 0x19 => some (.drawBitmap f.a f.b f.c f.d f.p (colourOf f.col))
  | 0x1A => some (.writeChar f.a (colourOf f.col))
  | 0x1B => some (.writeString f.p (colourOf f.col))
  | 0x1C => some (.setCursor f.a f.b)
  | 0x1D => some (.fill (colourOf f.col))
  | 0x1E => some (.loadBuffer f.p f.n)
  | _ => none

/-- The decode procedure (30_encoding.md R96): look the opcode up; the command is legal when `(cmd & mask) = match`. -/
def decode (w : CommandWord) : Decoded :=
  match rowOf (fieldsOf w).op with
  | none => .illegal .unassignedOpcode
  | some r =>
    if w &&& r.mask = r.bits then
      match assemble (fieldsOf w) with
      | some i => .legal i
      | none => .illegal .unassignedOpcode
    else .illegal .unusedBitSet

/-! ### The encoder -/

/-- The fields of a word whose unused fields are all 0 (30_encoding.md R94). -/
def Fields.blank (op : BitVec 8) : Fields where
  op := op
  col := 0
  cap := 0
  rsv := 0
  a := 0
  b := 0
  c := 0
  d := 0
  e := 0
  p := 0
  n := 0

/-- The `col` field of a colour (30_encoding.md R91). -/
def Colour.field (col : Colour) : BitVec 1 := BitVec.ofBool col.bit

/-- The fields of a command: its opcode and operands in the fields of its format, every other field 0
(30_encoding.md R92 to R94). -/
def Instr.fields : Instr → Fields
  | .init mode => { Fields.blank 0x01 with a := mode }
  | .setDisplayOn on => { Fields.blank 0x02 with a := on }
  | .setContrast v => { Fields.blank 0x03 with a := v }
  | .updateScreen => Fields.blank 0x04
  | .beginTransfer addr buffer length => { Fields.blank 0x05 with a := addr, p := buffer, n := length }
  | .drawPixel x y col => { Fields.blank 0x10 with a := x, b := y, col := col.field }
  | .drawLine x1 y1 x2 y2 col => { Fields.blank 0x11 with a := x1, b := y1, c := x2, d := y2, col := col.field }
  | .drawCircle x y r col => { Fields.blank 0x12 with a := x, b := y, c := r, col := col.field }
  | .fillCircle x y r col => { Fields.blank 0x13 with a := x, b := y, c := r, col := col.field }
  | .drawArc x y r seg start sweep col cap =>
    { Fields.blank 0x14 with a := x, b := y, c := r, d := seg, e := start, p := sweep, col := col.field, cap := BitVec.ofBool cap }
  | .drawPolyline verts count col => { Fields.blank 0x15 with p := verts, n := count, col := col.field }
  | .drawRectangle x1 y1 x2 y2 col => { Fields.blank 0x16 with a := x1, b := y1, c := x2, d := y2, col := col.field }
  | .fillRectangle x1 y1 x2 y2 col => { Fields.blank 0x17 with a := x1, b := y1, c := x2, d := y2, col := col.field }
  | .invertRectangle x1 y1 x2 y2 => { Fields.blank 0x18 with a := x1, b := y1, c := x2, d := y2 }
  | .drawBitmap x y w h bitmap col => { Fields.blank 0x19 with a := x, b := y, c := w, d := h, p := bitmap, col := col.field }
  | .writeChar ch col => { Fields.blank 0x1A with a := ch, col := col.field }
  | .writeString str col => { Fields.blank 0x1B with p := str, col := col.field }
  | .setCursor x y => { Fields.blank 0x1C with a := x, b := y }
  | .fill col => { Fields.blank 0x1D with col := col.field }
  | .loadBuffer src len => { Fields.blank 0x1E with p := src, n := len }

/-- The word of a command (30_encoding.md R91 to R95). -/
def encode (i : Instr) : CommandWord := i.fields.pack

/-! ### The serial form -/

/-- The value of bytes, the first the least significant (30_encoding.md R90, 20_memory.md R68). -/
def leValue : List Byte → Nat
  | [] => 0
  | b :: rest => b.toNat + 256 * leValue rest

/-- The `count` low bytes of a value, the least significant first (30_encoding.md R90). -/
def leBytes : Nat → Nat → List Byte
  | 0, _ => []
  | count + 1, v => BitVec.ofNat 8 v :: leBytes count (v / 256)

/-- The command word of 16 bytes: byte `j` is `cmd[8j+7 : 8j]` (30_encoding.md R90). -/
def wordOfBytes (bs : List Byte) : CommandWord := BitVec.ofNat 128 (leValue bs)

/-- The serial form of a command word (30_encoding.md R90). -/
def bytesOfWord (w : CommandWord) : List Byte := leBytes 16 w.toNat

/-- Decode the first 16 bytes of a byte string, and what follows them (30_encoding.md R90, R96). -/
def decodeBytes (bs : List Byte) : Decoded × List Byte :=
  if bs.length < 16 then (.illegal .shortWord, []) else (decode (wordOfBytes (bs.take 16)), bs.drop 16)

/-- The command the decoder reads from a word of `nbits` bits with value `w`, its bits above `nbits` 0, laid out in the
16 bytes of the serial form (30_encoding.md R90). -/
def decodeTableWord (nbits w : Nat) : Option Instr :=
  match decodeBytes (leBytes 16 (w % 2 ^ nbits)) with
  | (.legal i, _) => some i
  | (.illegal _, _) => none

end Sys2Proof
end

