-- ==== Sys2Proof/Config.lean ====
section
/-! DEFINITION. The parameters of one instance of NBTG-DC (spec/00_scope.md R9 to R12), the check that refuses an instance
that does not exist (R9, 60_exceptions.md R271), the reference instance REF of 95_test_vectors.md, and the free values of
the model (values the spec leaves open at each occurrence). -/

namespace Sys2Proof

/-- The transport of the instance, `BUS` (00_scope.md R11). -/
inductive Bus where
  | i2c
  | spi
  deriving DecidableEq, Repr

/-- Every parameter the spec gives an instance (00_scope.md R9, R11, R12; 46_session.md R238). -/
structure Params where
  /-- `W`, panel width, 1 to 256 (R9). -/
  w : Nat
  /-- `H`, panel height, one of 32, 64, 128 (R9). -/
  h : Nat
  /-- `DOUBLE_BUFFERED` (R11). -/
  doubleBuffered : Bool
  /-- `BUS` (R11). -/
  bus : Bus
  /-- `DEV_ADDR`, the unshifted 7-bit device address (R11). -/
  devAddr : BitVec 7
  /-- `DIRTY_TRACKING` (R11). -/
  dirtyTracking : Bool
  /-- `CONTINUOUS_REFRESH` (R11). -/
  continuousRefresh : Bool
  /-- `MIRROR_H` (R11). -/
  mirrorH : Bool
  /-- `MIRROR_V` (R11). -/
  mirrorV : Bool
  /-- `ROWMAP_ALT` as the list of its values at rows `0 .. H-1` (R12, 42_framebuffer.md R162). -/
  rowMapAlt : List Nat
  /-- `FONT_BASE` (R12, 45_graphics_bitmap_text.md R219). -/
  fontBase : Word
  /-- `FONT_W`, 1 to 16 (R12). -/
  fontW : Nat
  /-- `FONT_H`, 1 to 255 (R12). -/
  fontH : Nat
  /-- `FONT_WIDTHS`, an address, or 0 for none (R12). -/
  fontWidths : Word
  /-- `GLYPH_OPAQUE` (R12). -/
  glyphOpaque : Bool
  /-- `ASSET_SIZE` in bytes, at most `0xFFFF_0000` (R12). -/
  assetSize : Nat
  /-- `T_RESET_MS` (46_session.md R236). -/
  tResetMs : Nat
  /-- `T_BOOT_MS` (46_session.md R236). -/
  tBootMs : Nat
  /-- `CONTRAST_INIT` (46_session.md R238). -/
  contrastInit : Byte
  /-- `CHARGE_PUMP_OP` (46_session.md R238). -/
  chargePumpOp : Byte
  /-- `CHARGE_PUMP_ARG` (46_session.md R238). -/
  chargePumpArg : Byte
  /-- `ADDR_MODE_ARG` (46_session.md R238). -/
  addrModeArg : Byte
  /-- `PRECHARGE_ARG` (46_session.md R238). -/
  prechargeArg : Byte
  /-- `VCOM_ARG` (46_session.md R238). -/
  vcomArg : Byte
  /-- `BUS_MAY_STALL` (41_bus_abstraction.md R146). -/
  busMayStall : Bool
  deriving DecidableEq, Repr

/-- `ROWMAP_ALT` is a permutation of the rows `0 .. h-1`: one value per row, each a row, none twice
(42_framebuffer.md R162). -/
def isRowPermutation (h : Nat) (rows : List Nat) : Bool :=
  decide (rows.length = h) && rows.all (fun r => decide (r < h)) && decide rows.Nodup

/-- The instances that exist (00_scope.md R9, R12; 60_exceptions.md R271). -/
def Params.valid (p : Params) : Bool :=
  decide (1 ≤ p.w ∧ p.w ≤ 256) && decide (p.h = 32 ∨ p.h = 64 ∨ p.h = 128)
    && isRowPermutation p.h p.rowMapAlt
    && decide (1 ≤ p.fontW ∧ p.fontW ≤ 16) && decide (1 ≤ p.fontH ∧ p.fontH ≤ 255)
    && decide (p.assetSize ≤ 0xFFFF0000)

/-- One instance of the hardware: parameters with the proof that they are those of an instance that exists. An
unsupported geometry cannot be built (00_scope.md R9; 60_exceptions.md R271). -/
structure Config extends Params where
  ok : toParams.valid = true
  deriving DecidableEq, Repr

/-- The constructor that refuses an instance that does not exist (60_exceptions.md R271). -/
def Config.make? (p : Params) : Option Config :=
  if h : p.valid = true then some { toParams := p, ok := h } else none

/-- `PAGES = H / 8` (00_scope.md R9). -/
def Config.pages (c : Config) : Nat := c.h / 8

/-- `FB_BYTES = W * H / 8` (00_scope.md R9). -/
def Config.fbBytes (c : Config) : Nat := c.w * c.h / 8

/-- `MAX_CHUNK`, a constant of the hardware (00_scope.md R10). -/
def maxChunk : Nat := 255

/-- `FB0_BASE` (20_memory.md R61). -/
def fb0Base : Nat := 0x1000

/-- `FB1_BASE` (20_memory.md R61). -/
def fb1Base : Nat := 0x2000

/-- `ASSET_BASE` (20_memory.md R61). -/
def assetBase : Nat := 0x10000

/-- The smoke-test instance of `ROWMAP_ALT` that the spec suggests, even rows in the upper half of the pages
(42_framebuffer.md R162): no claim about real hardware rests on it. -/
def smokeRowMap (h : Nat) : List Nat :=
  (List.range h).map fun y => y / 2 + y % 2 * (h / 2)

/-! ### The open parameters of the reference instance

REF (95_test_vectors.md) names no value for these four, so its values are free constants (log 3). -/

/-- `T_RESET_MS` of the reference instance: open (46_session.md R236). -/
opaque Config.openResetMs : Nat
/-- `T_BOOT_MS` of the reference instance: open (46_session.md R236). -/
opaque Config.openBootMs : Nat
/-- `PRECHARGE_ARG` of the reference instance: open (46_session.md R238). -/
opaque Config.openPrechargeArg : Byte
/-- `VCOM_ARG` of the reference instance: open (46_session.md R238). -/
opaque Config.openVcomArg : Byte

/-- The parameters of the reference instance REF (95_test_vectors.md, Conventions). DESIGN CHOICE: the instance that
`State.reset` is the reset of (log 2). -/
def refParams : Params where
  w := 128
  h := 64
  doubleBuffered := false
  bus := .i2c
  devAddr := 0x3C
  dirtyTracking := false
  continuousRefresh := false
  mirrorH := false
  mirrorV := false
  rowMapAlt := smokeRowMap 64
  fontBase := 0x00010000
  fontW := 5
  fontH := 7
  fontWidths := 0
  glyphOpaque := true
  assetSize := 0x10000
  tResetMs := Config.openResetMs
  tBootMs := Config.openBootMs
  contrastInit := 0x7F
  chargePumpOp := 0x8D
  chargePumpArg := 0x14
  addrModeArg := 0x00
  prechargeArg := Config.openPrechargeArg
  vcomArg := Config.openVcomArg
  busMayStall := false

/-- The reference instance REF (95_test_vectors.md, Conventions; log 2). -/
def Config.ref : Config where
  toParams := refParams
  ok := by decide

/-! ### Free values

Constants without a body, applied to the counter `State.draws`: nothing can be proved of their values (log 9). -/

/-- Whether the bus agent answers its `n`-th unscheduled chunk with an error: its free choice
(41_bus_abstraction.md R145; U3). -/
opaque Config.busFails : Nat → Bool
/-- How many bytes the bus agent lets out before the error of its `n`-th unscheduled answer: its free choice
(41_bus_abstraction.md R145; U4). -/
opaque Config.busPrefix : Nat → Nat
/-- What the register read port returns for registers 4 to 7 while a transfer is in flight, fresh at each read
(10_state.md R42; U2). -/
opaque Config.portWord : Nat → Word
/-- What the memory read port returns for an unmapped address, fresh at each read (20_memory.md R84; U19). -/
opaque Config.portByte : Nat → Byte

end Sys2Proof
end

