-- ==== Sys2Proof/Machine/State.lean ====
section
/-! DEFINITION. The state of NBTG-DC as plain data: every register, memory and history of spec/10_state.md, the bus
agent's four pieces of state (R37), the instance's parameters, and the turns of the agents to come. Reset is spec/10_state.md
R51 to R53. -/

namespace Sys2Proof.Machine

/-- Memory: the listed (address, byte) pairs of MEM, in canonical form (`Memory.wf`), over the one address space that
holds the framebuffer instances and asset memory (20_memory.md R60, R61; log 5). -/
abbrev Memory := List Host.Cell

/-- The session state `SSTATE` (10_state.md R29). -/
inductive SessionState where
  | uninitialized
  | initializing
  | idle
  | syncPending
  | syncInFlight
  deriving DecidableEq, Repr

/-- Who started the transfer, `XFER.OWNER`: 0 = the host's command, 1 = the session (10_state.md R28). -/
inductive Owner where
  | host
  | session
  deriving DecidableEq, Repr

/-- Whether a chunk opens a bus transaction or continues one (41_bus_abstraction.md R141). -/
inductive ChunkKind where
  | first
  | continued
  deriving DecidableEq, Repr

/-- A chunk descriptor `(kind, addr, src, len, final)` (41_bus_abstraction.md R141). -/
structure Chunk where
  kind : ChunkKind
  addr : BitVec 7
  src : Word
  len : Byte
  isFinal : Bool
  deriving DecidableEq, Repr

/-- The event the bus agent latches for the sequencer (10_state.md R37). -/
inductive BusEvent where
  | chunkDone
  | xferError
  deriving DecidableEq, Repr

/-- The level of the command/data select line (10_state.md R37). -/
inductive DCLevel where
  | cmd
  | data
  deriving DecidableEq, Repr

/-- An event on the transport, an entry of `BUSLOG` (10_state.md R49). -/
inductive WireEvent where
  | start (addr : BitVec 7)
  | restart (addr : BitVec 7)
  | data (byte : Byte)
  | stop
  | abort
  | dc (level : DCLevel)
  deriving DecidableEq, Repr

/-- An event on the command path, an entry of `CMDLOG` (10_state.md R49). -/
inductive CommandEvent where
  | cmd (opcode : Byte) (param : Option Byte)
  | resetLine (level : Bool)
  | delayMs (ms : Nat)
  deriving DecidableEq, Repr

/-- A completion callback, an entry of `CBLOG` (10_state.md R49). -/
structure Completion where
  owner : Owner
  success : Bool
  deriving DecidableEq, Repr

/-- One turn: which agent moves, and with what input or free choice (00_scope.md R17; log 6). -/
inductive Turn where
  /-- The host presents a command word (30_encoding.md R90). -/
  | command (w : CommandWord)
  /-- The session's deferred sync start (46_session.md R245). -/
  | session
  /-- The sequencer handles the latched event (40_transfer_engine.md R125 to R128). -/
  | sequencer
  /-- The bus agent answers the outstanding chunk with success (41_bus_abstraction.md R144). -/
  | busSuccess
  /-- The bus agent answers the outstanding chunk with an error after `sent` bytes (41_bus_abstraction.md R145; log 12). -/
  | busError (sent : Nat)
  /-- The timer ticks (46_session.md R244, 60_exceptions.md R278). -/
  | tick
  /-- The host reads register `n` through the register read port (10_state.md R38). -/
  | readRegister (n : Nat)
  /-- The host reads the byte at an address through the memory read port (20_memory.md R84). -/
  | readMemory (addr : Word)
  /-- The host places a byte in asset memory, by means outside the block (20_memory.md R63, R83). -/
  | storeAsset (addr : Word) (v : Byte)
  deriving DecidableEq, Repr

/-- The whole state of the machine (10_state.md R20 to R49). -/
structure State where
  /-- The parameters of the instance: constant, no step changes them (00_scope.md R9 to R12; log 1). -/
  cfg : Config
  /-- MEM: framebuffer instances and asset memory (10_state.md R22, 20_memory.md R61). -/
  mem : Memory
  /-- `FRONT`, the index of the front instance: false = 0, true = 1 (10_state.md R23; read through `State.frontIndex`). -/
  front : Bool
  /-- `CURSOR_X` (10_state.md R24). -/
  cursorX : Half
  /-- `CURSOR_Y` (10_state.md R24). -/
  cursorY : Half
  /-- `XFER.ADDR` (10_state.md R25). -/
  xferAddr : BitVec 7
  /-- `XFER.SRC` (10_state.md R25). -/
  xferSrc : Word
  /-- `XFER.LEN` (10_state.md R25). -/
  xferLen : Word
  /-- `XFER.DONE` (10_state.md R25). -/
  xferDone : Word
  /-- `XFER.IN_FLIGHT` (10_state.md R26). -/
  xferInFlight : Bool
  /-- `XFER.CHUNK` (10_state.md R27). -/
  xferChunk : Byte
  /-- `XFER.OWNER` (10_state.md R28). -/
  xferOwner : Owner
  /-- `SSTATE` (10_state.md R29). -/
  sstate : SessionState
  /-- `DISPLAY_ON` (10_state.md R30). -/
  displayOn : Bool
  /-- `DIRTY` (10_state.md R31). -/
  dirty : Bool
  /-- `CONTRAST` (10_state.md R32). -/
  contrast : Byte
  /-- `MAPMODE`: false = direct, true = alternate (10_state.md R33). -/
  mapMode : Bool
  /-- `LAST_OK` (10_state.md R34). -/
  lastOk : Bool
  /-- `RESULT`: bits 7:0 status, bits 15:8 value (10_state.md R35). -/
  result : Half
  /-- `FAULT`, the sticky fault bits (10_state.md R36). -/
  faultBits : Byte
  /-- `BUS.PENDING` (10_state.md R37). -/
  busPending : Option Chunk
  /-- `BUS.EVENT` (10_state.md R37). -/
  busEvent : Option BusEvent
  /-- `BUS.OPEN` (10_state.md R37). -/
  busOpen : Bool
  /-- `BUS.DC` (10_state.md R37). -/
  busDC : DCLevel
  /-- `BUSLOG`, oldest first (10_state.md R49). -/
  busLog : List WireEvent
  /-- `CMDLOG`, oldest first (10_state.md R49). -/
  cmdLog : List CommandEvent
  /-- `CBLOG`, oldest first (10_state.md R49). -/
  cbLog : List Completion
  /-- `CHUNKLOG`, oldest first (10_state.md R49). -/
  chunkLog : List Chunk
  /-- The MODEL's own: the turns to come, oldest first: the host's commands, the arrival times and the free choices of the
  agents, which the spec makes parameters of a run (10_state.md R48; log 6). -/
  turns : List Turn
  /-- The MODEL's own: how many free values have been drawn (log 9). -/
  draws : Nat
  /-- The MODEL's own: what the host last read through a read port (log 10). -/
  portData : Word
  deriving DecidableEq, Repr

/-- Why the machine stops with a fault. No command and no agent of the block ever does (60_exceptions.md R262: a set fault
bit does not stop the block). -/
inductive Fault where
  /-- Raised by the turn `storeAsset` alone: the host placed a byte outside asset memory, where it writes only through
  commands (framebuffers) or nothing exists (20_memory.md R61, R63). SAFE: the model stops where the spec gives the host no
  move (log 11). -/
  | storeOutsideAssets
  deriving DecidableEq, Repr

/-- Why a step has no meaning. -/
inductive Refusal where
  /-- Raised by an arm of `exec` whose command has no meaning yet; no arm is left so. SAFE: the model stops. -/
  | notModelled (mnemonic : String)
  /-- Raised by the turn `storeAsset` alone: the host has no such step into the source of a transfer in flight (20_memory.md R83;
  93_implementation_defined.md U21). SAFE: the model stops (log 11). -/
  | storeUnderTransfer
  deriving DecidableEq, Repr

/-- The state right after reset of any instance, with any content of the framebuffers and of asset memory: the registers as
10_state.md R51 says, the bus agent and the logs as R53 says; the memory content is an argument, since reset leaves it
unspecified (R52) or untouched (R53). -/
def State.resetWith (cfg : Config) (mem : Memory) : State where
  cfg := cfg
  mem := mem
  front := false
  cursorX := 0
  cursorY := 0
  xferAddr := 0
  xferSrc := 0
  xferLen := 0
  xferDone := 0
  xferInFlight := false
  xferChunk := 0
  xferOwner := .host
  sstate := .uninitialized
  displayOn := false
  dirty := false
  contrast := 0
  mapMode := false
  lastOk := true
  result := 0
  faultBits := 0
  busPending := none
  busEvent := none
  busOpen := false
  busDC := .data
  busLog := []
  cmdLog := []
  cbLog := []
  chunkLog := []
  turns := []
  draws := 0
  portData := 0

/-- The machine right after reset: the reference instance (log 2) with nothing listed in memory (log 4). -/
def State.reset : State := State.resetWith Config.ref []

end Sys2Proof.Machine
end

