-- ==== Sys2Proof/Machine/Memory.lean ====
section
/-! DEFINITION. MEM: reading and writing one byte of a canonical memory, the address map (spec/20_memory.md R61), and
`Mapped` (R62). -/

namespace Sys2Proof.Machine

/-! ### One byte -/

/-- What an address with no listed byte reads as. DESIGN CHOICE: 0x00; the spec leaves the framebuffers' content at reset
unspecified (10_state.md R52) and asset memory to the host (R53) (log 4). -/
def Memory.unlisted (_ : Nat) : Byte := 0x00

/-- The byte at an address (20_memory.md R60, R75). -/
def Memory.read : Memory → Nat → Byte
  | [], a => Memory.unlisted a
  | (b, v) :: rest, a => if b = a then v else Memory.read rest a

/-- The memory with one byte stored, in canonical form (20_memory.md R73). -/
def Memory.write : Memory → Nat → Byte → Memory
  | [], a, v => if v = Memory.unlisted a then [] else [(a, v)]
  | (b, u) :: rest, a, v =>
    if a < b then
      if v = Memory.unlisted a then (b, u) :: rest else (a, v) :: (b, u) :: rest
    else if a = b then
      if v = Memory.unlisted a then rest else (a, v) :: rest
    else (b, u) :: Memory.write rest a v

/-- Canonical form: the entry is above `low`, addresses strictly rise, and no entry equals what its address reads as
unlisted. -/
def Memory.wfFrom : Nat → Memory → Bool
  | _, [] => true
  | low, (a, v) :: rest => decide (low ≤ a) && decide (v ≠ Memory.unlisted a) && Memory.wfFrom (a + 1) rest

/-- Memory is in canonical form, so that equal memories are equal lists. -/
def Memory.wf (m : Memory) : Bool := Memory.wfFrom 0 m

/-! ### The address map -/

/-- What stands at a region of the map (20_memory.md R61). -/
inductive RegionKind where
  | framebuffer (second : Bool)
  | asset
  deriving DecidableEq, Repr

/-- A region of the address map (20_memory.md R61). -/
structure Region where
  kind : RegionKind
  base : Nat
  size : Nat
  deriving DecidableEq, Repr

/-- The base of a framebuffer instance, `FB0_BASE` or `FB1_BASE` (20_memory.md R61). -/
def fbBase (second : Bool) : Nat := if second then fb1Base else fb0Base

/-- The mapped regions of an instance: `FB[0]`, `FB[1]` when double-buffered, asset memory; every other address is unmapped
(20_memory.md R61). -/
def regions (c : Config) : List Region :=
  [⟨.framebuffer false, fb0Base, c.fbBytes⟩]
    ++ (if c.doubleBuffered then [⟨.framebuffer true, fb1Base, c.fbBytes⟩] else [])
    ++ [⟨.asset, assetBase, c.assetSize⟩]

/-- The range of `n` bytes at `a` lies inside the region, computed without wrap (20_memory.md R62). -/
def Region.covers (r : Region) (a n : Nat) : Bool := decide (r.base ≤ a ∧ a + n ≤ r.base + r.size)

/-- `Mapped(addr, n)`: the range is empty, or lies inside one single region (20_memory.md R62). -/
def mapped (c : Config) (a n : Nat) : Bool := decide (n = 0) || (regions c).any fun r => r.covers a n

/-- How many of the `n` bytes at `a` are mapped from the start: the largest `k ≤ n` with `Mapped(a, k)`
(41_bus_abstraction.md R147). -/
def mappedPrefix (c : Config) (a n : Nat) : Nat :=
  match (regions c).find? fun r => r.covers a 1 with
  | some r => min n (r.base + r.size - a)
  | none => 0

/-- The address lies in asset memory (20_memory.md R61). -/
def inAssets (c : Config) (a : Nat) : Bool := decide (assetBase ≤ a ∧ a < assetBase + c.assetSize)

end Sys2Proof.Machine
end

