-- ==== Sys2Proof/Machine/Operands.lean ====
section
/-! DEFINITION. How a command's operands are read (spec/30_encoding.md R95, spec/00_scope.md R14), the read of an operand
list in MEM (spec/20_memory.md R64), and the translation of a pixel coordinate (spec/42_framebuffer.md R161, R162). -/

namespace Sys2Proof.Machine

/-! ### Operands in the command word -/

/-- A coordinate, radius, width, height or count operand as an integer: zero-extended, no scaling (30_encoding.md R95). -/
def coord (v : Byte) : Int := (v.toNat : Int)

/-- The flag operand `a[0]` (30_encoding.md R92, format `V`). -/
def lowBit (a : Byte) : Bool := a.getLsbD 0

/-- The device address operand `a[6:0]`, unshifted (30_encoding.md R92, R95). -/
def deviceAddress (a : Byte) : BitVec 7 := a.setWidth 7

/-- The sweep operand `p[15:0]` (30_encoding.md R92). -/
def lowHalf (p : Word) : Half := p.setWidth 16

/-! ### Operands in MEM -/

/-- The `n` bytes at `a`, ascending addresses (20_memory.md R71). -/
def bytesAt (m : Memory) (a n : Nat) : List Byte := (List.range n).map fun j => Memory.read m (a + j)

/-- `MemRead(addr, n)` without its fault: the little-endian value, the lower address the less
significant, when the range is mapped (20_memory.md R64, R68). -/
def memRead (s : State) (a n : Nat) : Option Nat :=
  if mapped s.cfg a n then some (leValue (bytesAt s.mem a n)) else none

/-! ### The framebuffer -/

/-- The index of the front instance: `FRONT`, and the constant 0 when there is one instance (10_state.md R23). -/
def State.frontIndex (s : State) : Bool := s.cfg.doubleBuffered && s.front

/-- The base address of the front instance (20_memory.md R61). -/
def State.frontBase (s : State) : Nat := fbBase s.frontIndex

/-- The panel holds the point: `0 <= x < W` and `0 <= y < H` (42_framebuffer.md R163). -/
def inPanel (c : Config) (x y : Int) : Bool := decide (0 ≤ x ∧ x < c.w ∧ 0 ≤ y ∧ y < c.h)

/-- `StoredRow(y)`: `y` itself, or `ROWMAP_ALT(y)` with `MAPMODE = 1` (42_framebuffer.md R161, R162). -/
def storedRow (s : State) (y : Nat) : Nat := if s.mapMode then s.cfg.rowMapAlt.getD y 0 else y

/-- `Translate`, the byte index: `page * W + x` (42_framebuffer.md R161). -/
def pixelIndex (s : State) (x y : Nat) : Nat := storedRow s y / 8 * s.cfg.w + x

/-- `Translate`, the bit: the stored row modulo 8, bit 0 the topmost of the 8 (42_framebuffer.md R161). -/
def pixelBit (s : State) (y : Nat) : Nat := storedRow s y % 8

/-- `Translate`, the mask: `1 << bit` (42_framebuffer.md R161). -/
def pixelMask (s : State) (y : Nat) : Byte := 1#8 <<< pixelBit s y

/-- The address of the byte that holds a pixel of the front instance (20_memory.md R61, 42_framebuffer.md R161). -/
def pixelAddr (s : State) (x y : Nat) : Nat := s.frontBase + pixelIndex s x y

/-- The pixel as read back: the bit of the front instance (20_memory.md R84, 42_framebuffer.md R170). -/
def State.pixel (s : State) (x y : Nat) : Bool := (Memory.read s.mem (pixelAddr s x y)).getLsbD (pixelBit s y)

end Sys2Proof.Machine
end

