-- ==== Sys2Proof/Machine/Flags.lean ====
section
/-! DEFINITION. The status codes (spec/60_exceptions.md R261), the fault bits and their codes (R262, R263), the checks on
the status flags that commands make (spec/42_framebuffer.md R160, spec/46_session.md R242), and the packing of the flags into
the register read port (spec/10_state.md R39 to R41). The block has no arithmetic condition codes (spec/10_state.md R43). -/

namespace Sys2Proof.Machine

/-! ### Status codes -/

/-- The status a command ends with, `RESULT[7:0]` (60_exceptions.md R261). -/
inductive Status where
  | ok
  | errBounds
  | errReject
  | errBusy
  | errState
  | errIllegal
  | errMisuse
  | errMem
  deriving DecidableEq, Repr

/-- The code of a status (60_exceptions.md R261). -/
def Status.code : Status → Byte
  | .ok => 0
  | .errBounds => 1
  | .errReject => 2
  | .errBusy => 3
  | .errState => 4
  | .errIllegal => 5
  | .errMisuse => 6
  | .errMem => 7

/-! ### Faults -/

/-- The five causes a command can raise (60_exceptions.md R263). -/
inductive Cause where
  | misuseXfer
  | misuseDraw
  | misuseBus
  | illegal
  /-- `MemFault(addr)`: no register records the address (60_exceptions.md R263). -/
  | memFault (addr : Nat)
  deriving DecidableEq, Repr

/-- The sticky bit of a cause (60_exceptions.md R262). -/
def Cause.bit : Cause → Byte
  | .misuseXfer => 0x01
  | .misuseDraw => 0x02
  | .misuseBus => 0x04
  | .illegal => 0x08
  | .memFault _ => 0x10

/-- The status of a cause (60_exceptions.md R263). -/
def Cause.status : Cause → Status
  | .misuseXfer => .errMisuse
  | .misuseDraw => .errMisuse
  | .misuseBus => .errMisuse
  | .illegal => .errIllegal
  | .memFault _ => .errMem

/-! ### Checks on the flags -/

/-- Two ranges of addresses have an address in common. -/
def rangesMeet (a n b m : Nat) : Bool := decide (max a b < min (a + n) (b + m))

/-- `OwnershipCheck` finds misuse: a transfer is in flight and its source range meets `FBRange(FRONT)`
(42_framebuffer.md R160). -/
def State.drawMisuse (s : State) : Bool :=
  s.xferInFlight && rangesMeet s.xferSrc.toNat s.xferLen.toNat s.frontBase s.cfg.fbBytes

/-- The transfer in flight reads this address (20_memory.md R83). -/
def State.underTransfer (s : State) (a : Nat) : Bool :=
  s.xferInFlight && decide (s.xferSrc.toNat ≤ a ∧ a < s.xferSrc.toNat + s.xferLen.toNat)

/-- `Gate()`: display on, nothing in flight, and dirty when the instance tracks it (46_session.md R242). -/
def State.gate (s : State) : Bool := s.displayOn && !s.xferInFlight && (!s.cfg.dirtyTracking || s.dirty)

/-! ### The registers as the host reads them -/

/-- The number of a session state (10_state.md R29). -/
def SessionState.code : SessionState → BitVec 3
  | .uninitialized => 0
  | .initializing => 1
  | .idle => 2
  | .syncPending => 3
  | .syncInFlight => 4

/-- The bit of an owner (10_state.md R28). -/
def Owner.bit : Owner → Bool
  | .host => false
  | .session => true

/-- Register 0, `STATUS` (10_state.md R39). -/
def State.statusRegister (s : State) : Word :=
  0#8 ++ s.contrast ++ 0#5 ++ s.sstate.code ++ 0#1 ++ BitVec.ofBool s.xferOwner.bit ++ BitVec.ofBool s.mapMode
    ++ BitVec.ofBool s.lastOk ++ BitVec.ofBool s.frontIndex ++ BitVec.ofBool s.displayOn ++ BitVec.ofBool s.dirty
    ++ BitVec.ofBool s.xferInFlight

/-- Register 1, `RESULT` (10_state.md R40). -/
def State.resultRegister (s : State) : Word := 0#16 ++ s.result

/-- Register 2, `FAULT` (10_state.md R40); bits 5 to 7 read as 0 (R36). -/
def State.faultRegister (s : State) : Word := 0#24 ++ (s.faultBits &&& 0x1F)

/-- Register 3, `CURSOR` (10_state.md R40). -/
def State.cursorRegister (s : State) : Word := s.cursorY ++ s.cursorX

/-- Register 7, `XFER_CTL` (10_state.md R41). -/
def State.controlRegister (s : State) : Word := 0#16 ++ s.xferChunk ++ 0#1 ++ s.xferAddr

/-- What a register reads as: its packing, 0 for numbers 8 and above (10_state.md R38 to R41). While a transfer is in flight
registers 4 to 7 read as the free value `free` instead (R42). -/
def State.readRegister (s : State) (free : Word) (n : Nat) : Word :=
  match n with
  | 0 => s.statusRegister
  | 1 => s.resultRegister
  | 2 => s.faultRegister
  | 3 => s.cursorRegister
  | 4 => if s.xferInFlight then free else s.xferSrc
  | 5 => if s.xferInFlight then free else s.xferLen
  | 6 => if s.xferInFlight then free else s.xferDone
  | 7 => if s.xferInFlight then free else s.controlRegister
  | _ => 0

/-- What the memory read port returns: the byte at a mapped address, the free value `free` at any other
(20_memory.md R84). -/
def State.readByte (s : State) (free : Byte) (a : Nat) : Byte :=
  if mapped s.cfg a 1 then Memory.read s.mem a else free

end Sys2Proof.Machine
end

