-- ==== Sys2Proof/Machine/Ops.lean ====
section
/-! DEFINITION. The shared operations: ending a command, taking a fault, framebuffer bytes and pixels, command bodies that
can stop at an unmapped read, the command path, and the transfer primitives with their completion
(spec/60_exceptions.md, 20_memory.md, 42_framebuffer.md, 41_bus_abstraction.md, 40_transfer_engine.md, 46_session.md). -/

namespace Sys2Proof.Machine

/-! ### Ending a command and taking a fault -/

/-- `RESULT <- {value, status}` (10_state.md R35, 30_encoding.md R100). -/
def State.setResult (s : State) (value : Byte) (status : Status) : State := { s with result := value ++ status.code }

/-- The command ends with status `OK` and value 0. -/
def State.done (s : State) : State := s.setResult 0 .ok

/-- `raise F`: the sticky bit is set, `RESULT <- {0x00, code}`, the command ends; nothing is saved and no handler runs
(60_exceptions.md R263). There is no return from it: the next command runs as usual (R262, R275). -/
def raise (cause : Cause) (s : State) : State :=
  { s.setResult 0 cause.status with faultBits := s.faultBits ||| cause.bit }

/-! ### Framebuffer bytes and pixels -/

/-- `FBRead(i, k)` (20_memory.md R65). -/
def fbRead (s : State) (second : Bool) (k : Nat) : Byte := Memory.read s.mem (fbBase second + k)

/-- `FBWrite(i, k, v)`: `FB[i][k] <- v; DIRTY <- 1` (20_memory.md R66). -/
def fbWrite (s : State) (second : Bool) (k : Nat) (v : Byte) : State :=
  { s with mem := Memory.write s.mem (fbBase second + k) v, dirty := true }

/-- The byte with the mask's bits set for White, cleared for Black (42_framebuffer.md R163). -/
def paint (v mask : Byte) : Colour → Byte
  | .white => v ||| mask
  | .black => v &&& ~~~mask

/-- `SetPixel(x, y, col)`: a silent no-op outside the panel (42_framebuffer.md R163). -/
def setPixel (s : State) (x y : Int) (col : Colour) : State :=
  if inPanel s.cfg x y then
    let k := pixelIndex s x.toNat y.toNat
    let mask := pixelMask s y.toNat
    fbWrite s s.frontIndex k (paint (fbRead s s.frontIndex k) mask col)
  else s

/-- A point of a raster walk, in the unbounded integers (00_scope.md R14). -/
abbrev Point := Int × Int

/-- `SetPixel` at each point in turn (43_graphics_shapes.md R180). -/
def plot (s : State) (points : List Point) (col : Colour) : State :=
  points.foldl (fun t p => setPixel t p.1 p.2 col) s

/-! ### Command bodies that read MEM -/

/-- How a command body stands after a part of it: it goes on with a value, or it has stopped at an unmapped read, keeping
every write before it (60_exceptions.md R269). -/
inductive Flow (α : Type) where
  | ok (value : α) (s : State)
  | memFault (addr : Nat) (s : State)

/-- Go on with the next part, unless the body has stopped (60_exceptions.md R269). -/
def Flow.andThen {α β : Type} (f : Flow α) (next : α → State → Flow β) : Flow β :=
  match f with
  | .ok value s => next value s
  | .memFault addr s => .memFault addr s

/-- The end of a command: what its body decides, or the `MemFault` where it stopped (60_exceptions.md R269). -/
def Flow.close {α : Type} (f : Flow α) (finish : α → State → State) : State :=
  match f with
  | .ok value s => finish value s
  | .memFault addr s => raise (.memFault addr) s

/-- `MemRead(addr, n)`: the value, or `raise MemFault(addr)` (20_memory.md R64). -/
def readMem (a n : Nat) (s : State) : Flow Nat :=
  match memRead s a n with
  | some v => .ok v s
  | none => .memFault a s

/-- `for i from first to first + count - 1: body`, stopping where the body stops (00_scope.md R15). -/
def forCount : Nat → Nat → (Nat → State → Flow Unit) → State → Flow Unit
  | 0, _, _, s => .ok () s
  | count + 1, first, body, s => (body first s).andThen fun _ t => forCount count (first + 1) body t

/-- A drawing command: the ownership check first, then the body (42_framebuffer.md R160). -/
def drawing (s : State) (body : State → State) : State :=
  if s.drawMisuse then raise .misuseDraw s else body s

/-! ### The command path -/

/-- A display command: an opcode and an optional parameter byte (10_state.md R47). -/
structure DisplayCommand where
  opcode : Byte
  param : Option Byte
  deriving DecidableEq, Repr

/-- The bytes of a display command on the wire, the parameter after the opcode (41_bus_abstraction.md R150, R151). -/
def DisplayCommand.bytes (dc : DisplayCommand) : List Byte :=
  match dc.param with
  | none => [dc.opcode]
  | some p => [dc.opcode, p]

/-- The wire rendering of a display command: one I2C transaction with the control byte 0x00 (41_bus_abstraction.md R150),
or the bytes between two moves of the select line on SPI (R151). -/
def commandWire (c : Config) (dc : DisplayCommand) : List WireEvent :=
  match c.bus with
  | .i2c => [.start c.devAddr, .data 0x00] ++ dc.bytes.map .data ++ [.stop]
  | .spi => [.dc .cmd] ++ dc.bytes.map .data ++ [.dc .data]

/-- The level the select line is left at by a display command: `Data` on SPI (41_bus_abstraction.md R151); the line exists on
SPI only (10_state.md R37). -/
def commandLevel (c : Config) (level : DCLevel) : DCLevel :=
  match c.bus with
  | .i2c => level
  | .spi => .data

/-- `SendCommand(dc)` with nothing in flight (41_bus_abstraction.md R149); the check of R153 is made by its callers, which
have no other effect when it fails. -/
def sendCommand (s : State) (dc : DisplayCommand) : State :=
  { s with
    cmdLog := s.cmdLog ++ [.cmd dc.opcode dc.param]
    busLog := s.busLog ++ commandWire s.cfg dc
    busDC := commandLevel s.cfg s.busDC }

/-- A collaborator call on the command path: a record, not a wait (41_bus_abstraction.md R154). -/
def recordCall (s : State) (e : CommandEvent) : State := { s with cmdLog := s.cmdLog ++ [e] }

/-! ### Completion -/

/-- `Swap()`: `FRONT <- 1 - FRONT` when double-buffered (42_framebuffer.md R169). -/
def swap (s : State) : State := { s with front := if s.cfg.doubleBuffered then !s.front else s.front }

/-- `SessionCompletion(success)`: on success swap, clear `DIRTY` and return to `Idle` (46_session.md R247); on failure only
return to `Idle` (R248). -/
def sessionCompletion (s : State) (success : Bool) : State :=
  if success then { swap s with dirty := false, sstate := .idle } else { s with sstate := .idle }

/-- `Complete(owner, success)`: the completion callback (40_transfer_engine.md R129). -/
def complete (s : State) (owner : Owner) (success : Bool) : State :=
  let t := { s with lastOk := success, cbLog := s.cbLog ++ [⟨owner, success⟩] }
  match owner with
  | .host => t
  | .session => sessionCompletion t success

/-! ### Starting a transfer -/

/-- The next chunk: `min(255, XFER.LEN - XFER.DONE)` bytes at `XFER.SRC + XFER.DONE`, computed in `u32`
(40_transfer_engine.md R124; log 13). -/
def nextChunk (s : State) : Chunk :=
  let len := min maxChunk (s.xferLen.toNat - s.xferDone.toNat)
  { kind := if s.xferDone = 0 then .first else .continued
    addr := s.xferAddr
    src := s.xferSrc + s.xferDone
    len := BitVec.ofNat 8 len
    isFinal := decide (s.xferDone.toNat + len = s.xferLen.toNat) }

/-- `IssueChunk()`: the next chunk is handed to the bus agent and logged (40_transfer_engine.md R124). -/
def issueChunk (s : State) : State :=
  { s with
    xferChunk := (nextChunk s).len
    busPending := some (nextChunk s)
    chunkLog := s.chunkLog ++ [nextChunk s] }

/-- The context of a new transfer (40_transfer_engine.md R122). -/
def newTransfer (s : State) (src len : Word) (addr : BitVec 7) (owner : Owner) : State :=
  { s with xferAddr := addr, xferSrc := src, xferLen := len, xferDone := 0, xferOwner := owner }

/-- `BeginTransfer(src, len, addr, owner)` (40_transfer_engine.md R122): misuse in flight, completion at once for a zero
length (R123), else in flight with the first chunk issued. -/
def beginTransfer (s : State) (src len : Word) (addr : BitVec 7) (owner : Owner) : State :=
  if s.xferInFlight then raise .misuseXfer s
  else
    let t := newTransfer s src len addr owner
    if len = 0 then complete { t with xferChunk := 0 } owner true
    else issueChunk { t with xferInFlight := true }

/-! ### Starting a sync -/

/-- `SyncSource()`: `FB[0]` when single-buffered, the back instance when double-buffered (46_session.md R246). -/
def State.syncSource (s : State) : Word :=
  BitVec.ofNat 32 (if s.cfg.doubleBuffered then fbBase (!s.front) else fb0Base)

/-- `TrySyncStart()`, the one place a sync begins (46_session.md R243). -/
def trySyncStart (s : State) : State :=
  if s.sstate = .syncPending ∧ s.gate = true then
    { beginTransfer s s.syncSource (BitVec.ofNat 32 s.cfg.fbBytes) s.cfg.devAddr .session with sstate := .syncInFlight }
  else s

end Sys2Proof.Machine
end

