-- ==== Sys2Proof/Machine/Bus.lean ====
section
/-! DEFINITION. The bus agent: how it renders and answers the outstanding chunk (spec/41_bus_abstraction.md R142 to R148). -/

namespace Sys2Proof.Machine

/-- What opens a chunk on the wire: `Start` or `Restart` on I2C (41_bus_abstraction.md R142), nothing on SPI (R143). -/
def chunkHead (c : Config) (d : Chunk) : List WireEvent :=
  match c.bus, d.kind with
  | .i2c, .first => [.start d.addr]
  | .i2c, .continued => [.restart d.addr]
  | .spi, _ => []

/-- What ends a delivered chunk on the wire: `Stop` after the final chunk on I2C (41_bus_abstraction.md R142). -/
def chunkTail (c : Config) (d : Chunk) : List WireEvent :=
  match c.bus with
  | .i2c => if d.isFinal then [.stop] else []
  | .spi => []

/-- The first `n` bytes of a chunk as data events, read now, ascending addresses (41_bus_abstraction.md R144;
20_memory.md R79). -/
def chunkData (s : State) (d : Chunk) (n : Nat) : List WireEvent := (bytesAt s.mem d.src.toNat n).map .data

/-- `BUS.OPEN` after a delivered chunk: opened by the first chunk, closed by the final one, on I2C only
(41_bus_abstraction.md R144). -/
def openAfter (s : State) (d : Chunk) : Bool :=
  match s.cfg.bus, d.isFinal, d.kind with
  | .i2c, true, _ => false
  | .i2c, false, .first => true
  | .i2c, false, .continued => s.busOpen
  | .spi, _, _ => s.busOpen

/-- The outstanding chunk is delivered and answered with success (41_bus_abstraction.md R144). -/
def deliverChunk (s : State) (d : Chunk) : State :=
  { s with
    busLog := s.busLog ++ chunkHead s.cfg d ++ chunkData s d d.len.toNat ++ chunkTail s.cfg d
    busOpen := openAfter s d
    busPending := none
    busEvent := some .chunkDone }

/-- How many bytes get out before an error: the agent's choice among the prefixes `0 .. len` with `Mapped(src, k)`
(41_bus_abstraction.md R145, R147; 93_implementation_defined.md U4; log 12). -/
def sentBeforeError (c : Config) (d : Chunk) (sent : Nat) : Nat :=
  min sent (mappedPrefix c d.src.toNat d.len.toNat)

/-- The outstanding chunk is answered with an error (41_bus_abstraction.md R145). -/
def failChunk (s : State) (d : Chunk) (sent : Nat) : State :=
  { s with
    busLog := s.busLog ++ chunkHead s.cfg d ++ chunkData s d (sentBeforeError s.cfg d sent) ++ [.abort]
    busOpen := false
    busPending := none
    busEvent := some .xferError }

/-- The chunk the bus agent may answer: one is pending and no event is latched (41_bus_abstraction.md R144, R145). -/
def answerable (s : State) : Option Chunk :=
  match s.busEvent with
  | none => s.busPending
  | some _ => none

/-- The bus agent's step with success: enabled when the chunk's range is mapped (41_bus_abstraction.md R144, R147). -/
def busSuccessStep (s : State) : State :=
  match answerable s with
  | some d => if mapped s.cfg d.src.toNat d.len.toNat then deliverChunk s d else s
  | none => s

/-- The bus agent's step with an error (41_bus_abstraction.md R145). -/
def busErrorStep (sent : Nat) (s : State) : State :=
  match answerable s with
  | some d => failChunk s d sent
  | none => s

/-- The bus agent's answer when no turn says it: success or error by its free choice, an error when the range is not mapped
(41_bus_abstraction.md R145 to R147; log 8, 9). -/
def busFreeStep (s : State) : State :=
  match answerable s with
  | some d =>
    let t := { s with draws := s.draws + 1 }
    if Config.busFails s.draws || !mapped s.cfg d.src.toNat d.len.toNat then failChunk t d (Config.busPrefix s.draws)
    else deliverChunk t d
  | none => s

end Sys2Proof.Machine
end

