-- ==== Sys2Proof/Machine/Framebuffer.lean ====
section
/-! DEFINITION. The framebuffer commands: `DRAW_PIXEL`, `FILL`, `INVERT_RECTANGLE`, `LOAD_BUFFER`
(spec/42_framebuffer.md). -/

namespace Sys2Proof.Machine

/-- `DRAW_PIXEL x, y, col` (42_framebuffer.md R164). -/
def execDrawPixel (x y : Byte) (col : Colour) (s : State) : Host.Outcome State Fault Refusal :=
  .next (drawing s fun t => (setPixel t (coord x) (coord y) col).done)

/-- The byte a colour fills with: 0xFF White, 0x00 Black (42_framebuffer.md R165). -/
def fillByte : Colour → Byte
  | .white => 0xFF
  | .black => 0x00

/-- Every byte of an instance written with one value, in ascending order (42_framebuffer.md R165). -/
def fillBuffer (s : State) (second : Bool) (v : Byte) : State :=
  (List.range s.cfg.fbBytes).foldl (fun t k => fbWrite t second k v) s

/-- `FILL col`: the pixel translation is bypassed (42_framebuffer.md R165). -/
def execFill (col : Colour) (s : State) : Host.Outcome State Fault Refusal :=
  .next (drawing s fun t => (fillBuffer t t.frontIndex (fillByte col)).done)

/-- The points of a box of `width` by `height` pixels, row by row (42_framebuffer.md R166, 43_graphics_shapes.md R189). -/
def boxPoints (x y : Int) (width height : Nat) : List Point :=
  (List.range height).flatMap fun (j : Nat) => (List.range width).map fun (i : Nat) => (x + (i : Int), y + (j : Int))

/-- The bit of one pixel inside the panel flipped (42_framebuffer.md R166). -/
def invertPixel (s : State) (x y : Nat) : State :=
  fbWrite s s.frontIndex (pixelIndex s x y) (fbRead s s.frontIndex (pixelIndex s x y) ^^^ pixelMask s y)

/-- The precondition of the invert: corners in order and inside the panel (42_framebuffer.md R166). -/
def invertInBounds (c : Config) (x1 y1 x2 y2 : Byte) : Bool :=
  decide (x1.toNat ≤ x2.toNat ∧ y1.toNat ≤ y2.toNat ∧ x2.toNat < c.w ∧ y2.toNat < c.h)

/-- Every pixel of the box flipped once (42_framebuffer.md R166). -/
def invertBox (s : State) (x1 y1 x2 y2 : Byte) : State :=
  (boxPoints (coord x1) (coord y1) (x2.toNat - x1.toNat + 1) (y2.toNat - y1.toNat + 1)).foldl
    (fun t p => invertPixel t p.1.toNat p.2.toNat) s

/-- `INVERT_RECTANGLE x1, y1, x2, y2`: `ERR_BOUNDS` and nothing written when the precondition fails
(42_framebuffer.md R166). -/
def execInvertRectangle (x1 y1 x2 y2 : Byte) (s : State) : Host.Outcome State Fault Refusal :=
  .next (drawing s fun t =>
    if invertInBounds t.cfg x1 y1 x2 y2 then (invertBox t x1 y1 x2 y2).done else t.setResult 0 .errBounds)

/-- One byte of the copy: `FBWrite(FRONT, j, MemRead(p + j, 1))` (42_framebuffer.md R168). -/
def loadByte (src : Nat) (j : Nat) (s : State) : Flow Unit :=
  (readMem (src + j) 1 s).andThen fun v t => .ok () (fbWrite t t.frontIndex j (BitVec.ofNat 8 v))

/-- `LOAD_BUFFER src, len`: a raw copy to the start of the front buffer, `ERR_BOUNDS` when it does not fit
(42_framebuffer.md R168). -/
def execLoadBuffer (src len : Word) (s : State) : Host.Outcome State Fault Refusal :=
  .next (drawing s fun t =>
    if t.cfg.fbBytes < len.toNat then t.setResult 0 .errBounds
    else (forCount len.toNat 0 (loadByte src.toNat) t).close fun _ u => u.done)

end Sys2Proof.Machine
end

