-- ==== Sys2Proof/Machine/Shapes.lean ====
section
/-! DEFINITION. Lines, circles, polylines and rectangles (spec/43_graphics_shapes.md). A walk is the list of the points it
visits, in the order of the spec's pseudocode; a command plots its walks. -/

namespace Sys2Proof.Machine

/-! ### Line -/

/-- The distance of two coordinates (00_scope.md R13). -/
def distance (a b : Int) : Int := ((b - a).natAbs : Int)

/-- The direction from one coordinate to another: 1 if `a < b`, else -1 (43_graphics_shapes.md R181). -/
def direction (a b : Int) : Int := if a < b then 1 else -1

/-- The iterations of the line walk toward `(x2, y2)`, at most `fuel` of them: both tests use the same `e2`
(43_graphics_shapes.md R181). -/
def lineWalk (x2 y2 dx dy sx sy : Int) : Nat → Int → Int → Int → List Point
  | 0, _, _, _ => []
  | fuel + 1, x, y, err =>
    if x = x2 ∧ y = y2 then []
    else
      let stepX := decide (2 * err > -dy)
      let stepY := decide (2 * err < dx)
      (x, y) :: lineWalk x2 y2 dx dy sx sy fuel
        (if stepX then x + sx else x) (if stepY then y + sy else y)
        (err - (if stepX then dy else 0) + (if stepY then dx else 0))

/-- `Line(x1, y1, x2, y2)`: the end point, then the walk from the start, which takes exactly `max(dx, dy)` iterations
(43_graphics_shapes.md R181; log 18). -/
def linePoints (x1 y1 x2 y2 : Int) : List Point :=
  let dx := distance x1 x2
  let dy := distance y1 y2
  (x2, y2) :: lineWalk x2 y2 dx dy (direction x1 x2) (direction y1 y2) (max dx dy).toNat x1 y1 (dx - dy)

/-- `DRAW_LINE x1, y1, x2, y2, col` (43_graphics_shapes.md R182). -/
def execDrawLine (x1 y1 x2 y2 : Byte) (col : Colour) (s : State) : Host.Outcome State Fault Refusal :=
  .next (drawing s fun t => (plot t (linePoints (coord x1) (coord y1) (coord x2) (coord y2)) col).done)

/-! ### Circle -/

/-- The variables of the circle walk (43_graphics_shapes.md R184). -/
structure CircleVars where
  x : Int
  y : Int
  err : Int
  deriving DecidableEq, Repr

/-- The body of the circle walk after its visit (43_graphics_shapes.md R184). -/
def circleStep (c : CircleVars) : CircleVars :=
  let stepY := decide (c.err ≤ c.y)
  let y := if stepY then c.y + 1 else c.y
  let err := if stepY then c.err + 2 * y + 1 else c.err
  let e2 := if stepY && decide (-c.x = y ∧ c.err ≤ c.x) then 0 else c.err
  if e2 > c.x then { x := c.x + 1, y := y, err := err + 2 * (c.x + 1) + 1 } else { x := c.x, y := y, err := err }

/-- The walk from given variables, until `x > 0` (43_graphics_shapes.md R184), with at most `fuel` visits. -/
def circleWalkFrom : Nat → CircleVars → List Point
  | 0, _ => []
  | fuel + 1, c => (c.x, c.y) :: if (circleStep c).x > 0 then [] else circleWalkFrom fuel (circleStep c)

/-- The variables the walk starts with (43_graphics_shapes.md R184). -/
def circleStart (r : Nat) : CircleVars := { x := -(r : Int), y := 0, err := 2 - 2 * (r : Int) }

/-- `CircleWalk(r)`: `x` rises at most `r + 1` times and `y` at most `r` times, so `2r + 2` visits are enough
(43_graphics_shapes.md R184; log 18). -/
def circleWalk (r : Nat) : List Point := circleWalkFrom (2 * r + 2) (circleStart r)

/-- The four symmetric points of a step (43_graphics_shapes.md R185). -/
def outlinePoints (xc yc : Int) (p : Point) : List Point :=
  [(xc - p.1, yc + p.2), (xc + p.1, yc + p.2), (xc + p.1, yc - p.2), (xc - p.1, yc - p.2)]

/-- The points of a circle's outline (43_graphics_shapes.md R185). -/
def circlePoints (xc yc : Int) (r : Nat) : List Point := (circleWalk r).flatMap (outlinePoints xc yc)

/-- `DRAW_CIRCLE x, y, r, col` (43_graphics_shapes.md R185). -/
def execDrawCircle (x y r : Byte) (col : Colour) (s : State) : Host.Outcome State Fault Refusal :=
  .next (drawing s fun t => (plot t (circlePoints (coord x) (coord y) r.toNat) col).done)

/-- The two spans of a step, from `xc + x` to `xc - x` on the rows `yc + y` and `yc - y` (43_graphics_shapes.md R186). -/
def rowSpans (xc yc : Int) (p : Point) : List Point :=
  (List.range (1 - 2 * p.1).toNat).flatMap fun (i : Nat) =>
    [(xc + p.1 + (i : Int), yc + p.2), (xc + p.1 + (i : Int), yc - p.2)]

/-- The points of a filled circle (43_graphics_shapes.md R186). -/
def discPoints (xc yc : Int) (r : Nat) : List Point := (circleWalk r).flatMap (rowSpans xc yc)

/-- `FILL_CIRCLE x, y, r, col` (43_graphics_shapes.md R186). -/
def execFillCircle (x y r : Byte) (col : Colour) (s : State) : Host.Outcome State Fault Refusal :=
  .next (drawing s fun t => (plot t (discPoints (coord x) (coord y) r.toNat) col).done)

/-! ### Polyline -/

/-- Vertex `i` of the list at `p`: two bytes, x first (43_graphics_shapes.md R187). -/
def readVertex (p i : Nat) (s : State) : Flow Point :=
  (readMem (p + 2 * i) 1 s).andThen fun x t =>
    (readMem (p + 2 * i + 1) 1 t).andThen fun y u => .ok ((x : Int), (y : Int)) u

/-- The segments to the next `count` vertices, from vertex `i` on, starting at the point before it (43_graphics_shapes.md R187). -/
def polylineFrom (p : Nat) (col : Colour) : Nat → Nat → Point → State → Flow Unit
  | 0, _, _, s => .ok () s
  | count + 1, i, start, s =>
    (readVertex p i s).andThen fun q t =>
      polylineFrom p col count (i + 1) q (plot t (linePoints start.1 start.2 q.1 q.2) col)

/-- `DRAW_POLYLINE verts, count, col`: an open polyline, a no-op on a null or empty list (43_graphics_shapes.md R187). -/
def execDrawPolyline (verts count : Word) (col : Colour) (s : State) : Host.Outcome State Fault Refusal :=
  .next (drawing s fun t =>
    if verts = 0 ∨ count = 0 then t.done
    else
      ((readVertex verts.toNat 0 t).andThen fun start u =>
        polylineFrom verts.toNat col (count.toNat - 1) 1 start u).close fun _ u => u.done)

/-! ### Rectangles -/

/-- The four lines of the outline, in the order top, right, bottom, left (43_graphics_shapes.md R188). -/
def rectanglePoints (x1 y1 x2 y2 : Int) : List Point :=
  linePoints x1 y1 x2 y1 ++ linePoints x2 y1 x2 y2 ++ linePoints x2 y2 x1 y2 ++ linePoints x1 y2 x1 y1

/-- `DRAW_RECTANGLE x1, y1, x2, y2, col` (43_graphics_shapes.md R188). -/
def execDrawRectangle (x1 y1 x2 y2 : Byte) (col : Colour) (s : State) : Host.Outcome State Fault Refusal :=
  .next (drawing s fun t => (plot t (rectanglePoints (coord x1) (coord y1) (coord x2) (coord y2)) col).done)

/-- The points of the filled box, its corners in any order (43_graphics_shapes.md R189). -/
def filledBox (x1 y1 x2 y2 : Int) : List Point :=
  boxPoints (min x1 x2) (min y1 y2) ((distance x1 x2).toNat + 1) ((distance y1 y2).toNat + 1)

/-- `FILL_RECTANGLE x1, y1, x2, y2, col` (43_graphics_shapes.md R189). -/
def execFillRectangle (x1 y1 x2 y2 : Byte) (col : Colour) (s : State) : Host.Outcome State Fault Refusal :=
  .next (drawing s fun t => (plot t (filledBox (coord x1) (coord y1) (coord x2) (coord y2)) col).done)

end Sys2Proof.Machine
end

