-- ==== Sys2Proof/Machine/Arc.lean ====
section
/-! DEFINITION. Fixed-point trigonometry and arcs (spec/44_graphics_arc.md). -/

namespace Sys2Proof.Machine

/-- The table `COS5`: `1024 * cos(5k degrees)` rounded to the nearest integer, `k = 0 .. 71` (44_graphics_arc.md R200). -/
def cos5 : List Int :=
  [1024, 1020, 1008, 989, 962, 928, 887, 839, 784, 724, 658, 587, 512, 433, 350, 265]
    ++ [178, 89, 0, -89, -178, -265, -350, -433, -512, -587, -658, -724, -784, -839, -887, -928]
    ++ [-962, -989, -1008, -1020, -1024, -1020, -1008, -989, -962, -928, -887, -839, -784, -724, -658, -587]
    ++ [-512, -433, -350, -265, -178, -89, 0, 89, 178, 265, 350, 433, 512, 587, 658, 724]
    ++ [784, 839, 887, 928, 962, 989, 1008, 1020]

/-- `fxp_cos(t)`: the entry of the next lower multiple of 5 degrees (44_graphics_arc.md R201). -/
def fxpCos (t : Nat) : Int := cos5.getD (t % 360 / 5) 0

/-- `fxp_sin(t)`: the table shifted by 90 degrees (44_graphics_arc.md R202). -/
def fxpSin (t : Nat) : Int := cos5.getD ((t + 270) % 360 / 5) 0

/-- `Norm360(a)`: 0 only for 0, 360 for the other multiples of 360 (44_graphics_arc.md R204). -/
def norm360 (a : Nat) : Nat := if a = 0 then 0 else if a % 360 = 0 then 360 else a % 360

/-- `ArcPoint(xc, yc, r, t)`, rounded toward zero (44_graphics_arc.md R205). -/
def arcPoint (xc yc r : Int) (t : Nat) : Point :=
  (xc + Int.tdiv (r * fxpSin t) 1024, yc + Int.tdiv (r * fxpCos t) 1024)

/-- The number of segments: `floor(seg * sw / 360)` (44_graphics_arc.md R206). -/
def segmentCount (seg sw : Nat) : Nat := seg * sw / 360

/-- The angle at which segment `k` of `nseg` starts and segment `k - 1` ends (44_graphics_arc.md R207). -/
def segmentAngle (s0 sw nseg k : Nat) : Nat := s0 + k * sw / nseg

/-- The line from one arc point to another. -/
def chord (p q : Point) : List Point := linePoints p.1 p.2 q.1 q.2

/-- The segments of the arc (44_graphics_arc.md R208). -/
def arcSegments (xc yc r : Int) (seg s0 sw : Nat) : List Point :=
  (List.range (segmentCount seg sw)).flatMap fun k =>
    chord (arcPoint xc yc r (segmentAngle s0 sw (segmentCount seg sw) k))
      (arcPoint xc yc r (segmentAngle s0 sw (segmentCount seg sw) (k + 1)))

/-- The two radial cap lines (44_graphics_arc.md R209). -/
def arcCaps (xc yc r : Int) (s0 sw : Nat) : List Point :=
  chord (xc, yc) (arcPoint xc yc r s0) ++ chord (xc, yc) (arcPoint xc yc r (s0 + sw))

/-- The points of the command `DRAW_ARC` (44_graphics_arc.md R208). -/
def arcPoints (x y r seg : Byte) (start : Half) (sweep : Word) (cap : Bool) : List Point :=
  let s0 := norm360 start.toNat
  let sw := norm360 (lowHalf sweep).toNat
  arcSegments (coord x) (coord y) (coord r) seg.toNat s0 sw
    ++ (if cap then arcCaps (coord x) (coord y) (coord r) s0 sw else [])

/-- `DRAW_ARC x, y, r, seg, start, sweep, col [, cap]` (44_graphics_arc.md R208). -/
def execDrawArc (x y r seg : Byte) (start : Half) (sweep : Word) (col : Colour) (cap : Bool) (s : State) :
    Host.Outcome State Fault Refusal :=
  .next (drawing s fun t => (plot t (arcPoints x y r seg start sweep cap) col).done)

end Sys2Proof.Machine
end

