-- ==== Sys2Proof/Machine/Session.lean ====
section
/-! DEFINITION. The display controller session: `INIT`, `SET_DISPLAY_ON`, `SET_CONTRAST`, `UPDATE_SCREEN`, the timer tick
and the deferred start (spec/46_session.md). -/

namespace Sys2Proof.Machine

/-- A display command without parameter. -/
def bare (opcode : Byte) : DisplayCommand := ⟨opcode, none⟩

/-- A display command with a parameter. -/
def withParam (opcode param : Byte) : DisplayCommand := ⟨opcode, some param⟩

/-- The bring-up sequence: seventeen display commands, in this order (46_session.md R238; log 20). -/
def bringUp (c : Config) : List DisplayCommand := [
  bare 0xAE,
  withParam 0xD5 0xA0,
  withParam 0xA8 (BitVec.ofNat 8 (c.h - 1)),
  withParam 0xD3 0x00,
  bare 0x40,
  withParam c.chargePumpOp c.chargePumpArg,
  withParam 0x20 c.addrModeArg,
  bare (if c.mirrorH then 0xA0 else 0xA1),
  bare (if c.mirrorV then 0xC0 else 0xC8),
  withParam 0xDA 0x12,
  withParam 0x81 c.contrastInit,
  withParam 0xD9 c.prechargeArg,
  withParam 0xDB c.vcomArg,
  bare 0x2E,
  bare 0xA4,
  bare 0xA6,
  bare 0xAF]

/-- The reset pulse and the two delays that come before the sequence (46_session.md R236). -/
def resetPulse (c : Config) : List CommandEvent :=
  [.resetLine true, .delayMs c.tResetMs, .resetLine false, .delayMs c.tBootMs]

/-- A command on the command path: misuse while a transfer is in flight (41_bus_abstraction.md R153). -/
def onCommandPath (s : State) (body : State → State) : State :=
  if s.xferInFlight then raise .misuseBus s else body s

/-- `INIT mode` (46_session.md R236): one atomic step, so `Initializing` stands in no state between steps (log 19). -/
def execInit (mode : Byte) (s : State) : Host.Outcome State Fault Refusal :=
  .next (onCommandPath s fun t =>
    let u := { t with mapMode := lowBit mode, sstate := .initializing }
    let v := (bringUp u.cfg).foldl sendCommand ((resetPulse u.cfg).foldl recordCall u)
    { v with contrast := v.cfg.contrastInit, displayOn := true, sstate := .idle }.done)

/-- `SET_DISPLAY_ON on` (46_session.md R239). -/
def execSetDisplayOn (on : Byte) (s : State) : Host.Outcome State Fault Refusal :=
  .next (onCommandPath s fun t =>
    { sendCommand t (bare (if lowBit on then 0xAF else 0xAE)) with displayOn := lowBit on }.done)

/-- `SET_CONTRAST v` (46_session.md R240). -/
def execSetContrast (v : Byte) (s : State) : Host.Outcome State Fault Refusal :=
  .next (onCommandPath s fun t => { sendCommand t (withParam 0x81 v) with contrast := v }.done)

/-- `UPDATE_SCREEN` (46_session.md R241). -/
def execUpdateScreen (s : State) : Host.Outcome State Fault Refusal :=
  .next (match s.sstate with
    | .uninitialized => s.setResult 0 .errState
    | .initializing => s.setResult 0 .errState
    | .syncInFlight => s.setResult 0 .errBusy
    | .idle => (trySyncStart { s with sstate := .syncPending }).done
    | .syncPending => (trySyncStart s).done)

/-- The timer's step (46_session.md R244): no tick without `CONTINUOUS_REFRESH`, absorbed or dropped outside `Idle`. -/
def tickStep (s : State) : State :=
  if s.cfg.continuousRefresh = true ∧ s.sstate = .idle then { s with sstate := .syncPending } else s

/-- The session agent's step, the deferred start (46_session.md R245). -/
def deferredStart (s : State) : State := trySyncStart s

end Sys2Proof.Machine
end

