-- ==== Sys2Proof/Machine/Text.lean ====
section
/-! DEFINITION. Bitmap blit, cursor, glyphs and text (spec/45_graphics_bitmap_text.md). -/

namespace Sys2Proof.Machine

/-! ### Bitmap blit -/

/-- `byteWidth = ceil(width / 8)` (45_graphics_bitmap_text.md R215). -/
def byteWidth (w : Nat) : Nat := (w + 7) / 8

/-- Column `i` of row `j` of a bitmap: read its byte, draw its bit if set, the most significant bit leftmost
(45_graphics_bitmap_text.md R215, R216). -/
def blitPixel (x y : Int) (w p : Nat) (col : Colour) (j i : Nat) (s : State) : Flow Unit :=
  (readMem (p + j * byteWidth w + i / 8) 1 s).andThen fun v t =>
    .ok () (if v.testBit (7 - i % 8) then setPixel t (x + (i : Int)) (y + (j : Int)) col else t)

/-- `DRAW_BITMAP x, y, w, h, bitmap, col` (45_graphics_bitmap_text.md R215). -/
def execDrawBitmap (x y w h : Byte) (bitmap : Word) (col : Colour) (s : State) : Host.Outcome State Fault Refusal :=
  .next (drawing s fun t =>
    (forCount h.toNat 0 (fun j u =>
      forCount w.toNat 0 (blitPixel (coord x) (coord y) w.toNat bitmap.toNat col j) u) t).close fun _ u => u.done)

/-! ### Cursor -/

/-- `SET_CURSOR x, y`: no drawing command, no bounds check (45_graphics_bitmap_text.md R217). -/
def execSetCursor (x y : Byte) (s : State) : Host.Outcome State Fault Refusal :=
  .next { s with cursorX := x.setWidth 16, cursorY := y.setWidth 16 }.done

/-! ### Glyphs -/

/-- The glyph's width: the fixed one, or its byte of the width table (45_graphics_bitmap_text.md R220). -/
def glyphWidth (g : Nat) (s : State) : Flow Nat :=
  if s.cfg.fontWidths = 0 then .ok s.cfg.fontW s else readMem (s.cfg.fontWidths.toNat + g) 1 s

/-- The address of row `i` of glyph `g` (45_graphics_bitmap_text.md R219). -/
def glyphRowAddr (c : Config) (g i : Nat) : Nat := c.fontBase.toNat + 2 * (g * c.fontH + i)

/-- Column `j` of a glyph row is set: bit `15 - j` of its word; columns 16 and up do not exist
(45_graphics_bitmap_text.md R219). -/
def glyphBit (row j : Nat) : Bool := decide (j < 16) && row.testBit (15 - j)

/-- One pixel of a glyph's cell: the command's colour where set, the other colour where unset if the glyph is opaque
(45_graphics_bitmap_text.md R221). -/
def glyphPixel (x y : Int) (row : Nat) (col : Colour) (j : Nat) (s : State) : Flow Unit :=
  .ok () (if glyphBit row j then setPixel s (x + (j : Int)) y col
    else if s.cfg.glyphOpaque then setPixel s (x + (j : Int)) y col.other
    else s)

/-- One row of a glyph: read its word, then its columns (45_graphics_bitmap_text.md R221). -/
def glyphRow (x y : Int) (g gw : Nat) (col : Colour) (i : Nat) (s : State) : Flow Unit :=
  (readMem (glyphRowAddr s.cfg g i) 2 s).andThen fun row t => forCount gw 0 (glyphPixel x (y + (i : Int)) row col) t

/-- Printable ASCII: 32 to 126 (45_graphics_bitmap_text.md R221). -/
def printable (ch : Byte) : Bool := decide (32 ≤ ch.toNat ∧ ch.toNat ≤ 126)

/-- The glyph's cell crosses the right or the bottom edge (45_graphics_bitmap_text.md R221). -/
def overflows (s : State) (gw : Nat) : Bool :=
  decide (s.cfg.w < s.cursorX.toNat + gw ∨ s.cfg.h < s.cursorY.toNat + s.cfg.fontH)

/-- The cursor moved right by the glyph's width (45_graphics_bitmap_text.md R221). -/
def advance (s : State) (gw : Nat) : State := { s with cursorX := s.cursorX + BitVec.ofNat 16 gw }

/-- `PutChar(ch, col)`: whether the character was drawn (45_graphics_bitmap_text.md R221). -/
def putChar (ch : Byte) (col : Colour) (s : State) : Flow Bool :=
  if printable ch then
    (glyphWidth (ch.toNat - 32) s).andThen fun gw t =>
      if overflows t gw then .ok false t
      else
        (forCount t.cfg.fontH 0
          (glyphRow (t.cursorX.toNat : Int) (t.cursorY.toNat : Int) (ch.toNat - 32) gw col) t).andThen
          fun _ u => .ok true (advance u gw)
  else .ok false s

/-- `WRITE_CHAR ch, col` (45_graphics_bitmap_text.md R221). -/
def execWriteChar (ch : Byte) (col : Colour) (s : State) : Host.Outcome State Fault Refusal :=
  .next (drawing s fun t =>
    (putChar ch col t).close fun drawn u => if drawn then u.setResult ch .ok else u.setResult 0 .errReject)

/-! ### Strings -/

/-- The size of the address space (20_memory.md R60). -/
def memSize : Nat := 2 ^ 32

/-- The characters from address `addr` on, `left` addresses before the end of the address space: at the terminator the
string ends, at a character that is not drawn it reports that character. Past the last address nothing is mapped, so the read
there is a `MemFault` (45_graphics_bitmap_text.md R222; log 18). -/
def putString (col : Colour) : Nat → Nat → State → Flow (Byte × Status)
  | 0, addr, s => .memFault addr s
  | left + 1, addr, s =>
    (readMem addr 1 s).andThen fun v t =>
      if v = 0 then .ok (0, .ok) t
      else
        (putChar (BitVec.ofNat 8 v) col t).andThen fun drawn u =>
          if drawn then putString col left (addr + 1) u else .ok (BitVec.ofNat 8 v, .errReject) u

/-- `WRITE_STRING str, col` (45_graphics_bitmap_text.md R222). -/
def execWriteString (str : Word) (col : Colour) (s : State) : Host.Outcome State Fault Refusal :=
  .next (drawing s fun t =>
    (putString col (memSize - str.toNat) str.toNat t).close fun report u => u.setResult report.1 report.2)

end Sys2Proof.Machine
end

