-- ==== Sys2Proof/Machine/Transfer.lean ====
section
/-! DEFINITION. The transfer engine: `BEGIN_TRANSFER` and the sequencer's step (spec/40_transfer_engine.md). -/

namespace Sys2Proof.Machine

/-- `BEGIN_TRANSFER addr, buffer, length` (40_transfer_engine.md R121): misuse in flight (R122, 60_exceptions.md R264). -/
def execBeginTransfer (addr : Byte) (buffer length : Word) (s : State) : Host.Outcome State Fault Refusal :=
  .next (if s.xferInFlight then raise .misuseXfer s
    else (beginTransfer s buffer length (deviceAddress addr) .host).done)

/-- The chunk just delivered is counted; the next one is issued, or the transfer completes with success
(40_transfer_engine.md R125, R126). -/
def chunkDelivered (s : State) : State :=
  let t := { s with xferDone := s.xferDone + s.xferChunk.setWidth 32 }
  if t.xferDone.toNat < t.xferLen.toNat then issueChunk t
  else complete { t with xferChunk := 0, xferInFlight := false } t.xferOwner true

/-- The transfer ends with an error; `XFER.DONE` keeps the bytes of the chunks that completed
(40_transfer_engine.md R127). -/
def transferFailed (s : State) : State :=
  complete { s with xferChunk := 0, xferInFlight := false } s.xferOwner false

/-- The sequencer's step, the handler of the latched event (40_transfer_engine.md R125 to R128, 60_exceptions.md R274); not
enabled with no event latched (log 7). An event with no transfer in flight is cleared and ignored (R128). -/
def sequencerStep (s : State) : State :=
  match s.busEvent with
  | none => s
  | some event =>
    let t := { s with busEvent := none }
    if s.xferInFlight then
      match event with
      | .chunkDone => chunkDelivered t
      | .xferError => transferFailed t
    else t

end Sys2Proof.Machine
end

