-- ==== Sys2Proof/Machine/Dispatch.lean ====
section
/-! DEFINITION. One arm per command, each one call of its meaning (spec/30_encoding.md R93). -/

namespace Sys2Proof.Machine

def exec (i : Instr) (s : State) : Host.Outcome State Fault Refusal :=
  match i with
  | .init mode => Sys2Proof.Machine.execInit mode s
  | .setDisplayOn on => Sys2Proof.Machine.execSetDisplayOn on s
  | .setContrast v => Sys2Proof.Machine.execSetContrast v s
  | .updateScreen => Sys2Proof.Machine.execUpdateScreen s
  | .beginTransfer addr buffer length => Sys2Proof.Machine.execBeginTransfer addr buffer length s
  | .drawPixel x y col => Sys2Proof.Machine.execDrawPixel x y col s
  | .drawLine x1 y1 x2 y2 col => Sys2Proof.Machine.execDrawLine x1 y1 x2 y2 col s
  | .drawCircle x y r col => Sys2Proof.Machine.execDrawCircle x y r col s
  | .fillCircle x y r col => Sys2Proof.Machine.execFillCircle x y r col s
  | .drawArc x y r seg start sweep col cap => Sys2Proof.Machine.execDrawArc x y r seg start sweep col cap s
  | .drawPolyline verts count col => Sys2Proof.Machine.execDrawPolyline verts count col s
  | .drawRectangle x1 y1 x2 y2 col => Sys2Proof.Machine.execDrawRectangle x1 y1 x2 y2 col s
  | .fillRectangle x1 y1 x2 y2 col => Sys2Proof.Machine.execFillRectangle x1 y1 x2 y2 col s
  | .invertRectangle x1 y1 x2 y2 => Sys2Proof.Machine.execInvertRectangle x1 y1 x2 y2 s
  | .drawBitmap x y w h bitmap col => Sys2Proof.Machine.execDrawBitmap x y w h bitmap col s
  | .writeChar ch col => Sys2Proof.Machine.execWriteChar ch col s
  | .writeString str col => Sys2Proof.Machine.execWriteString str col s
  | .setCursor x y => Sys2Proof.Machine.execSetCursor x y s
  | .fill col => Sys2Proof.Machine.execFill col s
  | .loadBuffer src len => Sys2Proof.Machine.execLoadBuffer src len s

end Sys2Proof.Machine
end

