-- ==== Sys2Proof/Machine/Agents.lean ====
section
/-! DEFINITION. The agents' turns: the command port (spec/30_encoding.md R90, R96, R97), the read ports
(spec/10_state.md R38, R42; spec/20_memory.md R84), the host's asset store (R83), and what the weakly fair agents do when no
turn is left (spec/41_bus_abstraction.md R146, spec/46_session.md R245). -/

namespace Sys2Proof.Machine

/-- The command port: a legal word runs as its command, an illegal one raises `Illegal` (30_encoding.md R96, R97;
60_exceptions.md R268). -/
def presentCommand (w : CommandWord) (s : State) : Host.Outcome State Fault Refusal :=
  match decode w with
  | .legal i => exec i s
  | .illegal _ => .next (raise .illegal s)

/-- The register read port: no side effect on the machine; the value read is the model's `portData`
(10_state.md R38, R42; log 10). -/
def readRegisterTurn (n : Nat) (s : State) : State :=
  { s with portData := s.readRegister (Config.portWord s.draws) n, draws := s.draws + 1 }

/-- The memory read port, one byte (20_memory.md R84; log 10). -/
def readMemoryTurn (addr : Word) (s : State) : State :=
  { s with portData := (s.readByte (Config.portByte s.draws) addr.toNat).setWidth 32, draws := s.draws + 1 }

/-- The host places a byte in asset memory (20_memory.md R63, R83; log 11). -/
def storeAssetTurn (addr : Word) (v : Byte) (s : State) : Host.Outcome State Fault Refusal :=
  if inAssets s.cfg addr.toNat then
    if s.underTransfer addr.toNat then .refused .storeUnderTransfer
    else .next { s with mem := Memory.write s.mem addr.toNat v }
  else .fault .storeOutsideAssets

/-- One turn (00_scope.md R17). -/
def takeTurn (t : Turn) (s : State) : Host.Outcome State Fault Refusal :=
  match t with
  | .command w => presentCommand w s
  | .session => .next (deferredStart s)
  | .sequencer => .next (sequencerStep s)
  | .busSuccess => .next (busSuccessStep s)
  | .busError sent => .next (busErrorStep sent s)
  | .tick => .next (tickStep s)
  | .readRegister n => .next (readRegisterTurn n s)
  | .readMemory addr => .next (readMemoryTurn addr s)
  | .storeAsset addr v => storeAssetTurn addr v s

/-- What happens when no turn is left: the enabled step of the sequencer, of the bus agent unless it may stall, or of the
session, in this order; with none enabled the machine is quiescent and nothing changes (41_bus_abstraction.md R146,
46_session.md R245, 70_reset_and_hazards.md R307; log 8). -/
def fairStep (s : State) : State :=
  match s.busEvent with
  | some _ => sequencerStep s
  | none =>
    match s.busPending with
    | some _ => if s.cfg.busMayStall then s else busFreeStep s
    | none => deferredStart s

/-- The turn that presents a word of `nbits` bits on the command port (30_encoding.md R90; log 15). -/
def commandTurn (nbits w : Nat) : Turn := .command (BitVec.ofNat 128 (w % 2 ^ nbits))

end Sys2Proof.Machine
end

