-- ==== Sys2Proof/Machine/Step.lean ====
section
/-! DEFINITION. One step of the machine: one turn of one agent (spec/00_scope.md R17, spec/20_memory.md R75). -/

namespace Sys2Proof.Machine

/-- One step: the oldest turn is taken; with no turn left the weakly fair agents go on (00_scope.md R17). -/
def step (s : State) : Host.Outcome State Fault Refusal :=
  match s.turns with
  | [] => .next (fairStep s)
  | t :: rest => takeTurn t { s with turns := rest }

/-- The state in which the very next step presents this word on the command port (30_encoding.md R90; log 15). -/
def State.withFetchWord (s : State) (nbits w : Nat) : State := { s with turns := commandTurn nbits w :: s.turns }

end Sys2Proof.Machine
end

