-- ==== Sys2Proof/Machine/Assembly.lean ====
section
/-! DEFINITION. The assembler of spec/30_encoding.md R101 and R102: one command per line of text, a mnemonic, its operands
separated by commas as decimal or `0x` numerals, the colour word, the word `cap`, a comment after `#`, and the three
aliases. -/

namespace Sys2Proof

/-! ### Tokens -/

/-- A token of a line (30_encoding.md R101). -/
inductive Token where
  | name (word : String)
  | number (n : Nat)
  | comma
  deriving DecidableEq, Repr

/-- The value of a digit, of a base up to 16. -/
def digitValue (c : Char) : Option Nat :=
  if '0' ≤ c ∧ c ≤ '9' then some (c.toNat - '0'.toNat)
  else if 'a' ≤ c ∧ c ≤ 'f' then some (c.toNat - 'a'.toNat + 10)
  else if 'A' ≤ c ∧ c ≤ 'F' then some (c.toNat - 'A'.toNat + 10)
  else none

/-- The value of the digits in a base, from the value of those before them; a character that is no digit of the base is
refused. -/
def numeral (base : Nat) : Nat → List Char → Option Nat
  | value, [] => some value
  | value, c :: rest =>
    match digitValue c with
    | some d => if d < base then numeral base (value * base + d) rest else none
    | none => none

/-- The token of a run of letters, digits and underscores: a run that starts with a digit is a numeral, decimal or
hexadecimal after `0x` (30_encoding.md R101). -/
def runToken : List Char → Option Token
  | [] => none
  | '0' :: 'x' :: c :: rest => (numeral 16 0 (c :: rest)).map .number
  | c :: rest => if '0' ≤ c ∧ c ≤ '9' then (numeral 10 0 (c :: rest)).map .number else some (.name (String.ofList (c :: rest)))

/-- The run read so far, as a token in front of the rest of the line. -/
def endRun (run : List Char) (rest : Option (List Token)) : Option (List Token) :=
  match run with
  | [] => rest
  | _ :: _ =>
    match runToken run, rest with
    | some t, some ts => some (t :: ts)
    | _, _ => none

/-- The character belongs to a run. -/
def isRunChar (c : Char) : Bool := c.isAlphanum || c == '_'

/-- The tokens of a line, with the run read so far; `#` starts a comment (30_encoding.md R101). -/
def lex : List Char → List Char → Option (List Token)
  | run, [] => endRun run (some [])
  | run, c :: rest =>
    if c = '#' then endRun run (some [])
    else if c = ',' then endRun run ((lex [] rest).map (.comma :: ·))
    else if c = ' ' ∨ c = '\t' then endRun run (lex [] rest)
    else if isRunChar c then lex (run ++ [c]) rest
    else none

/-! ### Lines -/

/-- The operands after the mnemonic, separated by commas (30_encoding.md R101). -/
def operandsOf : List Token → Option (List Token)
  | [] => some []
  | [t] => if t = .comma then none else some [t]
  | t :: .comma :: u :: rest =>
    if t = .comma then none else (operandsOf (u :: rest)).map (t :: ·)
  | _ :: _ :: _ => none

/-- A numeral that fits a field of `bits` bits, as a value of `w` bits (30_encoding.md R95). -/
def fit (bits w n : Nat) : Option (BitVec w) := if n < 2 ^ bits then some (BitVec.ofNat w n) else none

/-- The colour words (30_encoding.md R101). -/
def colourWord : Token → Option Colour
  | .name word => if word = "black" then some .black else if word = "white" then some .white else none
  | _ => none

/-- The word `cap` after the colour of an arc (30_encoding.md R101). -/
def capWord : List Token → Option Bool
  | [] => some false
  | [.name word] => if word = "cap" then some true else none
  | _ => none

/-- The three aliases and the mnemonic each stands for (30_encoding.md R102). -/
def aliases : List (String × String) :=
  [("set_pixel", "draw_pixel"), ("invert_region", "invert_rectangle"), ("toggle_display", "set_display_on")]

/-- The mnemonic of a name: the name itself, or what an alias stands for (30_encoding.md R102). -/
def mnemonicOf (word : String) : String := (aliases.lookup word).getD word

/-- The opcode of a name (30_encoding.md R93, R102). -/
def opcodeOf (word : String) : Option (BitVec 8) :=
  (opcodeTable.find? fun r => decide (r.mnemonic = mnemonicOf word)).map Row.op

/-- The command of an opcode with its operands in the order of R93, the colour word and the word `cap`
(30_encoding.md R101). -/
def commandOf (op : BitVec 8) (operands : List Token) : Option Instr :=
  match op.toNat, operands with
  | 0x01, [.number m] => do return .init (← fit 1 8 m)
  | 0x02, [.number v] => do return .setDisplayOn (← fit 1 8 v)
  | 0x03, [.number v] => do return .setContrast (← fit 8 8 v)
  | 0x04, [] => some .updateScreen
  | 0x05, [.number a, .number p, .number n] => do return .beginTransfer (← fit 7 8 a) (← fit 32 32 p) (← fit 32 32 n)
  | 0x10, [.number x, .number y, col] => do return .drawPixel (← fit 8 8 x) (← fit 8 8 y) (← colourWord col)
  | 0x11, [.number x1, .number y1, .number x2, .number y2, col] => do
    return .drawLine (← fit 8 8 x1) (← fit 8 8 y1) (← fit 8 8 x2) (← fit 8 8 y2) (← colourWord col)
  | 0x12, [.number x, .number y, .number r, col] => do
    return .drawCircle (← fit 8 8 x) (← fit 8 8 y) (← fit 8 8 r) (← colourWord col)
  | 0x13, [.number x, .number y, .number r, col] => do
    return .fillCircle (← fit 8 8 x) (← fit 8 8 y) (← fit 8 8 r) (← colourWord col)
  | 0x14, .number x :: .number y :: .number r :: .number seg :: .number start :: .number sweep :: col :: cap => do
    return .drawArc (← fit 8 8 x) (← fit 8 8 y) (← fit 8 8 r) (← fit 8 8 seg) (← fit 16 16 start) (← fit 16 32 sweep)
      (← colourWord col) (← capWord cap)
  | 0x15, [.number p, .number n, col] => do return .drawPolyline (← fit 32 32 p) (← fit 32 32 n) (← colourWord col)
  | 0x16, [.number x1, .number y1, .number x2, .number y2, col] => do
    return .drawRectangle (← fit 8 8 x1) (← fit 8 8 y1) (← fit 8 8 x2) (← fit 8 8 y2) (← colourWord col)
  | 0x17, [.number x1, .number y1, .number x2, .number y2, col] => do
    return .fillRectangle (← fit 8 8 x1) (← fit 8 8 y1) (← fit 8 8 x2) (← fit 8 8 y2) (← colourWord col)
  | 0x18, [.number x1, .number y1, .number x2, .number y2] => do
    return .invertRectangle (← fit 8 8 x1) (← fit 8 8 y1) (← fit 8 8 x2) (← fit 8 8 y2)
  | 0x19, [.number x, .number y, .number w, .number h, .number p, col] => do
    return .drawBitmap (← fit 8 8 x) (← fit 8 8 y) (← fit 8 8 w) (← fit 8 8 h) (← fit 32 32 p) (← colourWord col)
  | 0x1A, [.number ch, col] => do return .writeChar (← fit 8 8 ch) (← colourWord col)
  | 0x1B, [.number p, col] => do return .writeString (← fit 32 32 p) (← colourWord col)
  | 0x1C, [.number x, .number y] => do return .setCursor (← fit 8 8 x) (← fit 8 8 y)
  | 0x1D, [col] => do return .fill (← colourWord col)
  | 0x1E, [.number p, .number n] => do return .loadBuffer (← fit 32 32 p) (← fit 32 32 n)
  | _, _ => none

/-- The command of a line's tokens: a name, then its operands (30_encoding.md R101). -/
def commandOfTokens : List Token → Option Instr
  | .name word :: rest => do commandOf (← opcodeOf word) (← operandsOf rest)
  | _ => none

/-- The command word of a line of text (30_encoding.md R101, R102). -/
def assembleLine (line : String) : Option CommandWord := do
  return encode (← commandOfTokens (← lex [] line.toList))

/-! ### From a command back to its line -/

/-- The word of a colour (30_encoding.md R101). -/
def Colour.word : Colour → Token
  | .black => .name "black"
  | .white => .name "white"

/-- The operands of a command in the order of R93, its colour word, and `cap` (30_encoding.md R101). -/
def Instr.operands : Instr → List Token
  | .init mode => [.number mode.toNat]
  | .setDisplayOn on => [.number on.toNat]
  | .setContrast v => [.number v.toNat]
  | .updateScreen => []
  | .beginTransfer addr buffer length => [.number addr.toNat, .number buffer.toNat, .number length.toNat]
  | .drawPixel x y col => [.number x.toNat, .number y.toNat, col.word]
  | .drawLine x1 y1 x2 y2 col => [.number x1.toNat, .number y1.toNat, .number x2.toNat, .number y2.toNat, col.word]
  | .drawCircle x y r col => [.number x.toNat, .number y.toNat, .number r.toNat, col.word]
  | .fillCircle x y r col => [.number x.toNat, .number y.toNat, .number r.toNat, col.word]
  | .drawArc x y r seg start sweep col cap =>
    [.number x.toNat, .number y.toNat, .number r.toNat, .number seg.toNat, .number start.toNat, .number sweep.toNat,
      col.word] ++ if cap then [.name "cap"] else []
  | .drawPolyline verts count col => [.number verts.toNat, .number count.toNat, col.word]
  | .drawRectangle x1 y1 x2 y2 col => [.number x1.toNat, .number y1.toNat, .number x2.toNat, .number y2.toNat, col.word]
  | .fillRectangle x1 y1 x2 y2 col => [.number x1.toNat, .number y1.toNat, .number x2.toNat, .number y2.toNat, col.word]
  | .invertRectangle x1 y1 x2 y2 => [.number x1.toNat, .number y1.toNat, .number x2.toNat, .number y2.toNat]
  | .drawBitmap x y w h bitmap col =>
    [.number x.toNat, .number y.toNat, .number w.toNat, .number h.toNat, .number bitmap.toNat, col.word]
  | .writeChar ch col => [.number ch.toNat, col.word]
  | .writeString str col => [.number str.toNat, col.word]
  | .setCursor x y => [.number x.toNat, .number y.toNat]
  | .fill col => [col.word]
  | .loadBuffer src len => [.number src.toNat, .number len.toNat]

/-- The operands with commas between them (30_encoding.md R101). -/
def withCommas : List Token → List Token
  | [] => []
  | [t] => [t]
  | t :: u :: rest => t :: .comma :: withCommas (u :: rest)

/-- The mnemonic of a command: that of its row (30_encoding.md R93). -/
def Instr.mnemonic (i : Instr) : String := ((rowOf i.fields.op).map Row.mnemonic).getD ""

/-- The tokens of a command's line (30_encoding.md R101). -/
def Instr.line (i : Instr) : List Token := .name i.mnemonic :: withCommas i.operands

end Sys2Proof
end

