-- ==== Sys2Proof/Safety.lean ====
section
/-! DEFINITION. What a safe run is, and the terms the statements use: the classes of commands, the invariant of reachable
states (spec/10_state.md R44), quiescence (spec/70_reset_and_hazards.md R307), and what it means that a command painted
exactly a set of points. -/

namespace Sys2Proof

/-! ### Classes of commands -/

/-- The drawing commands (42_framebuffer.md R160). -/
def Instr.isDrawing : Instr → Bool
  | .init _ => false
  | .setDisplayOn _ => false
  | .setContrast _ => false
  | .updateScreen => false
  | .beginTransfer _ _ _ => false
  | .drawPixel _ _ _ => true
  | .drawLine _ _ _ _ _ => true
  | .drawCircle _ _ _ _ => true
  | .fillCircle _ _ _ _ => true
  | .drawArc _ _ _ _ _ _ _ _ => true
  | .drawPolyline _ _ _ => true
  | .drawRectangle _ _ _ _ _ => true
  | .fillRectangle _ _ _ _ _ => true
  | .invertRectangle _ _ _ _ => true
  | .drawBitmap _ _ _ _ _ _ => true
  | .writeChar _ _ => true
  | .writeString _ _ => true
  | .setCursor _ _ => false
  | .fill _ => true
  | .loadBuffer _ _ => true

/-- The commands that use the command path (41_bus_abstraction.md R149, R153). -/
def Instr.usesCommandPath : Instr → Bool
  | .init _ => true
  | .setDisplayOn _ => true
  | .setContrast _ => true
  | _ => false

/-- The command is `BEGIN_TRANSFER` (60_exceptions.md R264). -/
def Instr.isBeginTransfer : Instr → Bool
  | .beginTransfer _ _ _ => true
  | _ => false

/-- The command reads MEM, so that it can end in `ERR_MEM` (60_exceptions.md R261, R269). -/
def Instr.readsMem : Instr → Bool
  | .drawPolyline _ _ _ => true
  | .drawBitmap _ _ _ _ _ _ => true
  | .writeChar _ _ => true
  | .writeString _ _ => true
  | .loadBuffer _ _ => true
  | _ => false

/-- The command is `WRITE_CHAR`. -/
def Instr.isWriteChar : Instr → Bool
  | .writeChar _ _ => true
  | _ => false

/-- The command is `WRITE_STRING`. -/
def Instr.isWriteString : Instr → Bool
  | .writeString _ _ => true
  | _ => false

/-- The command is `UPDATE_SCREEN`. -/
def Instr.isUpdateScreen : Instr → Bool
  | .updateScreen => true
  | _ => false

/-- The command is a bulk operation that reports bounds errors (60_exceptions.md R261, R267). -/
def Instr.reportsBounds : Instr → Bool
  | .invertRectangle _ _ _ _ => true
  | .loadBuffer _ _ => true
  | _ => false

end Sys2Proof

namespace Sys2Proof.Machine

/-- The commands that can return a status, by the table of 60_exceptions.md R261 (`ERR_ILLEGAL` is no command's). -/
def mayReturn (i : Instr) : Status → Bool
  | .ok => true
  | .errBounds => i.reportsBounds
  | .errReject => i.isWriteChar || i.isWriteString
  | .errBusy => i.isUpdateScreen
  | .errState => i.isUpdateScreen
  | .errIllegal => false
  | .errMisuse => i.isBeginTransfer || i.isDrawing || i.usesCommandPath
  | .errMem => i.readsMem

/-! ### Painting -/

/-- `t` is `s` after a command that gave exactly the points of `P` inside the panel the colour `col` and ended with `OK`:
those pixels have the colour, every other pixel is as before, every byte that holds none of them is as before, `DIRTY` is set
if there was one, and nothing else but `RESULT` changed (43_graphics_shapes.md R180). -/
structure Painted (s t : State) (P : Int → Int → Prop) (col : Colour) : Prop where
  inside : ∀ x y : Nat, x < s.cfg.w → y < s.cfg.h → P x y → t.pixel x y = col.bit
  outside : ∀ x y : Nat, x < s.cfg.w → y < s.cfg.h → ¬ P x y → t.pixel x y = s.pixel x y
  bytes : ∀ a : Nat, (∀ x y : Nat, x < s.cfg.w → y < s.cfg.h → P x y → a ≠ pixelAddr s x y) →
    Memory.read t.mem a = Memory.read s.mem a
  dirty : t.dirty = true ↔ s.dirty = true ∨ ∃ x y : Nat, x < s.cfg.w ∧ y < s.cfg.h ∧ P x y
  result : t.result = 0
  rest : t = { s with mem := t.mem, dirty := t.dirty, result := t.result }

/-- The address lies in the front instance, `FBRange(FRONT)` (20_memory.md R62). -/
def State.inFront (s : State) (a : Nat) : Prop := s.frontBase ≤ a ∧ a < s.frontBase + s.cfg.fbBytes

/-- The address lies in the source range of the transfer, `[XFER.SRC, XFER.SRC + XFER.LEN)` (10_state.md R45). -/
def State.inSource (s : State) (a : Nat) : Prop :=
  s.xferSrc.toNat ≤ a ∧ a < s.xferSrc.toNat + s.xferLen.toNat

/-- Drawing is not refused: no transfer is in flight, or none of the addresses it reads lies in the front instance
(42_framebuffer.md R160). -/
def State.drawable (s : State) : Prop := s.xferInFlight = true → ∀ a, ¬ (s.inSource a ∧ s.inFront a)

/-- `n` bytes at `a` can be read one by one (20_memory.md R64). -/
def State.readable (s : State) (a n : Nat) : Prop := ∀ k, k < n → mapped s.cfg (a + k) 1 = true

/-- `n` bytes at `a` can be read one by one, and none lies in the front instance, so that drawing does not change what is
read (20_memory.md R64, R72). -/
def State.readableAside (s : State) (a n : Nat) : Prop :=
  ∀ k, k < n → mapped s.cfg (a + k) 1 = true ∧ ¬ s.inFront (a + k)

/-! ### Text -/

/-- The glyph of a character has this width: `FONT_W`, or the byte of the width table (45_graphics_bitmap_text.md R220). -/
def State.glyphWidthIs (s : State) (ch : Byte) (gw : Nat) : Prop :=
  if s.cfg.fontWidths = 0 then gw = s.cfg.fontW
  else
    mapped s.cfg (s.cfg.fontWidths.toNat + (ch.toNat - 32)) 1 = true ∧
      gw = (Memory.read s.mem (s.cfg.fontWidths.toNat + (ch.toNat - 32))).toNat

/-- Column `j` of row `i` of a character's glyph is set: bit `15 - j` of the little-endian row word, unset from column 16 on
(45_graphics_bitmap_text.md R219). -/
def State.glyphSet (s : State) (ch : Byte) (i j : Nat) : Bool :=
  decide (j < 16) &&
    (Memory.read s.mem (glyphRowAddr s.cfg (ch.toNat - 32) i + 1) ++
      Memory.read s.mem (glyphRowAddr s.cfg (ch.toNat - 32) i)).getLsbD (15 - j)

/-- Row `i` of a character's glyph drawn at the cursor, its word as it reads now: column by column, a set bit in the colour,
an unset one in the other colour if the glyph is opaque and else left alone (45_graphics_bitmap_text.md R221). -/
def State.glyphRowDrawn (s : State) (ch : Byte) (col : Colour) (gw i : Nat) : State :=
  (List.range gw).foldl (fun t j =>
    if s.glyphSet ch i j then setPixel t (s.cursorX.toNat + j) (s.cursorY.toNat + i) col
    else if s.cfg.glyphOpaque then setPixel t (s.cursorX.toNat + j) (s.cursorY.toNat + i) col.other
    else t) s

/-- The glyph's cell at the cursor stays on the panel (45_graphics_bitmap_text.md R221). -/
def State.cellFits (s : State) (gw : Nat) : Prop :=
  s.cursorX.toNat + gw ≤ s.cfg.w ∧ s.cursorY.toNat + s.cfg.fontH ≤ s.cfg.h

/-- `WRITE_CHAR` of each character in turn, every one drawn, leads from one state to the other
(45_graphics_bitmap_text.md R223 (4)). -/
def drawsEach (col : Colour) : List Byte → State → State → Prop
  | [], s, t => t = s
  | ch :: rest, s, t => ∃ u, exec (.writeChar ch col) s = .next u ∧ u.result.setWidth 8 = 0#8 ∧ drawsEach col rest u t

/-! ### The host's step, and the start of a sync -/

/-- The command of the host's step to come, if the next turn presents a legal word. -/
def State.presented (s : State) : Option Instr :=
  match s.turns.head? with
  | some (.command w) =>
    match decode w with
    | .legal i => some i
    | .illegal _ => none
  | _ => none

/-- The state after a sync has begun: the whole buffer of 46_session.md R246 on its way, the first chunk issued
(40_transfer_engine.md R122, R124). -/
def State.syncBegun (s : State) : State :=
  let base : Word := if s.cfg.doubleBuffered = true ∧ s.front = false then 0x2000 else 0x1000
  let first : Chunk := ⟨.first, s.cfg.devAddr, base, BitVec.ofNat 8 (min 255 s.cfg.fbBytes), decide (s.cfg.fbBytes ≤ 255)⟩
  { s with
    xferAddr := s.cfg.devAddr, xferSrc := base, xferLen := BitVec.ofNat 32 s.cfg.fbBytes, xferDone := 0,
    xferOwner := .session, xferInFlight := true, xferChunk := BitVec.ofNat 8 (min 255 s.cfg.fbBytes),
    busPending := some first, chunkLog := s.chunkLog ++ [first], sstate := .syncInFlight }

/-! ### Transfers -/

/-- Chunk `j` of a transfer of `len` bytes at `src` (40_transfer_engine.md R132). -/
def chunkAt (addr : BitVec 7) (src len : Word) (j : Nat) : Chunk where
  kind := if j = 0 then .first else .continued
  addr := addr
  src := src + BitVec.ofNat 32 (255 * j)
  len := BitVec.ofNat 8 (min 255 (len.toNat - 255 * j))
  isFinal := decide (len.toNat ≤ 255 * (j + 1))

/-- The number of chunks of a transfer of `len` bytes, `ceil(len / 255)` (40_transfer_engine.md R132). -/
def chunkCount (len : Word) : Nat := (len.toNat + 254) / 255

/-- What a delivered chunk puts on the wire, its bytes read from a given memory: on I2C `Start` or `Restart`, the bytes, and
`Stop` after the final chunk, on SPI the bytes alone (41_bus_abstraction.md R142, R143). -/
def chunkWire (c : Config) (m : Memory) (d : Chunk) : List WireEvent :=
  match c.bus with
  | .i2c =>
    [match d.kind with
      | .first => .start d.addr
      | .continued => .restart d.addr]
      ++ (bytesAt m d.src.toNat d.len.toNat).map .data ++ if d.isFinal then [.stop] else []
  | .spi => (bytesAt m d.src.toNat d.len.toNat).map .data

/-- How many chunks of the transfer in flight have been delivered: those counted, and one more whose success is latched. -/
def State.delivered (s : State) : Nat := s.xferDone.toNat / 255 + if s.busEvent = some .chunkDone then 1 else 0

/-- `s` is a state of the transfer that was started with the state `start` as its result: the context is the same, the source
bytes are those of the start, the chunks issued and the wire events are those of the chunks so far, in order
(10_state.md R45, R50; 40_transfer_engine.md R132). -/
structure TransferProgress (start s : State) : Prop where
  flight : s.xferInFlight = true
  config : s.cfg = start.cfg
  addr : s.xferAddr = start.xferAddr
  src : s.xferSrc = start.xferSrc
  len : s.xferLen = start.xferLen
  owner : s.xferOwner = start.xferOwner
  /-- R45: no byte of the source range has changed. -/
  source : ∀ a, start.inSource a → Memory.read s.mem a = Memory.read start.mem a
  /-- R132: the chunks issued after the first. -/
  chunks : s.chunkLog = start.chunkLog ++
    (List.range (s.xferDone.toNat / 255)).map fun j => chunkAt start.xferAddr start.xferSrc start.xferLen (j + 1)
  /-- R147: only mapped chunks have been delivered. -/
  sent : ∀ j, j < s.delivered →
    mapped start.cfg (chunkAt start.xferAddr start.xferSrc start.xferLen j).src.toNat
      (chunkAt start.xferAddr start.xferSrc start.xferLen j).len.toNat = true
  /-- R50: the bytes sent are those that stood at the source when the transfer began. -/
  wire : s.busEvent ≠ some .xferError → s.busLog = start.busLog ++
    (List.range s.delivered).flatMap fun j =>
      chunkWire start.cfg start.mem (chunkAt start.xferAddr start.xferSrc start.xferLen j)

/-! ### The invariant -/

/-- The bus agent's side of a transfer in flight: the chunk is outstanding, or its answer is latched
(10_state.md R44, 41_bus_abstraction.md R148). -/
def State.chunkOutstanding (s : State) : Prop :=
  (s.busPending = some (nextChunk s) ∧ s.busEvent = none) ∨ (s.busPending = none ∧ s.busEvent ≠ none)

/-- A bus transaction is open exactly between the first chunk and the final one of an I2C transfer: a later chunk is
pending, or a chunk that is not the final one has been delivered (10_state.md R37, 41_bus_abstraction.md R142). -/
def State.transactionOpen (s : State) : Prop :=
  s.cfg.bus = .i2c ∧ s.xferInFlight = true ∧
    ((s.busPending ≠ none ∧ s.xferDone ≠ 0) ∨
      (s.busEvent = some .chunkDone ∧ s.xferDone.toNat + s.xferChunk.toNat < s.xferLen.toNat))

/-- The invariant of reachable states: the clauses of 10_state.md R44, and what R23, R24, R36, R37, R143 of the spec say
always holds. -/
structure State.Inv (s : State) : Prop where
  memory : Memory.wf s.mem = true
  /-- R44 (a). -/
  done : s.xferDone.toNat ≤ s.xferLen.toNat
  /-- R44 (b), 40_transfer_engine.md R133. -/
  flight : s.xferInFlight = true →
    s.xferDone.toNat < s.xferLen.toNat ∧ s.xferDone.toNat % 255 = 0 ∧
      s.xferChunk.toNat = min 255 (s.xferLen.toNat - s.xferDone.toNat) ∧ s.chunkOutstanding
  /-- R44 (c). -/
  idle : s.xferInFlight = false → s.busPending = none ∧ s.busEvent = none ∧ s.xferChunk = 0
  /-- R44 (d), (e). -/
  sync : s.sstate = .syncInFlight ↔ s.xferInFlight = true ∧ s.xferOwner = .session
  /-- A sync transmits the buffer of 46_session.md R246, fixed for the whole transfer. -/
  source : s.sstate = .syncInFlight → s.xferSrc = s.syncSource ∧ s.xferLen.toNat = s.cfg.fbBytes
  /-- `Initializing` exists only inside the `INIT` step (46_session.md R236). -/
  started : s.sstate ≠ .initializing
  /-- 10_state.md R23. -/
  single : s.cfg.doubleBuffered = false → s.front = false
  /-- 10_state.md R24. -/
  cursor : s.cursorX.toNat ≤ max 255 s.cfg.w ∧ s.cursorY.toNat ≤ 255
  /-- 10_state.md R36. -/
  faults : s.faultBits.toNat < 32
  /-- 60_exceptions.md R261: codes 8 to 255 are never produced. -/
  status : (s.result.setWidth 8).toNat < 8
  /-- 41_bus_abstraction.md R143. -/
  level : s.busDC = .data
  /-- 10_state.md R37. -/
  openBus : s.busOpen = true ↔ s.transactionOpen

/-- No agent but the host (and the tick) has an enabled step (70_reset_and_hazards.md R307). -/
def State.quiescent (s : State) : Bool :=
  s.busPending.isNone && s.busEvent.isNone && !(decide (s.sstate = .syncPending) && s.gate)

/-- The host obeyed the protocol: no fault bit is set (60_exceptions.md R262). -/
def State.faultFree (s : State) : Bool := decide (s.faultBits = 0)

end Sys2Proof.Machine
end

