-- ==== Sys2Proof/Certificates/Slice0/Obligations.lean ====
section
/-! DEFINITION. The statements for the provers, each about the machine as spec/ describes it. A statement about a command says
what `exec` answers; a premise `s.drawable` says that the ownership check does not refuse the command
(spec/42_framebuffer.md R160), a premise `Memory.wf s.mem = true` that the memory is in the canonical form that every step
keeps (`Obligations.InvariantKeptByEveryStep`). -/

open Sys2Proof Sys2Proof.Machine

/-! ### Encoding -/

/-- 30_encoding.md R91 to R95: no operand bit of any command is lost by its word. -/
def Obligations.DecodeInvertsEncode : Prop :=
  ∀ i : Instr, i.wellFormed = true → decode (encode i) = .legal i

/-- 30_encoding.md R96: a word is legal exactly when its opcode has a row and `(cmd & mask) = match`; a legal word is one
command, whose operands are the fields as they stand: the command is well formed and its word is the word decoded. -/
def Obligations.WordLegalExactlyWhenItsRowIsMet : Prop :=
  (∀ w : CommandWord, (∃ i, decode w = .legal i) ↔
    ∃ r ∈ opcodeTable, w.extractLsb' 0 8 = r.op ∧ w &&& r.mask = r.bits) ∧
  ∀ (w : CommandWord) (i : Instr), decode w = .legal i → i.wellFormed = true ∧ encode i = w

/-- Words written out from 30_encoding.md R91, R93, R103 and 95_test_vectors.md (T1.12, T2.1, T2.15, T5.3, T6.1, T7.2). -/
def Obligations.SampleWordsDecode : Prop :=
  decode 0x00000000000000000000020400000111 = .legal (.drawLine 0 0 4 2 .white) ∧
  decode 0x000002580001000000000000003C0005 = .legal (.beginTransfer 0x3C 0x00010000 600) ∧
  decode 0x00000000000000000000000000000110 = .legal (.drawPixel 0 0 .white) ∧
  decode 0x00000000000000000000090106000018 = .legal (.invertRectangle 0 6 1 9) ∧
  decode 0x000000000000005A0000240A20400314 = .legal (.drawArc 64 32 10 36 0 90 .white true) ∧
  decode 0x000000000001010000000404080A0119 = .legal (.drawBitmap 10 8 4 4 0x00010100 .white) ∧
  decode 0x00000000000000000000000000010001 = .legal (.init 1) ∧
  decode 0x00000000000000000000000000000004 = .legal .updateScreen

/-- 30_encoding.md R90: 16 bytes, byte `j` is `cmd[8j+7 : 8j]`, and the decoder reads the word back from them, leaving what
follows. -/
def Obligations.SerialFormIsLittleEndian : Prop :=
  ∀ (w : CommandWord) (rest : List Byte),
    (bytesOfWord w).length = 16 ∧
    (∀ j, j < 16 → (bytesOfWord w)[j]? = some (w.extractLsb' (8 * j) 8)) ∧
    wordOfBytes (bytesOfWord w) = w ∧
    decodeBytes (bytesOfWord w ++ rest) = (decode w, rest)

/-- 30_encoding.md R101, R102: the line of a command assembles to the command, a line that assembles gives a command that
has a word, and an alias assembles as the name it stands for. -/
def Obligations.LineAssemblesToItsCommand : Prop :=
  (∀ i : Instr, i.wellFormed = true → commandOfTokens i.line = some i) ∧
  (∀ (ts : List Token) (i : Instr), commandOfTokens ts = some i → i.wellFormed = true) ∧
  ∀ ts : List Token,
    commandOfTokens (.name "set_pixel" :: ts) = commandOfTokens (.name "draw_pixel" :: ts) ∧
    commandOfTokens (.name "invert_region" :: ts) = commandOfTokens (.name "invert_rectangle" :: ts) ∧
    commandOfTokens (.name "toggle_display" :: ts) = commandOfTokens (.name "set_display_on" :: ts)

/-! ### Steps -/

/-- 30_encoding.md R90, R96, 00_scope.md R17: a step takes the next turn. A legal word that the host presents runs exactly its
command, on the state with that turn taken, and `withFetchWord` places such a turn first; the turn of another agent is that
agent's step; the host's asset store (20_memory.md R83, log 11) stores its one byte, has no step under a transfer, and is a
fault outside asset memory. That turns stand in a list is the model's choice (log 6). -/
def Obligations.StepRunsThePresentedCommand : Prop :=
  (∀ (s : State) (w : CommandWord) (rest : List Turn) (i : Instr), s.turns = .command w :: rest → decode w = .legal i →
    step s = exec i { s with turns := rest }) ∧
  (∀ (s : State) (w : CommandWord) (i : Instr), decode w = .legal i → step (s.withFetchWord 128 w.toNat) = exec i s) ∧
  ∀ (s : State) (rest : List Turn),
    let t := { s with turns := rest }
    (s.turns = .session :: rest → step s = .next (deferredStart t)) ∧
    (s.turns = .sequencer :: rest → step s = .next (sequencerStep t)) ∧
    (s.turns = .busSuccess :: rest → step s = .next (busSuccessStep t)) ∧
    (∀ k, s.turns = .busError k :: rest → step s = .next (busErrorStep k t)) ∧
    (s.turns = .tick :: rest → step s = .next (tickStep t)) ∧
    ∀ (p : Word) (v : Byte), s.turns = .storeAsset p v :: rest →
      let inAsset := 0x10000 ≤ p.toNat ∧ p.toNat < 0x10000 + s.cfg.assetSize
      (inAsset → (s.xferInFlight = true → ¬ s.inSource p.toNat) → ∃ m, step s = .next { t with mem := m } ∧
        (∀ a, a ≠ p.toNat → Memory.read m a = Memory.read s.mem a) ∧
        (Memory.wf s.mem = true → Memory.wf m = true ∧ Memory.read m p.toNat = v)) ∧
      (inAsset → s.xferInFlight = true → s.inSource p.toNat → step s = .refused .storeUnderTransfer) ∧
      (¬ inAsset → step s = .fault .storeOutsideAssets)

/-- 30_encoding.md R97, R98, 60_exceptions.md R268: a word that is no command sets `FAULT.ILLEGAL` and `RESULT` and changes
nothing else; every opcode outside the table is such a word, the all-zero word among them. -/
def Obligations.IllegalWordOnlyRaisesIllegal : Prop :=
  (∀ (s : State) (w : CommandWord) (rest : List Turn), s.turns = .command w :: rest → (∀ i, decode w ≠ .legal i) →
    step s = .next { s with turns := rest, result := 0x0005, faultBits := s.faultBits ||| 0x08 }) ∧
  (∀ w : CommandWord, (∀ r ∈ opcodeTable, w.extractLsb' 0 8 ≠ r.op) → decode w = .illegal .unassignedOpcode) ∧
  ∀ i, decode 0 ≠ .legal i

/-- The model's choice for an empty schedule (log 8), within the fairness of 41_bus_abstraction.md R146 and 46_session.md
R245: a latched event is handled, else a pending chunk is answered unless the bus may stall, else the deferred start is
tried; a quiescent machine (70_reset_and_hazards.md R307) stays as it is, and so does the machine after reset (R292). -/
def Obligations.EmptyScheduleIsFair : Prop :=
  (∀ s : State, s.turns = [] →
    (s.busEvent ≠ none → step s = .next (sequencerStep s)) ∧
    (s.busEvent = none → s.busPending ≠ none → s.cfg.busMayStall = false → step s = .next (busFreeStep s)) ∧
    (s.busEvent = none → s.busPending ≠ none → s.cfg.busMayStall = true → step s = .next s) ∧
    (s.busEvent = none → s.busPending = none → step s = .next (deferredStart s)) ∧
    (s.quiescent = true → step s = .next s)) ∧
  ∀ (cfg : Config) (mem : Memory), step (State.resetWith cfg mem) = .next (State.resetWith cfg mem)

/-! ### Reset -/

/-- 10_state.md R51, R53, for every instance and every content of the memory, which reset does not touch. -/
def Obligations.ResetValues : Prop :=
  ∀ (cfg : Config) (mem : Memory),
    let s := State.resetWith cfg mem
    (s.sstate = .uninitialized ∧ s.xferInFlight = false ∧ s.xferAddr = 0 ∧ s.xferSrc = 0 ∧ s.xferLen = 0 ∧
      s.xferDone = 0 ∧ s.xferChunk = 0 ∧ s.xferOwner = .host ∧ s.front = false ∧ s.cursorX = 0 ∧ s.cursorY = 0 ∧
      s.displayOn = false ∧ s.dirty = false ∧ s.contrast = 0 ∧ s.mapMode = false ∧ s.lastOk = true ∧ s.result = 0 ∧
      s.faultBits = 0) ∧
    (s.busPending = none ∧ s.busEvent = none ∧ s.busOpen = false ∧ s.busDC = .data ∧ s.busLog = [] ∧ s.cmdLog = [] ∧
      s.cbLog = [] ∧ s.chunkLog = [] ∧ s.mem = mem)

/-- The invariant holds right after reset, for every instance and every canonical memory (10_state.md R44, R51, R53). -/
def Obligations.InvariantAtReset : Prop :=
  ∀ (cfg : Config) (mem : Memory), Memory.wf mem = true → (State.resetWith cfg mem).Inv

/-! ### Rules of the whole machine -/

/-- 10_state.md R44, R23, R24, R36, R37, 40_transfer_engine.md R133, 41_bus_abstraction.md R143, R148: every step of every
agent keeps the invariant, from every state that meets it, and with it the canonical form of the memory. -/
def Obligations.InvariantKeptByEveryStep : Prop :=
  ∀ s t : State, s.Inv → step s = .next t → t.Inv

/-- 10_state.md R44: the clauses (a) to (e) in every state that a run reaches from reset, for every instance, every content
of the memory, and every schedule of the host's commands, the bus agent's choices, the ticks and the other agents. -/
def Obligations.ReachableStatesMeetTransferClauses : Prop :=
  ∀ (cfg : Config) (mem : Memory) (schedule : List Turn) (k : Nat) (s : State),
    Memory.wf mem = true →
    Host.Core.run core k { State.resetWith cfg mem with turns := schedule } = .next s →
    s.xferDone.toNat ≤ s.xferLen.toNat ∧
    (s.xferInFlight = true →
      s.xferDone.toNat < s.xferLen.toNat ∧ s.xferChunk.toNat = min 255 (s.xferLen.toNat - s.xferDone.toNat) ∧
      1 ≤ s.xferChunk.toNat ∧
      ((∃ d, s.busPending = some d ∧ d.src = s.xferSrc + s.xferDone ∧ d.len = s.xferChunk ∧ s.busEvent = none) ∨
        (s.busPending = none ∧ (s.busEvent = some .chunkDone ∨ s.busEvent = some .xferError)))) ∧
    (s.xferInFlight = false → s.busPending = none ∧ s.busEvent = none ∧ s.xferChunk = 0) ∧
    (s.sstate = .syncInFlight → s.xferInFlight = true ∧ s.xferOwner = .session) ∧
    (s.xferInFlight = true → s.xferOwner = .session → s.sstate = .syncInFlight)

/-- 60_exceptions.md R262, R263: a fault bit, once set, stays set, and only a step of the host writes `FAULT` or `RESULT`. -/
def Obligations.FaultBitsAreStickyAndTheHostsAlone : Prop :=
  ∀ s t : State, step s = .next t →
    (∀ b, s.faultBits.getLsbD b = true → t.faultBits.getLsbD b = true) ∧
    ((∀ w, s.turns.head? ≠ some (.command w)) → t.faultBits = s.faultBits ∧ t.result = s.result)

/-- 60_exceptions.md R261, R263: every command ends with one status that the table allows it, the fault bit it sets is the
one of its class, and `RESULT[15:8]` is 0 but for the character drawn by `WRITE_CHAR` and the one refused by
`WRITE_STRING`: a character of the string, not the terminator, which `WRITE_CHAR` still refuses at the end. -/
def Obligations.EveryCommandEndsWithAStatusOfItsRow : Prop :=
  ∀ (i : Instr) (s t : State), exec i s = .next t →
    ∃ st : Status, mayReturn i st = true ∧ t.result.setWidth 8 = st.code ∧
      t.faultBits = s.faultBits |||
        (if st = .errMisuse then
          (if i.isBeginTransfer then 0x01 else if i.isDrawing then 0x02 else 0x04)
        else if st = .errMem then 0x10 else 0) ∧
      (∀ ch col, i = .writeChar ch col → st = .ok → t.result.extractLsb' 8 8 = ch) ∧
      (∀ p col, i = .writeString p col → st = .errReject → ∃ k,
        mapped s.cfg (p.toNat + k) 1 = true ∧ t.result.extractLsb' 8 8 = Memory.read t.mem (p.toNat + k) ∧
        Memory.read t.mem (p.toNat + k) ≠ 0 ∧
        exec (.writeChar (Memory.read t.mem (p.toNat + k)) col) t = .next { t with result := 0x0002 }) ∧
      (t.result.extractLsb' 8 8 ≠ 0 →
        (i.isWriteChar = true ∧ st = .ok) ∨ (i.isWriteString = true ∧ st = .errReject))

/-- 60_exceptions.md R276: a command refused for misuse, bounds, session state or a busy session has changed `RESULT` and
`FAULT` alone, and so has a rejected character. -/
def Obligations.RefusedCommandsChangeNothingElse : Prop :=
  ∀ (i : Instr) (s t : State), exec i s = .next t →
    (t.result.setWidth 8 = Status.errMisuse.code ∨ t.result.setWidth 8 = Status.errBounds.code ∨
      t.result.setWidth 8 = Status.errState.code ∨ t.result.setWidth 8 = Status.errBusy.code ∨
      (t.result.setWidth 8 = Status.errReject.code ∧ i.isWriteChar = true)) →
    t = { s with result := t.result, faultBits := t.faultBits }

/-- Who writes each register: 10_state.md R23 (`FRONT`: the swap of a successful sync's completion alone), R24 and
45_graphics_bitmap_text.md R218 (the cursor), R25 and R28 (the transfer context, of which only `XFER.DONE` changes in flight, and
only the sequencer writes it there), R26 (`XFER.IN_FLIGHT`) and R27 (`XFER.CHUNK`: a start, or the sequencer handling an event),
R30 (`DISPLAY_ON`), R32 (`CONTRAST`), R33 (`MAPMODE`), R34 (`LAST_OK`); no step changes the instance (00_scope.md R9); the
histories only grow (R49). -/
def Obligations.EachRegisterHasItsNamedWriters : Prop :=
  ∀ s t : State, s.Inv → step s = .next t →
    t.cfg = s.cfg ∧
    (t.front ≠ s.front → s.cfg.doubleBuffered = true ∧ s.busEvent = some .chunkDone ∧ s.sstate = .syncInFlight ∧
      t.sstate = .idle ∧ t.xferInFlight = false) ∧
    (t.mapMode ≠ s.mapMode → ∃ m, s.presented = some (.init m)) ∧
    (t.contrast ≠ s.contrast →
      (∃ m, s.presented = some (.init m)) ∨ ∃ v, s.presented = some (.setContrast v)) ∧
    (t.displayOn ≠ s.displayOn →
      (∃ m, s.presented = some (.init m)) ∨ ∃ v, s.presented = some (.setDisplayOn v)) ∧
    (t.cursorY ≠ s.cursorY → ∃ x y, s.presented = some (.setCursor x y)) ∧
    (t.cursorX ≠ s.cursorX →
      (∃ x y, s.presented = some (.setCursor x y)) ∨
      (∃ ch col, s.presented = some (.writeChar ch col)) ∨
      ∃ p col, s.presented = some (.writeString p col)) ∧
    (t.xferAddr ≠ s.xferAddr ∨ t.xferSrc ≠ s.xferSrc ∨ t.xferLen ≠ s.xferLen ∨ t.xferOwner ≠ s.xferOwner →
      s.xferInFlight = false ∧
        ((∃ a b n, s.presented = some (.beginTransfer a b n)) ∨ t.sstate = .syncInFlight)) ∧
    (t.xferDone ≠ s.xferDone ∨ t.xferInFlight ≠ s.xferInFlight ∨ t.xferChunk ≠ s.xferChunk →
      (s.xferInFlight = false ∧ t.xferDone = 0 ∧
        ((∃ a b n, s.presented = some (.beginTransfer a b n)) ∨ t.sstate = .syncInFlight)) ∨
      (s.xferInFlight = true ∧ s.busEvent ≠ none ∧ t = sequencerStep { s with turns := t.turns, draws := t.draws })) ∧
    (t.lastOk ≠ s.lastOk → ∃ owner, t.cbLog = s.cbLog ++ [⟨owner, t.lastOk⟩]) ∧
    (∃ l, t.busLog = s.busLog ++ l) ∧ (∃ l, t.cmdLog = s.cmdLog ++ l) ∧
    (∃ l, t.cbLog = s.cbLog ++ l) ∧ ∃ l, t.chunkLog = s.chunkLog ++ l

/-- 46_session.md R249, 10_state.md R31, 20_memory.md R66: `DIRTY` is cleared only by the step that completes a sync with
success, is set only by a drawing command, and every step that changes a byte of memory leaves it set, but for the host's own
store into asset memory. -/
def Obligations.DirtyIsSetByWritesAndClearedBySyncs : Prop :=
  ∀ s t : State, s.Inv → step s = .next t →
    (s.dirty = true → t.dirty = false →
      s.busEvent = some .chunkDone ∧ s.sstate = .syncInFlight ∧ t.sstate = .idle ∧ t.lastOk = true) ∧
    (s.dirty = false → t.dirty = true → ∃ i, s.presented = some i ∧ i.isDrawing = true) ∧
    (t.mem ≠ s.mem → t.dirty = true ∨ ∃ a v, s.turns.head? = some (.storeAsset a v))

/-- 20_memory.md R63, R64, R74: a step changes no byte but bytes of the front instance, by a drawing command the host presents,
and the one asset byte that the host places, outside the source of a transfer in flight; the back instance changes by no step. -/
def Obligations.OnlyDrawingAndTheHostWriteMemory : Prop :=
  ∀ s t : State, step s = .next t → ∀ a, Memory.read t.mem a ≠ Memory.read s.mem a →
    (s.inFront a ∧ ∃ i, s.presented = some i ∧ i.isDrawing = true) ∨
    (inAssets s.cfg a = true ∧ (s.xferInFlight = true → ¬ s.inSource a) ∧
      ∃ p v, s.turns.head? = some (.storeAsset p v) ∧ p.toNat = a)

/-- 46_session.md R252: the transition table of `SSTATE`, event by event. That a tick or a deferred start that is not enabled
changes nothing is the model's choice where no rule says it (log 7). -/
def Obligations.SessionTransitionTable : Prop :=
  ∀ s : State, s.Inv →
    (∀ m t, exec (.init m) s = .next t → t.sstate = if s.xferInFlight then s.sstate else .idle) ∧
    (∀ t, exec .updateScreen s = .next t → t.sstate =
      match s.sstate with
      | .uninitialized => .uninitialized
      | .initializing => .initializing
      | .idle => if s.gate then .syncInFlight else .syncPending
      | .syncPending => if s.gate then .syncInFlight else .syncPending
      | .syncInFlight => .syncInFlight) ∧
    (tickStep s).sstate = (if s.cfg.continuousRefresh = true ∧ s.sstate = .idle then .syncPending else s.sstate) ∧
    (deferredStart s).sstate = (if s.sstate = .syncPending ∧ s.gate = true then .syncInFlight else s.sstate) ∧
    (sequencerStep s).sstate =
      (if s.sstate = .syncInFlight ∧ (sequencerStep s).xferInFlight = false then .idle else s.sstate) ∧
    (∀ i t, exec i s = .next t → (∀ m, i ≠ .init m) → i ≠ .updateScreen → t.sstate = s.sstate) ∧
    (busSuccessStep s).sstate = s.sstate ∧ ∀ k, (busErrorStep k s).sstate = s.sstate

/-! ### Protocol misuse -/

/-- 60_exceptions.md R264, R266: a command that needs the engine or the bus while a transfer is in flight sets its sticky bit
and `RESULT`, and changes nothing else. -/
def Obligations.CommandsInFlightAreMisuse : Prop :=
  ∀ s : State, s.xferInFlight = true →
    (∀ a b n, exec (.beginTransfer a b n) s = .next { s with result := 0x0006, faultBits := s.faultBits ||| 0x01 }) ∧
    ∀ i : Instr, i.usesCommandPath = true →
      exec i s = .next { s with result := 0x0006, faultBits := s.faultBits ||| 0x04 }

/-- 42_framebuffer.md R160, 60_exceptions.md R265, 46_session.md R251: each of the fourteen drawing commands is refused,
whatever its operands, exactly when a transfer is in flight that reads an address of the front instance; refused, it sets its
sticky bit and `RESULT` and changes nothing else. During a sync every one is allowed on a double-buffered instance and refused
on a single-buffered one. -/
def Obligations.DrawingIntoTheSourceIsMisuse : Prop :=
  (∀ (s : State) (i : Instr), i.isDrawing = true →
    (¬ s.drawable → exec i s = .next { s with result := 0x0006, faultBits := s.faultBits ||| 0x02 }) ∧
    (s.drawable → ∃ t, exec i s = .next t ∧ t.result.setWidth 8 ≠ Status.errMisuse.code ∧
      t.faultBits &&& 0x07 = s.faultBits &&& 0x07)) ∧
  ∀ s : State, s.Inv → s.sstate = .syncInFlight →
    (s.cfg.doubleBuffered = true → s.drawable) ∧ (s.cfg.doubleBuffered = false → ¬ s.drawable)

/-! ### Memory -/

/-- 20_memory.md R61, R62, R64, R68: the map; a range is mapped when it is empty or lies in one region, and two regions that
touch do not join; the value of a mapped range is little-endian, byte `j` at bits `8j+7 : 8j`; a range that is not mapped has
none, and a command that reads it stops there with `MemFault`. -/
def Obligations.AddressMapAndReads : Prop :=
  (∀ (c : Config) (a n : Nat), mapped c a n = true ↔
    n = 0 ∨ (0x1000 ≤ a ∧ a + n ≤ 0x1000 + c.fbBytes) ∨
      (c.doubleBuffered = true ∧ 0x2000 ≤ a ∧ a + n ≤ 0x2000 + c.fbBytes) ∨
      (0x10000 ≤ a ∧ a + n ≤ 0x10000 + c.assetSize)) ∧
  (∀ (c : Config) (a k n : Nat), k ≤ n → (mapped c a k = true ↔ k ≤ mappedPrefix c a n)) ∧
  ∀ (s : State) (a n : Nat),
    (mapped s.cfg a n = true → ∃ v, memRead s a n = some v ∧ v < 256 ^ n ∧
      ∀ j, j < n → v / 256 ^ j % 256 = (Memory.read s.mem (a + j)).toNat) ∧
    (mapped s.cfg a n = false → memRead s a n = none ∧
      (readMem a n s).close (fun _ t => t) = { s with result := 0x0007, faultBits := s.faultBits ||| 0x10 })

/-- 42_framebuffer.md R161, R162: the translation of a pixel of the panel is a byte of the front instance and a bit of it, of
the row itself with `MAPMODE = 0` and of the row `ROWMAP_ALT(y)` with `MAPMODE = 1`; two pixels never share both. -/
def Obligations.TranslationIsInjective : Prop :=
  ∀ (s : State) (x y x' y' : Nat), x < s.cfg.w → y < s.cfg.h → x' < s.cfg.w → y' < s.cfg.h →
    (s.mapMode = false → pixelAddr s x y = s.frontBase + (y / 8 * s.cfg.w + x) ∧ pixelBit s y = y % 8) ∧
    (s.mapMode = true → ∃ r, s.cfg.rowMapAlt[y]? = some r ∧ r < s.cfg.h ∧
      pixelAddr s x y = s.frontBase + (r / 8 * s.cfg.w + x) ∧ pixelBit s y = r % 8) ∧
    pixelIndex s x y < s.cfg.fbBytes ∧ pixelBit s y < 8 ∧
    (pixelAddr s x y = pixelAddr s x' y' → pixelBit s y = pixelBit s y' → x = x' ∧ y = y')

/-! ### Drawing -/

/-- 42_framebuffer.md R160, 10_state.md R43: the frame of every drawing command. Registers other than `DIRTY`, `RESULT` and
`FAULT` keep their values, but for `CURSOR_X` under `WRITE_CHAR` and `WRITE_STRING`; every byte outside the front instance
reads as before; `DIRTY` is never cleared, and with `DIRTY` clear at the end no byte has changed. -/
def Obligations.DrawingFrame : Prop :=
  ∀ (s t : State) (i : Instr), i.isDrawing = true → exec i s = .next t →
    t = { s with mem := t.mem, dirty := t.dirty, cursorX := t.cursorX, result := t.result, faultBits := t.faultBits } ∧
    (i.isWriteChar = false → i.isWriteString = false → t.cursorX = s.cursorX) ∧
    (∀ a, ¬ s.inFront a → Memory.read t.mem a = Memory.read s.mem a) ∧
    (s.dirty = true → t.dirty = true) ∧ (t.dirty = false → t.mem = s.mem) ∧
    (Memory.wf s.mem = true → Memory.wf t.mem = true)

/-- 42_framebuffer.md R164, R163: `DRAW_PIXEL` gives its one pixel the colour; out of the panel it changes `RESULT` alone. -/
def Obligations.DrawPixelPaintsOnePixel : Prop :=
  ∀ (s : State) (x y : Byte) (col : Colour), s.drawable → Memory.wf s.mem = true →
    (∃ t, exec (.drawPixel x y col) s = .next t ∧ Painted s t (fun a b => a = coord x ∧ b = coord y) col) ∧
    (s.cfg.w ≤ x.toNat ∨ s.cfg.h ≤ y.toNat → exec (.drawPixel x y col) s = .next { s with result := 0 })

/-- 42_framebuffer.md R163, R170: `SetPixel` in full. In the panel it stores one byte, the old one with the pixel's bit set for
White and cleared for Black, and sets `DIRTY`; the pixel then reads back as the colour and every other pixel as before; outside,
for any integers, nothing changes. -/
def Obligations.SetPixelRoundTrip : Prop :=
  ∀ (s : State) (col : Colour), Memory.wf s.mem = true →
    (∀ x y : Nat, x < s.cfg.w → y < s.cfg.h →
      setPixel s x y col =
        { s with
          mem := Memory.write s.mem (pixelAddr s x y)
            (match col with
            | .white => Memory.read s.mem (pixelAddr s x y) ||| (1#8 <<< pixelBit s y)
            | .black => Memory.read s.mem (pixelAddr s x y) &&& ~~~(1#8 <<< pixelBit s y))
          dirty := true } ∧
      (setPixel s x y col).pixel x y = col.bit ∧
      ∀ x' y' : Nat, x' < s.cfg.w → y' < s.cfg.h → (x', y') ≠ (x, y) → (setPixel s x y col).pixel x' y' = s.pixel x' y') ∧
    ∀ x y : Int, (x < 0 ∨ (s.cfg.w : Int) ≤ x ∨ y < 0 ∨ (s.cfg.h : Int) ≤ y) → setPixel s x y col = s

/-- 43_graphics_shapes.md R182: `DRAW_LINE` paints the points of the line walk. -/
def Obligations.DrawLinePaintsItsWalk : Prop :=
  ∀ (s : State) (x1 y1 x2 y2 : Byte) (col : Colour), s.drawable → Memory.wf s.mem = true →
    ∃ t, exec (.drawLine x1 y1 x2 y2 col) s = .next t ∧
      Painted s t (fun a b => (a, b) ∈ linePoints (coord x1) (coord y1) (coord x2) (coord y2)) col

/-- 43_graphics_shapes.md R183, for all integers: (1) both end points are visited; (2) `max(dx, dy) + 1` points, none twice;
(3) consecutive points of the walk from the start to the end differ by at most 1 in each coordinate; (4) horizontal, vertical
and exact diagonal lines give the same set in both directions, and the oblique line of the rule, whose walk is the one the
rule lists, does not. -/
def Obligations.LineLaws : Prop :=
  (∀ x1 y1 x2 y2 : Int,
    let points := linePoints x1 y1 x2 y2
    let walk := points.tail ++ [(x2, y2)]
    (x1, y1) ∈ points ∧ (x2, y2) ∈ points ∧
    points.length = max (x2 - x1).natAbs (y2 - y1).natAbs + 1 ∧ points.Nodup ∧
    walk[0]? = some (x1, y1) ∧
    (∀ (i : Nat) (p q : Point), walk[i]? = some p → walk[i + 1]? = some q →
      (q.1 - p.1).natAbs ≤ 1 ∧ (q.2 - p.2).natAbs ≤ 1) ∧
    (x1 = x2 ∨ y1 = y2 ∨ (x2 - x1).natAbs = (y2 - y1).natAbs →
      ∀ p, p ∈ linePoints x1 y1 x2 y2 ↔ p ∈ linePoints x2 y2 x1 y1)) ∧
  (linePoints 4 2 0 0).tail ++ [(0, 0)] = [(4, 2), (3, 2), (2, 1), (1, 1), (0, 0)] ∧ (1, 1) ∉ linePoints 0 0 4 2

/-- 43_graphics_shapes.md R185, R186: the two circle commands paint the four symmetric points, or the two spans, of each step
of the walk. -/
def Obligations.CirclesPaintTheirWalk : Prop :=
  ∀ (s : State) (x y r : Byte) (col : Colour), s.drawable → Memory.wf s.mem = true →
    (∃ t, exec (.drawCircle x y r col) s = .next t ∧
      Painted s t (fun a b => ∃ p ∈ circleWalk r.toNat,
        (a = coord x - p.1 ∨ a = coord x + p.1) ∧ (b = coord y + p.2 ∨ b = coord y - p.2)) col) ∧
    ∃ t, exec (.fillCircle x y r col) s = .next t ∧
      Painted s t (fun a b => ∃ p ∈ circleWalk r.toNat,
        coord x + p.1 ≤ a ∧ a ≤ coord x - p.1 ∧ (b = coord y + p.2 ∨ b = coord y - p.2)) col

/-- 43_graphics_shapes.md R184: the walk covers one quadrant, from `(-r, 0)` to `(0, r)`; each step moves by at most 1 in each
coordinate, `x` and `y` never fall; and the model's bound on its length cuts nothing off: a longer bound gives the same walk,
since the walk ends where `x > 0` (log 18). -/
def Obligations.CircleWalkLaws : Prop :=
  ∀ r : Nat,
    (circleWalk r)[0]? = some (-(r : Int), 0) ∧ (circleWalk r).getLast? = some (0, (r : Int)) ∧
    (∀ p ∈ circleWalk r, -(r : Int) ≤ p.1 ∧ p.1 ≤ 0 ∧ 0 ≤ p.2 ∧ p.2 ≤ r) ∧
    (∀ (i : Nat) (p q : Point), (circleWalk r)[i]? = some p → (circleWalk r)[i + 1]? = some q →
      p.1 ≤ q.1 ∧ q.1 ≤ p.1 + 1 ∧ p.2 ≤ q.2 ∧ q.2 ≤ p.2 + 1) ∧
    ∀ fuel, 2 * r + 2 ≤ fuel → circleWalkFrom fuel (circleStart r) = circleWalk r

/-- 43_graphics_shapes.md R188, R189: `DRAW_RECTANGLE` paints the border of the box of its corners, `FILL_RECTANGLE` every
point of it, both corners included, in any order of the corners. -/
def Obligations.RectanglesPaintBorderOrBox : Prop :=
  ∀ (s : State) (x1 y1 x2 y2 : Byte) (col : Colour), s.drawable → Memory.wf s.mem = true →
    let inBox := fun a b : Int =>
      min (coord x1) (coord x2) ≤ a ∧ a ≤ max (coord x1) (coord x2) ∧
        min (coord y1) (coord y2) ≤ b ∧ b ≤ max (coord y1) (coord y2)
    (∃ t, exec (.drawRectangle x1 y1 x2 y2 col) s = .next t ∧
      Painted s t (fun a b => inBox a b ∧ (a = coord x1 ∨ a = coord x2 ∨ b = coord y1 ∨ b = coord y2)) col) ∧
    ∃ t, exec (.fillRectangle x1 y1 x2 y2 col) s = .next t ∧ Painted s t inBox col

/-- 44_graphics_arc.md R206 to R209: `DRAW_ARC` paints its `nseg` segments, each from the arc point at
`s0 + k * sw / nseg` to that at `s0 + (k+1) * sw / nseg`, and with `cap` the two radii. -/
def Obligations.DrawArcPaintsSegmentsAndCaps : Prop :=
  ∀ (s : State) (x y r seg : Byte) (start : Half) (sweep : Word) (col : Colour) (cap : Bool),
    s.drawable → Memory.wf s.mem = true →
    let s0 := norm360 start.toNat
    let sw := norm360 (sweep.toNat % 65536)
    let nseg := seg.toNat * sw / 360
    let at' := fun t => arcPoint (coord x) (coord y) (coord r) t
    ∃ t, exec (.drawArc x y r seg start sweep col cap) s = .next t ∧
      Painted s t (fun a b =>
        (∃ k, k < nseg ∧ (a, b) ∈ linePoints (at' (s0 + k * sw / nseg)).1 (at' (s0 + k * sw / nseg)).2
          (at' (s0 + (k + 1) * sw / nseg)).1 (at' (s0 + (k + 1) * sw / nseg)).2) ∨
        (cap = true ∧ ((a, b) ∈ linePoints (coord x) (coord y) (at' s0).1 (at' s0).2 ∨
          (a, b) ∈ linePoints (coord x) (coord y) (at' (s0 + sw)).1 (at' (s0 + sw)).2))) col

/-- 44_graphics_arc.md R200 to R207: the table's first quadrant (the spec's own general-knowledge values, log 20) and the
symmetries that give the rest, the exact cardinal values, the sine as the cosine shifted by 90
degrees, the angle used the next lower multiple of 5; an angle is normalised into `0 .. 360`, 0 only from 0 and 360 from the
other multiples of 360; an arc point is no further from the centre than the radius in either coordinate; at most 255 segments,
the first starting at `s0`, the last ending at `s0 + sw`, at angles that never fall and stay below 721. -/
def Obligations.TrigAndArcLaws : Prop :=
  (cos5.length = 72 ∧
    cos5.take 19 = [1024, 1020, 1008, 989, 962, 928, 887, 839, 784, 724, 658, 587, 512, 433, 350, 265, 178, 89, 0] ∧
    (∀ k, 1 ≤ k → k ≤ 71 → cos5[k]? = cos5[72 - k]?) ∧
    ∀ k, k < 36 → ∃ v, cos5[k]? = some v ∧ cos5[k + 36]? = some (-v)) ∧
  (∀ t, -1024 ≤ fxpCos t ∧ fxpCos t ≤ 1024 ∧ fxpCos t = fxpCos (t / 5 * 5) ∧ fxpSin t = fxpSin (t / 5 * 5) ∧
    fxpSin (t + 90) = fxpCos t) ∧
  (∀ n, fxpSin (360 * n) = 0 ∧ fxpCos (360 * n) = 1024 ∧ fxpSin (360 * n + 90) = 1024 ∧ fxpCos (360 * n + 90) = 0 ∧
    fxpSin (360 * n + 180) = 0 ∧ fxpCos (360 * n + 180) = -1024 ∧
    fxpSin (360 * n + 270) = -1024 ∧ fxpCos (360 * n + 270) = 0) ∧
  (∀ a, norm360 a ≤ 360 ∧ (norm360 a = 0 ↔ a = 0) ∧ norm360 a % 360 = a % 360) ∧
  (∀ (xc yc : Int) (r t : Nat),
    ((arcPoint xc yc r t).1 - xc).natAbs ≤ r ∧ ((arcPoint xc yc r t).2 - yc).natAbs ≤ r) ∧
  ∀ seg s0 sw : Nat, seg ≤ 255 → s0 ≤ 360 → sw ≤ 360 →
    segmentCount seg sw ≤ 255 ∧
    (segmentCount seg sw ≠ 0 →
      segmentAngle s0 sw (segmentCount seg sw) 0 = s0 ∧
      segmentAngle s0 sw (segmentCount seg sw) (segmentCount seg sw) = s0 + sw ∧
      ∀ k, k < segmentCount seg sw →
        segmentAngle s0 sw (segmentCount seg sw) k ≤ segmentAngle s0 sw (segmentCount seg sw) (k + 1) ∧
        segmentAngle s0 sw (segmentCount seg sw) (k + 1) ≤ 720)

/-- 43_graphics_shapes.md R187, 60_exceptions.md R269: a null or empty list draws nothing. Else, as far as the list can be
read, and wherever it lies, the front instance itself included (20_memory.md R63): vertex `i`, two bytes, x first, is read when
the segments before it are drawn, and each segment from a vertex to the next is a `DRAW_LINE`; after the last vertex the command
ends, with no line back to the first; at a vertex with a byte that cannot be read it stops. For a list that lies aside of the
front instance the points painted are those of the lines between the vertices as they stood before. -/
def Obligations.DrawPolylineJoinsItsVertices : Prop :=
  ∀ (s : State) (verts count : Word) (col : Colour), s.drawable → Memory.wf s.mem = true →
    (verts = 0 ∨ count = 0 → exec (.drawPolyline verts count col) s = .next { s with result := 0 }) ∧
    (verts ≠ 0 → ∀ k, k ≤ count.toNat → s.readable verts.toNat (2 * k) →
      ∃ (u : Nat → State) (v : Nat → Byte × Byte), u 0 = s ∧
        (∀ i, i < k → v i = (Memory.read (u (i - 1)).mem (verts.toNat + 2 * i),
          Memory.read (u (i - 1)).mem (verts.toNat + 2 * i + 1))) ∧
        (∀ i, i + 1 < k → exec (.drawLine (v i).1 (v i).2 (v (i + 1)).1 (v (i + 1)).2 col) (u i) = .next (u (i + 1))) ∧
        (k = count.toNat → exec (.drawPolyline verts count col) s = .next { u (k - 1) with result := 0 }) ∧
        (k < count.toNat → ¬ s.readable (verts.toNat + 2 * k) 2 → exec (.drawPolyline verts count col) s =
          .next { u (k - 1) with result := 0x0007, faultBits := s.faultBits ||| 0x10 })) ∧
    (verts ≠ 0 → s.readableAside verts.toNat (2 * count.toNat) →
      let vertex := fun i => (((Memory.read s.mem (verts.toNat + 2 * i)).toNat : Int),
        ((Memory.read s.mem (verts.toNat + 2 * i + 1)).toNat : Int))
      ∃ t, exec (.drawPolyline verts count col) s = .next t ∧
        Painted s t (fun a b => ∃ i, i + 1 < count.toNat ∧
          (a, b) ∈ linePoints (vertex i).1 (vertex i).2 (vertex (i + 1)).1 (vertex (i + 1)).2) col)

/-- 45_graphics_bitmap_text.md R215, R216, 60_exceptions.md R269: the set bits of the bitmap are painted, the most significant
bit of a byte the leftmost, rows padded to whole bytes; unset bits and padding leave the destination alone. As far as the bitmap
can be read, and wherever it lies, the front instance itself included (20_memory.md R63): pixel after pixel, row by row, the byte
is read as it then stands, and a set bit is a `SetPixel`; at a byte that cannot be read the command stops. For a bitmap that lies
aside of the front instance the bits are those that stood before. -/
def Obligations.DrawBitmapPaintsSetBits : Prop :=
  ∀ (s : State) (x y w h : Byte) (bitmap : Word) (col : Colour), s.drawable → Memory.wf s.mem = true →
    (s.readableAside bitmap.toNat (h.toNat * ((w.toNat + 7) / 8)) →
      ∃ t, exec (.drawBitmap x y w h bitmap col) s = .next t ∧
        Painted s t (fun a b => ∃ i j : Nat, i < w.toNat ∧ j < h.toNat ∧ a = coord x + i ∧ b = coord y + j ∧
          (Memory.read s.mem (bitmap.toNat + j * ((w.toNat + 7) / 8) + i / 8)).getLsbD (7 - i % 8) = true) col) ∧
    let column := fun n => n % w.toNat
    let row := fun n => n / w.toNat
    let byteAt := fun n => bitmap.toNat + row n * ((w.toNat + 7) / 8) + column n / 8
    ∀ n, n ≤ h.toNat * w.toNat → (∀ m, m < n → mapped s.cfg (byteAt m) 1 = true) →
      ∃ u : Nat → State, u 0 = s ∧
        (∀ m, m < n → u (m + 1) = if (Memory.read (u m).mem (byteAt m)).getLsbD (7 - column m % 8) = true then
          setPixel (u m) (coord x + (column m : Int)) (coord y + (row m : Int)) col else u m) ∧
        (n = h.toNat * w.toNat → exec (.drawBitmap x y w h bitmap col) s = .next { u n with result := 0 }) ∧
        (n < h.toNat * w.toNat → mapped s.cfg (byteAt n) 1 = false → exec (.drawBitmap x y w h bitmap col) s =
          .next { u n with result := 0x0007, faultBits := s.faultBits ||| 0x10 })

/-- 42_framebuffer.md R166: with the corners out of order or off the panel, `ERR_BOUNDS` and nothing else; else every pixel of
the box is flipped, both corners included, and nothing else changes. -/
def Obligations.InvertRectangleFlipsTheBox : Prop :=
  ∀ (s : State) (x1 y1 x2 y2 : Byte), s.drawable → Memory.wf s.mem = true →
    (¬ (x1 ≤ x2 ∧ y1 ≤ y2 ∧ x2.toNat < s.cfg.w ∧ y2.toNat < s.cfg.h) →
      exec (.invertRectangle x1 y1 x2 y2) s = .next { s with result := 0x0001 }) ∧
    (x1 ≤ x2 ∧ y1 ≤ y2 ∧ x2.toNat < s.cfg.w ∧ y2.toNat < s.cfg.h →
      ∃ t, exec (.invertRectangle x1 y1 x2 y2) s = .next t ∧
        (∀ x y : Nat, x < s.cfg.w → y < s.cfg.h →
          t.pixel x y = (s.pixel x y ^^ decide (x1.toNat ≤ x ∧ x ≤ x2.toNat ∧ y1.toNat ≤ y ∧ y ≤ y2.toNat))) ∧
        (∀ a, ¬ s.inFront a → Memory.read t.mem a = Memory.read s.mem a) ∧
        t = { s with mem := t.mem, dirty := true, result := 0 })

/-- 42_framebuffer.md R167: the page form of the invert under the direct mapping. Byte `page * W + x` of a column of the box
is XORed with the top mask on the first page and the bottom mask on the last, with both when they are one page, with 0xFF in
between, and every other byte of the buffer is unchanged. -/
def Obligations.InvertRectanglePageForm : Prop :=
  ∀ (s t : State) (x1 y1 x2 y2 : Byte), s.drawable → Memory.wf s.mem = true → s.mapMode = false →
    x1 ≤ x2 → y1 ≤ y2 → x2.toNat < s.cfg.w → y2.toNat < s.cfg.h →
    exec (.invertRectangle x1 y1 x2 y2) s = .next t →
    let top : Byte := 0xFF#8 <<< (y1.toNat % 8)
    let bot : Byte := 0xFF#8 >>> (7 - y2.toNat % 8)
    ∀ page x : Nat, page < s.cfg.pages → x < s.cfg.w →
      Memory.read t.mem (s.frontBase + (page * s.cfg.w + x)) = Memory.read s.mem (s.frontBase + (page * s.cfg.w + x)) ^^^
        (if x < x1.toNat ∨ x2.toNat < x ∨ page < y1.toNat / 8 ∨ y2.toNat / 8 < page then 0
        else (if page = y1.toNat / 8 then top else 0xFF) &&& (if page = y2.toNat / 8 then bot else 0xFF))

/-- 42_framebuffer.md R171: the same invert twice restores the memory, whatever the operands and the mapping. -/
def Obligations.InvertTwiceRestores : Prop :=
  ∀ (s : State) (x1 y1 x2 y2 : Byte), Memory.wf s.mem = true →
    ∃ t u, exec (.invertRectangle x1 y1 x2 y2) s = .next t ∧ exec (.invertRectangle x1 y1 x2 y2) t = .next u ∧
      u.mem = s.mem

/-- 42_framebuffer.md R165: `FILL` gives every byte of the front instance the one value, under both mappings, and every other
byte reads as before. -/
def Obligations.FillWritesEveryByte : Prop :=
  ∀ (s : State) (col : Colour), s.drawable → Memory.wf s.mem = true →
    ∃ t, exec (.fill col) s = .next t ∧
      (∀ k, k < s.cfg.fbBytes → Memory.read t.mem (s.frontBase + k) = if col = .white then 0xFF else 0x00) ∧
      (∀ a, ¬ s.inFront a → Memory.read t.mem a = Memory.read s.mem a) ∧
      t = { s with mem := t.mem, dirty := true, result := 0 }

/-- 42_framebuffer.md R168: with too long a length, `ERR_BOUNDS` and nothing else; else the bytes of a source that can be read
are copied one by one to the start of the front instance, and no other byte changes. A source that lies aside is copied as it
stood; of one that overlaps the front instance (20_memory.md R63) a byte that the copy has already written is read as written. -/
def Obligations.LoadBufferCopies : Prop :=
  ∀ (s : State) (src len : Word), s.drawable → Memory.wf s.mem = true →
    (s.cfg.fbBytes < len.toNat → exec (.loadBuffer src len) s = .next { s with result := 0x0001 }) ∧
    (len.toNat ≤ s.cfg.fbBytes → s.readable src.toNat len.toNat →
      ∃ t, exec (.loadBuffer src len) s = .next t ∧
        (s.readableAside src.toNat len.toNat →
          ∀ j, j < len.toNat → Memory.read t.mem (s.frontBase + j) = Memory.read s.mem (src.toNat + j)) ∧
        (∀ j, j < len.toNat → Memory.read t.mem (s.frontBase + j) =
          if s.frontBase ≤ src.toNat + j ∧ src.toNat + j < s.frontBase + j then Memory.read t.mem (src.toNat + j)
          else Memory.read s.mem (src.toNat + j)) ∧
        (∀ a, (a < s.frontBase ∨ s.frontBase + len.toNat ≤ a) → Memory.read t.mem a = Memory.read s.mem a) ∧
        t = { s with mem := t.mem, dirty := s.dirty || decide (len ≠ 0), result := 0 })

/-- 60_exceptions.md R269, for the three commands that read a list: the command stops at the first byte that is not mapped,
every write before it stays and nothing after it happens. `j` bytes of the source of `LOAD_BUFFER` can be read and the next
cannot, a byte that the copy has already written being read as written; `k` vertices of `DRAW_POLYLINE` can be read, and of the
next the x byte, or the y byte after it, cannot; `n` bytes of the bitmap of `DRAW_BITMAP` can be read and the next, at the start
of a row or inside it, cannot. -/
def Obligations.MemFaultKeepsTheWritesBeforeIt : Prop :=
  ∀ s : State, s.drawable → Memory.wf s.mem = true →
    (∀ (src len : Word) (j : Nat), len.toNat ≤ s.cfg.fbBytes → j < len.toNat → s.readable src.toNat j →
      mapped s.cfg (src.toNat + j) 1 = false →
      ∃ t, exec (.loadBuffer src len) s = .next t ∧
        (∀ i, i < j → Memory.read t.mem (s.frontBase + i) =
          if s.frontBase ≤ src.toNat + i ∧ src.toNat + i < s.frontBase + i then Memory.read t.mem (src.toNat + i)
          else Memory.read s.mem (src.toNat + i)) ∧
        (∀ a, (a < s.frontBase ∨ s.frontBase + j ≤ a) → Memory.read t.mem a = Memory.read s.mem a) ∧
        t = { s with
          mem := t.mem, dirty := s.dirty || decide (j ≠ 0), result := 0x0007, faultBits := s.faultBits ||| 0x10 }) ∧
    (∀ (verts count : Word) (col : Colour) (k : Nat), verts ≠ 0 → k < count.toNat → s.readableAside verts.toNat (2 * k) →
      (mapped s.cfg (verts.toNat + 2 * k) 1 = false ∨ mapped s.cfg (verts.toNat + 2 * k + 1) 1 = false) →
      let vertex := fun i => (((Memory.read s.mem (verts.toNat + 2 * i)).toNat : Int),
        ((Memory.read s.mem (verts.toNat + 2 * i + 1)).toNat : Int))
      ∃ t, Painted s t (fun a b => ∃ i, i + 1 < k ∧
          (a, b) ∈ linePoints (vertex i).1 (vertex i).2 (vertex (i + 1)).1 (vertex (i + 1)).2) col ∧
        exec (.drawPolyline verts count col) s =
          .next { t with result := 0x0007, faultBits := s.faultBits ||| 0x10 }) ∧
    ∀ (x y w h : Byte) (bitmap : Word) (col : Colour) (n : Nat), n < h.toNat * ((w.toNat + 7) / 8) →
      s.readableAside bitmap.toNat n → mapped s.cfg (bitmap.toNat + n) 1 = false →
      ∃ t, Painted s t (fun a b => ∃ i j : Nat, i < w.toNat ∧ j < h.toNat ∧ j * ((w.toNat + 7) / 8) + i / 8 < n ∧
          a = coord x + i ∧ b = coord y + j ∧
          (Memory.read s.mem (bitmap.toNat + j * ((w.toNat + 7) / 8) + i / 8)).getLsbD (7 - i % 8) = true) col ∧
        exec (.drawBitmap x y w h bitmap col) s =
          .next { t with result := 0x0007, faultBits := s.faultBits ||| 0x10 }

/-! ### Text -/

/-- 45_graphics_bitmap_text.md R217: `SET_CURSOR` stores its operands as given, in every state, in flight or not, and writes
nothing else but `RESULT`. -/
def Obligations.SetCursorStoresItsOperands : Prop :=
  ∀ (s : State) (x y : Byte), exec (.setCursor x y) s =
    .next { s with cursorX := BitVec.ofNat 16 x.toNat, cursorY := BitVec.ofNat 16 y.toNat, result := 0 }

/-- 45_graphics_bitmap_text.md R221, R223 (1): a character that is not printable ASCII, or whose cell would cross the right or
the bottom edge, is rejected, and nothing but `RESULT` changes; where the width, or the first glyph row, of a character that would
be drawn cannot be read, `MemFault` before anything is drawn; where a later row cannot be read, the rows before it stay drawn
(60_exceptions.md R269), and the cursor stays. -/
def Obligations.WriteCharRejects : Prop :=
  ∀ (s : State) (ch : Byte) (col : Colour), s.drawable →
    (ch.toNat < 32 ∨ 126 < ch.toNat → exec (.writeChar ch col) s = .next { s with result := 0x0002 }) ∧
    (32 ≤ ch.toNat → ch.toNat ≤ 126 →
      (∀ gw, s.glyphWidthIs ch gw → ¬ s.cellFits gw → exec (.writeChar ch col) s = .next { s with result := 0x0002 }) ∧
      (s.cfg.fontWidths ≠ 0 → mapped s.cfg (s.cfg.fontWidths.toNat + (ch.toNat - 32)) 1 = false →
        exec (.writeChar ch col) s = .next { s with result := 0x0007, faultBits := s.faultBits ||| 0x10 }) ∧
      (∀ gw, s.glyphWidthIs ch gw → s.cellFits gw → mapped s.cfg (glyphRowAddr s.cfg (ch.toNat - 32) 0) 2 = false →
        exec (.writeChar ch col) s = .next { s with result := 0x0007, faultBits := s.faultBits ||| 0x10 }) ∧
      ∀ gw n, Memory.wf s.mem = true → s.glyphWidthIs ch gw → s.cellFits gw → n < s.cfg.fontH →
        (∀ i, i < n → mapped s.cfg (glyphRowAddr s.cfg (ch.toNat - 32) i) 2 = true ∧
          ¬ s.inFront (glyphRowAddr s.cfg (ch.toNat - 32) i) ∧ ¬ s.inFront (glyphRowAddr s.cfg (ch.toNat - 32) i + 1)) →
        mapped s.cfg (glyphRowAddr s.cfg (ch.toNat - 32) n) 2 = false →
        ∃ t, exec (.writeChar ch col) s = .next t ∧
          (∀ i j, i < n → j < gw → t.pixel (s.cursorX.toNat + j) (s.cursorY.toNat + i) =
            if s.glyphSet ch i j then col.bit
            else if s.cfg.glyphOpaque then col.other.bit
            else s.pixel (s.cursorX.toNat + j) (s.cursorY.toNat + i)) ∧
          (∀ x y, x < s.cfg.w → y < s.cfg.h → (x < s.cursorX.toNat ∨ s.cursorX.toNat + gw ≤ x ∨ y < s.cursorY.toNat ∨
            s.cursorY.toNat + n ≤ y) → t.pixel x y = s.pixel x y) ∧
          (∀ a, ¬ s.inFront a → Memory.read t.mem a = Memory.read s.mem a) ∧
          (t.dirty = true ↔ s.dirty = true ∨
            ∃ i j, i < n ∧ j < gw ∧ (s.glyphSet ch i j = true ∨ s.cfg.glyphOpaque = true)) ∧
          t = { s with mem := t.mem, dirty := t.dirty, result := 0x0007, faultBits := s.faultBits ||| 0x10 })

/-- 45_graphics_bitmap_text.md R219 to R221, R223 (3), 60_exceptions.md R269: a printable character whose cell fits is drawn.
As far as the glyph can be read, and wherever it lies, the front instance itself included (20_memory.md R63): row by row, each
row's word is read when the rows before it are drawn; after the last row the cursor moves right by the width, at a row that
cannot be read the command stops. From a glyph that lies aside of the front instance: a set bit in the colour, an unset one in
the other colour if the glyph is opaque and else left alone, every pixel outside the cell as before. -/
def Obligations.WriteCharDrawsItsCell : Prop :=
  ∀ (s : State) (ch : Byte) (col : Colour) (gw : Nat), s.drawable → Memory.wf s.mem = true →
    32 ≤ ch.toNat → ch.toNat ≤ 126 → s.glyphWidthIs ch gw → s.cellFits gw →
    (∀ n, n ≤ s.cfg.fontH → (∀ i, i < n → mapped s.cfg (glyphRowAddr s.cfg (ch.toNat - 32) i) 2 = true) →
      ∃ u : Nat → State, u 0 = s ∧ (∀ i, i < n → u (i + 1) = (u i).glyphRowDrawn ch col gw i) ∧
        (n = s.cfg.fontH → exec (.writeChar ch col) s =
          .next { u n with cursorX := BitVec.ofNat 16 (s.cursorX.toNat + gw), result := ch ++ 0#8 }) ∧
        (n < s.cfg.fontH → mapped s.cfg (glyphRowAddr s.cfg (ch.toNat - 32) n) 2 = false → exec (.writeChar ch col) s =
          .next { u n with result := 0x0007, faultBits := s.faultBits ||| 0x10 })) ∧
    ((∀ i, i < s.cfg.fontH → mapped s.cfg (glyphRowAddr s.cfg (ch.toNat - 32) i) 2 = true ∧
      ¬ s.inFront (glyphRowAddr s.cfg (ch.toNat - 32) i) ∧ ¬ s.inFront (glyphRowAddr s.cfg (ch.toNat - 32) i + 1)) →
    ∃ t, exec (.writeChar ch col) s = .next t ∧
      (∀ i j, i < s.cfg.fontH → j < gw → t.pixel (s.cursorX.toNat + j) (s.cursorY.toNat + i) =
        if s.glyphSet ch i j then col.bit
        else if s.cfg.glyphOpaque then col.other.bit
        else s.pixel (s.cursorX.toNat + j) (s.cursorY.toNat + i)) ∧
      (∀ x y, x < s.cfg.w → y < s.cfg.h → (x < s.cursorX.toNat ∨ s.cursorX.toNat + gw ≤ x ∨ y < s.cursorY.toNat ∨
        s.cursorY.toNat + s.cfg.fontH ≤ y) → t.pixel x y = s.pixel x y) ∧
      (∀ a, ¬ s.inFront a → Memory.read t.mem a = Memory.read s.mem a) ∧
      (t.dirty = true ↔ s.dirty = true ∨
        ∃ i j, i < s.cfg.fontH ∧ j < gw ∧ (s.glyphSet ch i j = true ∨ s.cfg.glyphOpaque = true)) ∧
      t = { s with mem := t.mem, dirty := t.dirty, cursorX := BitVec.ofNat 16 (s.cursorX.toNat + gw), result := ch ++ 0#8 })

/-- 45_graphics_bitmap_text.md R222: one character of `WRITE_STRING`. A byte that cannot be read is a `MemFault`; the
terminator ends the string with `OK`; any other byte is drawn as `WRITE_CHAR` draws it, and then: refused, the command ends and
reports it; stopped by a `MemFault`, so is the string; drawn, the string goes on at the next address, and past the last
address of the space there is nothing to read. -/
def Obligations.WriteStringGoesByCharacters : Prop :=
  ∀ (s : State) (p : Word) (col : Colour), s.drawable →
    (mapped s.cfg p.toNat 1 = false →
      exec (.writeString p col) s = .next { s with result := 0x0007, faultBits := s.faultBits ||| 0x10 }) ∧
    (mapped s.cfg p.toNat 1 = true →
      (Memory.read s.mem p.toNat = 0 → exec (.writeString p col) s = .next { s with result := 0 }) ∧
      (Memory.read s.mem p.toNat ≠ 0 →
        ∀ u, exec (.writeChar (Memory.read s.mem p.toNat) col) s = .next u →
          (u.result.setWidth 8 = Status.errReject.code →
            exec (.writeString p col) s = .next { u with result := Memory.read s.mem p.toNat ++ 0x02#8 }) ∧
          (u.result.setWidth 8 = Status.errMem.code → exec (.writeString p col) s = .next u) ∧
          (u.result.setWidth 8 = Status.ok.code → p ≠ 0xFFFFFFFF →
            exec (.writeString p col) s = exec (.writeString (p + 1) col) u) ∧
          (u.result.setWidth 8 = Status.ok.code → p = 0xFFFFFFFF →
            exec (.writeString p col) s = .next { u with result := 0x0007, faultBits := u.faultBits ||| 0x10 })))

/-- 45_graphics_bitmap_text.md R222, R223 (4): a string that can be read and lies aside of the front instance has the effect of
`WRITE_CHAR` of its characters in order, up to the terminator, or up to and including the first one refused, which is
reported. -/
def Obligations.WriteStringIsItsCharacters : Prop :=
  ∀ (s t : State) (p : Word) (col : Colour) (chars : List Byte), s.drawable →
    s.readableAside p.toNat (chars.length + 1) →
    (∀ i ch, chars[i]? = some ch → ch ≠ 0 ∧ Memory.read s.mem (p.toNat + i) = ch) →
    drawsEach col chars s t →
    (Memory.read s.mem (p.toNat + chars.length) = 0 → exec (.writeString p col) s = .next { t with result := 0 }) ∧
    ∀ ch u, ch ≠ 0 → Memory.read s.mem (p.toNat + chars.length) = ch → exec (.writeChar ch col) t = .next u →
      u.result.setWidth 8 = Status.errReject.code → exec (.writeString p col) s = .next { u with result := ch ++ 0x02#8 }

/-- 45_graphics_bitmap_text.md R223 (2), 10_state.md R24: no character command moves the cursor past the right edge of the
panel, left of where it was, or to another row. -/
def Obligations.TextKeepsTheCursorOnItsRow : Prop :=
  ∀ (s t : State) (i : Instr), i.isWriteChar = true ∨ i.isWriteString = true → exec i s = .next t →
    t.cursorX.toNat ≤ max s.cfg.w s.cursorX.toNat ∧ s.cursorX.toNat ≤ t.cursorX.toNat ∧ t.cursorY = s.cursorY

/-! ### Transfers -/

/-- 40_transfer_engine.md R121 to R124: `BEGIN_TRANSFER` with nothing in flight sets the whole context, puts the transfer
in flight and issues its first chunk, its range unchecked; a zero-length transfer completes in the command's own step, with
success, and issues nothing. -/
def Obligations.BeginTransferStartsOrCompletes : Prop :=
  ∀ (s : State) (a : Byte) (b n : Word), s.xferInFlight = false →
    (n ≠ 0 →
      let first : Chunk := ⟨.first, a.setWidth 7, b, BitVec.ofNat 8 (min 255 n.toNat), decide (n.toNat ≤ 255)⟩
      exec (.beginTransfer a b n) s = .next { s with
        xferAddr := a.setWidth 7, xferSrc := b, xferLen := n, xferDone := 0, xferOwner := .host, xferInFlight := true,
        xferChunk := BitVec.ofNat 8 (min 255 n.toNat), busPending := some first, chunkLog := s.chunkLog ++ [first],
        result := 0 }) ∧
    exec (.beginTransfer a b 0) s = .next { s with
      xferAddr := a.setWidth 7, xferSrc := b, xferLen := 0, xferDone := 0, xferOwner := .host, xferChunk := 0,
      lastOk := true, cbLog := s.cbLog ++ [⟨.host, true⟩], result := 0 }

/-- 40_transfer_engine.md R125, R126, R129, 46_session.md R247: the sequencer's step on `ChunkDone`. With more to send it counts
the chunk and issues the next; with nothing more it ends the transfer and the completion reports success, and for a sync swaps
the buffers of a double-buffered instance, clears `DIRTY` and returns to `Idle`, all in the one step. -/
def Obligations.ChunkDoneStep : Prop :=
  ∀ s : State, s.busEvent = some .chunkDone → s.xferInFlight = true → s.xferChunk ≠ 0 →
    (s.xferDone.toNat + s.xferChunk.toNat < s.xferLen.toNat →
      let done := s.xferDone.toNat + s.xferChunk.toNat
      let size := min 255 (s.xferLen.toNat - done)
      let next : Chunk := ⟨.continued, s.xferAddr, s.xferSrc + BitVec.ofNat 32 done, BitVec.ofNat 8 size,
        decide (done + size = s.xferLen.toNat)⟩
      sequencerStep s = { s with
        busEvent := none, xferDone := BitVec.ofNat 32 done, xferChunk := BitVec.ofNat 8 size, busPending := some next,
        chunkLog := s.chunkLog ++ [next] }) ∧
    (s.xferDone.toNat + s.xferChunk.toNat = s.xferLen.toNat →
      (s.xferOwner = .host → sequencerStep s = { s with
        busEvent := none, xferDone := s.xferLen, xferChunk := 0, xferInFlight := false, lastOk := true,
        cbLog := s.cbLog ++ [⟨.host, true⟩] }) ∧
      (s.xferOwner = .session → sequencerStep s = { s with
        busEvent := none, xferDone := s.xferLen, xferChunk := 0, xferInFlight := false, lastOk := true,
        cbLog := s.cbLog ++ [⟨.session, true⟩],
        front := if s.cfg.doubleBuffered then !s.front else s.front, dirty := false, sstate := .idle }))

/-- 40_transfer_engine.md R127, R128, R129, 46_session.md R248: the sequencer's step on `XferError` ends the transfer, keeps
`XFER.DONE`, reports failure, and for a sync returns to `Idle` without a swap and with `DIRTY` as it was; an event with nothing
in flight is cleared and ignored (R128). That a turn of the sequencer with no event latched changes nothing is the model's choice
(log 7). -/
def Obligations.XferErrorStep : Prop :=
  ∀ s : State,
    (s.busEvent = some .xferError → s.xferInFlight = true →
      (s.xferOwner = .host → sequencerStep s = { s with
        busEvent := none, xferChunk := 0, xferInFlight := false, lastOk := false,
        cbLog := s.cbLog ++ [⟨.host, false⟩] }) ∧
      (s.xferOwner = .session → sequencerStep s = { s with
        busEvent := none, xferChunk := 0, xferInFlight := false, lastOk := false,
        cbLog := s.cbLog ++ [⟨.session, false⟩], sstate := .idle })) ∧
    (s.xferInFlight = false → sequencerStep s = { s with busEvent := none }) ∧
    (s.busEvent = none → sequencerStep s = s)

/-- 41_bus_abstraction.md R142 to R144: the bus agent's answer with success, enabled when the chunk's range is mapped and no
event is latched: its events on the wire, its bytes read now, on I2C the transaction opened by `First` and closed by the final
chunk. That a turn of the bus agent changes nothing when its answer is not enabled is the model's choice (log 7). -/
def Obligations.BusDeliversAMappedChunk : Prop :=
  ∀ (s : State) (kind : ChunkKind) (addr : BitVec 7) (src : Word) (len : Byte) (isFinal : Bool),
    (s.busPending = some ⟨kind, addr, src, len, isFinal⟩ → s.busEvent = none → mapped s.cfg src.toNat len.toNat = true →
      (s.cfg.bus = .i2c → busSuccessStep s = { s with
        busLog := s.busLog ++ [if kind = .first then .start addr else .restart addr] ++
          ((List.range len.toNat).map fun j => .data (Memory.read s.mem (src.toNat + j))) ++ (if isFinal then [.stop] else []),
        busOpen := if isFinal then false else if kind = .first then true else s.busOpen,
        busPending := none, busEvent := some .chunkDone }) ∧
      (s.cfg.bus = .spi → busSuccessStep s = { s with
        busLog := s.busLog ++ (List.range len.toNat).map fun j => .data (Memory.read s.mem (src.toNat + j)),
        busPending := none, busEvent := some .chunkDone })) ∧
    (s.busPending = some ⟨kind, addr, src, len, isFinal⟩ → mapped s.cfg src.toNat len.toNat = false →
      busSuccessStep s = s) ∧
    (s.busPending = none ∨ s.busEvent ≠ none → busSuccessStep s = s)

/-- 41_bus_abstraction.md R145, R147, 93_implementation_defined.md U4: the bus agent's answer with an error after `k` bytes, for
every prefix `k` of the chunk that is mapped, whether or not the whole chunk is: `Start` or `Restart` on I2C, the bytes that got
out, `Abort`, the transaction closed, `XferError` latched. R145 chooses `k` below the length and U4 up to it; that the model has
the choice `k = len` too is its reading of the two (log 12). -/
def Obligations.BusFailsAChunk : Prop :=
  ∀ (s : State) (kind : ChunkKind) (addr : BitVec 7) (src : Word) (len : Byte) (isFinal : Bool) (k : Nat),
    s.busPending = some ⟨kind, addr, src, len, isFinal⟩ → s.busEvent = none → k ≤ len.toNat →
    mapped s.cfg src.toNat k = true →
    busErrorStep k s = { s with
      busLog := s.busLog ++ (match s.cfg.bus with
          | .i2c => [if kind = .first then .start addr else .restart addr]
          | .spi => []) ++
        ((List.range k).map fun j => .data (Memory.read s.mem (src.toNat + j))) ++ [.abort],
      busOpen := false, busPending := none, busEvent := some .xferError }

/-- 10_state.md R45, R50, 40_transfer_engine.md R132, 46_session.md R251: a transfer under every interleaving. The state after
its start is a state of the transfer; a step of any agent, the host's commands among them, that leaves it in flight keeps it
one: the source bytes are those of the start, the chunks are issued in offset order, and the wire carries their bytes; the
step that ends it with success has issued every chunk, sent every byte, and reported it. -/
def Obligations.TransferProceedsChunkByChunk : Prop :=
  (∀ s : State, s.Inv → s.xferInFlight = true → s.xferDone = 0 → s.busEvent = none → TransferProgress s s) ∧
  ∀ start s t : State, s.Inv → TransferProgress start s → step s = .next t →
    (t.xferInFlight = true → TransferProgress start t) ∧
    (t.xferInFlight = false → t.lastOk = true →
      t.xferDone = start.xferLen ∧
      t.chunkLog = start.chunkLog ++ (List.range (chunkCount start.xferLen - 1)).map (fun j =>
        chunkAt start.xferAddr start.xferSrc start.xferLen (j + 1)) ∧
      t.busLog = start.busLog ++ (List.range (chunkCount start.xferLen)).flatMap (fun j =>
        chunkWire start.cfg start.mem (chunkAt start.xferAddr start.xferSrc start.xferLen j)) ∧
      t.cbLog = s.cbLog ++ [⟨start.xferOwner, true⟩])

/-- 40_transfer_engine.md R132: the chunk sizes sum to the length, each between 1 and 255, all but the last 255, only the first
opens the transaction and only the last is final, and chunk `j` starts at offset `255 * j`. -/
def Obligations.ChunkSizesSumToTheLength : Prop :=
  ∀ (addr : BitVec 7) (src len : Word),
    ((List.range (chunkCount len)).map fun j => (chunkAt addr src len j).len.toNat).sum = len.toNat ∧
    ∀ j, j < chunkCount len →
      1 ≤ (chunkAt addr src len j).len.toNat ∧ (chunkAt addr src len j).len.toNat ≤ 255 ∧
      (j + 1 < chunkCount len → (chunkAt addr src len j).len.toNat = 255) ∧
      ((chunkAt addr src len j).isFinal = true ↔ j + 1 = chunkCount len) ∧
      ((chunkAt addr src len j).kind = .first ↔ j = 0) ∧
      (chunkAt addr src len j).src = src + BitVec.ofNat 32 (255 * j)

/-- 41_bus_abstraction.md R146, 40_transfer_engine.md R130: with a bus that may not stall, named here, a transfer in flight that
the host leaves alone ends within two steps for each chunk still to come, with success or failure, under the model's fair
default (log 8). -/
def Obligations.TransferEndsWhenTheBusMayNotStall : Prop :=
  ∀ s : State, s.Inv → s.cfg.busMayStall = false → s.turns = [] → s.xferInFlight = true →
    ∃ k t, k ≤ 2 * chunkCount (s.xferLen - s.xferDone) ∧ Host.Core.run core k s = .next t ∧ t.xferInFlight = false ∧
      ∃ ok, t.cbLog = s.cbLog ++ [⟨s.xferOwner, ok⟩] ∧ t.lastOk = ok

/-! ### Session -/

/-- 46_session.md R236 to R238: `INIT` with nothing in flight pulses the reset line, sends the seventeen display commands in
order, and sets the five registers; neither the framebuffers, `FRONT`, `DIRTY`, the cursor, `LAST_OK` nor `FAULT` change. -/
def Obligations.InitRunsTheBringUp : Prop :=
  ∀ (s : State) (mode : Byte), s.xferInFlight = false →
    let c := s.cfg
    let sent : List (Byte × Option Byte) :=
      [(0xAE, none), (0xD5, some 0xA0), (0xA8, some (BitVec.ofNat 8 (c.h - 1))), (0xD3, some 0x00), (0x40, none),
        (c.chargePumpOp, some c.chargePumpArg), (0x20, some c.addrModeArg), (if c.mirrorH then 0xA0 else 0xA1, none),
        (if c.mirrorV then 0xC0 else 0xC8, none), (0xDA, some 0x12), (0x81, some c.contrastInit),
        (0xD9, some c.prechargeArg), (0xDB, some c.vcomArg), (0x2E, none), (0xA4, none), (0xA6, none), (0xAF, none)]
    exec (.init mode) s = .next { s with
      mapMode := mode.getLsbD 0, sstate := .idle, contrast := c.contrastInit, displayOn := true,
      cmdLog := s.cmdLog ++ [.resetLine true, .delayMs c.tResetMs, .resetLine false, .delayMs c.tBootMs] ++
        sent.map (fun d => .cmd d.1 d.2),
      busLog := s.busLog ++ sent.flatMap (fun d => commandWire c ⟨d.1, d.2⟩),
      busDC := if c.bus = .spi then .data else s.busDC, result := 0 }

/-- 46_session.md R239, R240, 41_bus_abstraction.md R149 to R151: the two run-time display commands with nothing in flight, on
I2C as one transaction that begins with the control byte 0x00, on SPI as the bytes between two moves of the select line. -/
def Obligations.DisplayCommandsOnTheWire : Prop :=
  ∀ (s : State) (v : Byte), s.xferInFlight = false →
    let onOff : Byte := if v.getLsbD 0 then 0xAF else 0xAE
    (s.cfg.bus = .i2c →
      exec (.setDisplayOn v) s = .next { s with
        displayOn := v.getLsbD 0, cmdLog := s.cmdLog ++ [.cmd onOff none],
        busLog := s.busLog ++ [.start s.cfg.devAddr, .data 0x00, .data onOff, .stop], result := 0 } ∧
      exec (.setContrast v) s = .next { s with
        contrast := v, cmdLog := s.cmdLog ++ [.cmd 0x81 (some v)],
        busLog := s.busLog ++ [.start s.cfg.devAddr, .data 0x00, .data 0x81, .data v, .stop], result := 0 }) ∧
    (s.cfg.bus = .spi →
      exec (.setDisplayOn v) s = .next { s with
        displayOn := v.getLsbD 0, cmdLog := s.cmdLog ++ [.cmd onOff none],
        busLog := s.busLog ++ [.dc .cmd, .data onOff, .dc .data], busDC := .data, result := 0 } ∧
      exec (.setContrast v) s = .next { s with
        contrast := v, cmdLog := s.cmdLog ++ [.cmd 0x81 (some v)],
        busLog := s.busLog ++ [.dc .cmd, .data 0x81, .data v, .dc .data], busDC := .data, result := 0 })

/-- 46_session.md R241 to R243, R246: `UPDATE_SCREEN` in each state of the session. `gate` is the display on, nothing in
flight, and a dirty buffer where the instance tracks it. -/
def Obligations.UpdateScreenByState : Prop :=
  ∀ s : State,
    let gate := s.displayOn = true ∧ s.xferInFlight = false ∧ (s.cfg.dirtyTracking = true → s.dirty = true)
    (s.sstate = .uninitialized ∨ s.sstate = .initializing →
      exec .updateScreen s = .next { s with result := 0x0004 }) ∧
    (s.sstate = .syncInFlight → exec .updateScreen s = .next { s with result := 0x0003 }) ∧
    (s.sstate = .idle ∨ s.sstate = .syncPending →
      (gate → exec .updateScreen s = .next { s.syncBegun with result := 0 }) ∧
      (¬ gate → exec .updateScreen s = .next { s with sstate := .syncPending, result := 0 }))

/-- 46_session.md R243 to R246: the tick makes a request in `Idle` of a continuously refreshed instance and does nothing else; the
deferred start begins a pending sync when the gate is open and does nothing else; neither writes `RESULT` or `FAULT`. That a tick
with `CONTINUOUS_REFRESH = 0` and a deferred start that is not enabled change nothing is the model's choice (log 7). -/
def Obligations.TickAndDeferredStart : Prop :=
  ∀ s : State,
    let gate := s.displayOn = true ∧ s.xferInFlight = false ∧ (s.cfg.dirtyTracking = true → s.dirty = true)
    (s.cfg.continuousRefresh = true → s.sstate = .idle → tickStep s = { s with sstate := .syncPending }) ∧
    (s.cfg.continuousRefresh = false ∨ s.sstate ≠ .idle → tickStep s = s) ∧
    (s.sstate = .syncPending → gate → deferredStart s = s.syncBegun) ∧
    (s.sstate ≠ .syncPending ∨ ¬ gate → deferredStart s = s)

/-! ### Read ports -/

/-- 10_state.md R38 to R42, 20_memory.md R84: the registers as the host reads them, bit by bit; registers 4 to 7 are
unspecified in flight, any value the port returns then; numbers 8 and above read as 0; the memory port gives the byte at a
mapped address. A read through either port has no side effect on the machine: it changes the model's own `portData` and counter
alone (log 9, 10). -/
def Obligations.ReadPortsShowTheState : Prop :=
  (∀ (s : State) (free : Word),
    (let status := s.readRegister free 0;
      (status.getLsbD 0 = s.xferInFlight ∧ status.getLsbD 1 = s.dirty ∧ status.getLsbD 2 = s.displayOn ∧
        status.getLsbD 3 = (s.cfg.doubleBuffered && s.front) ∧ status.getLsbD 4 = s.lastOk ∧
        status.getLsbD 5 = s.mapMode ∧ status.getLsbD 6 = decide (s.xferOwner = .session) ∧ status.getLsbD 7 = false) ∧
      (status.extractLsb' 8 3).toNat = (match s.sstate with
        | .uninitialized => 0 | .initializing => 1 | .idle => 2 | .syncPending => 3 | .syncInFlight => 4) ∧
      status.extractLsb' 11 5 = 0 ∧ status.extractLsb' 16 8 = s.contrast ∧ status.extractLsb' 24 8 = 0) ∧
    s.readRegister free 1 = s.result.setWidth 32 ∧
    s.readRegister free 2 = (s.faultBits &&& 0x1F).setWidth 32 ∧
    s.readRegister free 3 = s.cursorY ++ s.cursorX ∧
    (s.xferInFlight = false →
      s.readRegister free 4 = s.xferSrc ∧ s.readRegister free 5 = s.xferLen ∧ s.readRegister free 6 = s.xferDone ∧
      s.readRegister free 7 = 0#16 ++ s.xferChunk ++ 0#1 ++ s.xferAddr) ∧
    (s.xferInFlight = true → ∀ n, 4 ≤ n → n ≤ 7 → s.readRegister free n = free) ∧
    ∀ n, 8 ≤ n → s.readRegister free n = 0) ∧
  ∀ (s : State) (rest : List Turn),
    (∀ n, s.turns = .readRegister n :: rest → ∃ free,
      step s = .next { s with turns := rest, portData := s.readRegister free n, draws := s.draws + 1 }) ∧
    ∀ a, s.turns = .readMemory a :: rest → ∃ v : Byte,
      step s = .next { s with turns := rest, portData := v.setWidth 32, draws := s.draws + 1 } ∧
      (mapped s.cfg a.toNat 1 = true → v = Memory.read s.mem a.toNat)
end

