-- ==== Sys2Proof/Laws/Assembly.lean ====
section
/-! SUPPORT. Laws of the assembler (spec/30_encoding.md R101, R102): numerals that fit, the colour words, and operands
separated by commas. -/

namespace Sys2Proof

theorem fit_toNat {bits w : Nat} (v : BitVec w) (h : v.toNat < 2 ^ bits) : fit bits w v.toNat = some v := by
  simp [fit, h]

theorem fit_full {w : Nat} (v : BitVec w) : fit w w v.toNat = some v := fit_toNat v v.isLt

@[simp] theorem colourWord_word (col : Colour) : colourWord col.word = some col := by cases col <;> rfl

theorem word_ne_comma (col : Colour) : col.word ≠ .comma := by cases col <;> simp [Colour.word]

/-- Operands with commas between them are read back (30_encoding.md R101). -/
theorem operandsOf_withCommas : ∀ ts : List Token, (∀ t ∈ ts, t ≠ .comma) → operandsOf (withCommas ts) = some ts
  | [], _ => rfl
  | [t], h => by simp [withCommas, operandsOf, h t]
  | t :: u :: rest, h => by
    have ih := operandsOf_withCommas (u :: rest) (fun x hx => h x (List.mem_cons_of_mem _ hx))
    have ht : t ≠ .comma := h t (by simp)
    cases hr : withCommas (u :: rest) with
    | nil => cases rest <;> simp [withCommas] at hr
    | cons a l =>
      rw [hr] at ih
      simp [withCommas, hr, operandsOf, ht, ih]

theorem no_comma (i : Instr) : ∀ t ∈ i.operands, t ≠ .comma := by
  cases i
  case drawArc cap => cases cap <;> simp [Instr.operands, word_ne_comma]
  all_goals simp [Instr.operands, word_ne_comma]

/-- The mnemonic of a command names its opcode (30_encoding.md R93). -/
theorem opcode_name (i : Instr) : opcodeOf i.mnemonic = some i.fields.op := by
  cases i <;> rfl

end Sys2Proof
end

