-- ==== Sys2Proof/Laws/Flags.lean ====
section
/-! SUPPORT. Laws of the status and the registers as the host reads them: the two halves of `RESULT` (spec/10_state.md R35),
taking a `MemFault` (spec/60_exceptions.md R269), and `STATUS` bit by bit (spec/10_state.md R39). -/

namespace Sys2Proof.Machine

/-- The status half of `RESULT` (10_state.md R35). -/
theorem Status.code_setWidth (v : Byte) (st : Status) : ((v ++ st.code : Half)).setWidth 8 = st.code := by
  cases st <;> revert v <;> decide

/-- The value half of `RESULT` (10_state.md R35). -/
theorem Status.code_value (v : Byte) (st : Status) : ((v ++ st.code : Half)).extractLsb' 8 8 = v := by
  cases st <;> revert v <;> decide

/-- Taking a `MemFault` writes its status and its sticky bit alone, whatever the address (60_exceptions.md R263, R269). -/
theorem raise_memFault (a : Nat) (s : State) :
    raise (.memFault a) s = { s with result := 0x0007, faultBits := s.faultBits ||| 0x10 } := by
  simp [raise, State.setResult, Cause.status, Status.code, Cause.bit]

/-- Register 0, `STATUS`, bit by bit (10_state.md R39). -/
theorem statusRegister_bit (s : State) (i : Nat) : s.statusRegister.getLsbD i =
    if i < 8 then
      (match i with
      | 0 => s.xferInFlight
      | 1 => s.dirty
      | 2 => s.displayOn
      | 3 => s.frontIndex
      | 4 => s.lastOk
      | 5 => s.mapMode
      | 6 => s.xferOwner.bit
      | _ => false)
    else if i < 11 then s.sstate.code.getLsbD (i - 8)
    else if i < 16 then false
    else if i < 24 then s.contrast.getLsbD (i - 16)
    else false := by
  by_cases h : 32 ≤ i
  · rw [BitVec.getLsbD_of_ge _ _ h, if_neg (by omega), if_neg (by omega), if_neg (by omega), if_neg (by omega)]
  change BitVec.getLsbD (w := 8 + 8 + 5 + 3 + 1 + 1 + 1 + 1 + 1 + 1 + 1 + 1)
    (0#8 ++ s.contrast ++ 0#5 ++ s.sstate.code ++ 0#1 ++ BitVec.ofBool s.xferOwner.bit ++ BitVec.ofBool s.mapMode
      ++ BitVec.ofBool s.lastOk ++ BitVec.ofBool s.frontIndex ++ BitVec.ofBool s.displayOn ++ BitVec.ofBool s.dirty
      ++ BitVec.ofBool s.xferInFlight) i = _
  simp only [BitVec.getLsbD_append]
  have : i < 32 := by omega
  interval_cases i <;> simp

end Sys2Proof.Machine
end

