-- ==== Sys2Proof/Laws/Memory.lean ====
section
/-! SUPPORT. Laws of MEM: a read after a write, and that the canonical form is kept and unique. -/

namespace Sys2Proof.Machine

/-- A write leaves every other address alone. -/
theorem Memory.read_write_other (m : Memory) {a b : Nat} (v : Byte) (h : b ≠ a) :
    Memory.read (Memory.write m a v) b = Memory.read m b := by
  induction m with
  | nil => simp only [Memory.write]; split <;> simp [Memory.read, Ne.symm h]
  | cons p rest ih =>
    obtain ⟨c, u⟩ := p
    simp only [Memory.write]
    split
    · split <;> simp [Memory.read, Ne.symm h]
    · split
      · subst_vars; split <;> simp [Memory.read, Ne.symm h]
      · simp [Memory.read, ih]

/-- Below the first address of a canonical list nothing is listed. -/
theorem Memory.read_below {low : Nat} {m : Memory} (hm : Memory.wfFrom low m = true) {a : Nat} (h : a < low) :
    Memory.read m a = Memory.unlisted a := by
  induction m generalizing low with
  | nil => rfl
  | cons p rest ih =>
    obtain ⟨c, u⟩ := p
    simp only [Memory.wfFrom, Bool.and_eq_true, decide_eq_true_eq] at hm
    have hne : c ≠ a := by omega
    simp only [Memory.read, if_neg hne]
    exact ih hm.2 (by omega)

theorem Memory.read_write_same_from {low : Nat} {m : Memory} (hm : Memory.wfFrom low m = true) (a : Nat) (v : Byte) :
    Memory.read (Memory.write m a v) a = v := by
  induction m generalizing low with
  | nil => simp only [Memory.write]; split <;> simp_all [Memory.read]
  | cons p rest ih =>
    obtain ⟨c, u⟩ := p
    simp only [Memory.wfFrom, Bool.and_eq_true, decide_eq_true_eq] at hm
    have below : a ≤ c → Memory.read rest a = Memory.unlisted a := fun h => Memory.read_below hm.2 (by omega)
    simp only [Memory.write]
    split
    · rename_i hlt
      have hne : c ≠ a := by omega
      split
      · rename_i hv; simp only [Memory.read, if_neg hne]; rw [below (by omega), hv]
      · simp [Memory.read]
    · split
      · rename_i heq
        split
        · rename_i hv; rw [below (by omega), hv]
        · simp [Memory.read]
      · rename_i hne
        simp only [Memory.read, if_neg (Ne.symm hne)]
        exact ih hm.2

/-- A read after a write to the same address gives the value written. -/
theorem Memory.read_write_same {m : Memory} (hm : Memory.wf m = true) (a : Nat) (v : Byte) :
    Memory.read (Memory.write m a v) a = v := Memory.read_write_same_from hm a v

/-- A read after a write, at any address. -/
theorem Memory.read_write {m : Memory} (hm : Memory.wf m = true) (a b : Nat) (v : Byte) :
    Memory.read (Memory.write m a v) b = if b = a then v else Memory.read m b := by
  split
  · subst_vars; exact Memory.read_write_same hm _ v
  · exact Memory.read_write_other m v (by assumption)

theorem Memory.wfFrom_mono {low low' : Nat} {m : Memory} (h : Memory.wfFrom low m = true) (hle : low' ≤ low) :
    Memory.wfFrom low' m = true := by
  cases m with
  | nil => rfl
  | cons p rest =>
    simp only [Memory.wfFrom, Bool.and_eq_true, decide_eq_true_eq] at h ⊢
    exact ⟨⟨by omega, h.1.2⟩, h.2⟩

theorem Memory.write_wfFrom {low : Nat} {m : Memory} (hm : Memory.wfFrom low m = true) {a : Nat} (v : Byte)
    (ha : low ≤ a) : Memory.wfFrom low (Memory.write m a v) = true := by
  induction m generalizing low with
  | nil => simp only [Memory.write]; split <;> simp_all [Memory.wfFrom]
  | cons p rest ih =>
    obtain ⟨c, u⟩ := p
    have hm' := hm
    simp only [Memory.wfFrom, Bool.and_eq_true, decide_eq_true_eq] at hm'
    obtain ⟨⟨hc, hu⟩, hr⟩ := hm'
    simp only [Memory.write]
    split
    · split
      · exact hm
      · simp only [Memory.wfFrom, Bool.and_eq_true, decide_eq_true_eq]
        exact ⟨⟨ha, by assumption⟩, ⟨by omega, hu⟩, hr⟩
    · split
      · subst_vars
        split
        · exact Memory.wfFrom_mono hr (by omega)
        · simp only [Memory.wfFrom, Bool.and_eq_true, decide_eq_true_eq]
          exact ⟨⟨ha, by assumption⟩, hr⟩
      · simp only [Memory.wfFrom, Bool.and_eq_true, decide_eq_true_eq]
        exact ⟨⟨hc, hu⟩, ih hr (by omega)⟩

/-- Every write keeps the canonical form. -/
theorem Memory.write_wf {m : Memory} (hm : Memory.wf m = true) (a : Nat) (v : Byte) :
    Memory.wf (Memory.write m a v) = true := Memory.write_wfFrom hm v (Nat.zero_le a)

/-- The empty memory of reset is canonical. -/
@[simp] theorem Memory.wf_nil : Memory.wf [] = true := rfl

theorem Memory.ext_from {low : Nat} {m n : Memory} (hm : Memory.wfFrom low m = true) (hn : Memory.wfFrom low n = true)
    (h : ∀ a, Memory.read m a = Memory.read n a) : m = n := by
  induction m generalizing low n with
  | nil =>
    cases n with
    | nil => rfl
    | cons q rest =>
      obtain ⟨d, w⟩ := q
      simp only [Memory.wfFrom, Bool.and_eq_true, decide_eq_true_eq] at hn
      have := h d
      simp only [Memory.read, if_true] at this
      exact absurd this.symm hn.1.2
  | cons p rest ih =>
    obtain ⟨c, u⟩ := p
    cases n with
    | nil =>
      simp only [Memory.wfFrom, Bool.and_eq_true, decide_eq_true_eq] at hm
      have := h c
      simp only [Memory.read, if_true] at this
      exact absurd this hm.1.2
    | cons q rest' =>
      obtain ⟨d, w⟩ := q
      have hm' := hm
      have hn' := hn
      simp only [Memory.wfFrom, Bool.and_eq_true, decide_eq_true_eq] at hm' hn'
      have hcd : c = d := by
        rcases Nat.lt_trichotomy c d with hlt | heq | hlt
        · have e := h c
          rw [Memory.read_below (low := d) (m := (d, w) :: rest') (by
            simp only [Memory.wfFrom, Bool.and_eq_true, decide_eq_true_eq]; exact ⟨⟨le_refl d, hn'.1.2⟩, hn'.2⟩) hlt] at e
          simp only [Memory.read, if_true] at e
          exact absurd e hm'.1.2
        · exact heq
        · have e := h d
          rw [Memory.read_below (low := c) (m := (c, u) :: rest) (by
            simp only [Memory.wfFrom, Bool.and_eq_true, decide_eq_true_eq]; exact ⟨⟨le_refl c, hm'.1.2⟩, hm'.2⟩) hlt] at e
          simp only [Memory.read, if_true] at e
          exact absurd e.symm hn'.1.2
      subst hcd
      have huw : u = w := by simpa [Memory.read] using h c
      subst huw
      rw [ih hm'.2 hn'.2]
      intro a
      by_cases ha : a < c + 1
      · rw [Memory.read_below hm'.2 ha, Memory.read_below hn'.2 ha]
      · have := h a
        have hne : c ≠ a := by omega
        simpa only [Memory.read, if_neg hne] using this

/-- Canonical memories that read the same everywhere are the same data. -/
theorem Memory.ext_of_read {m n : Memory} (hm : Memory.wf m = true) (hn : Memory.wf n = true)
    (h : ∀ a, Memory.read m a = Memory.read n a) : m = n := Memory.ext_from hm hn h

/-- Every range that starts inside a mapped range and stays in it is mapped (20_memory.md R62). -/
theorem mapped_sub {c : Config} {a n k m : Nat} (h : mapped c a n = true) (hk : k + m ≤ n) :
    mapped c (a + k) m = true := by
  simp only [mapped, Bool.or_eq_true, decide_eq_true_eq, List.any_eq_true, Region.covers] at h ⊢
  rcases h with h | ⟨r, hr, h1, h2⟩
  · left; omega
  · right; exact ⟨r, hr, by omega, by omega⟩

end Sys2Proof.Machine
end

