-- ==== Sys2Proof/Laws/State.lean ====
section
/-! SUPPORT. One lemma per field per update of State, each true by rfl, so that no later proof unfolds a record update. -/

namespace Sys2Proof.Machine

/-! ### `State.setResult`: `RESULT` alone is written -/

@[simp] theorem State.setResult_cfg (s : State) (v : Byte) (st : Status) : (s.setResult v st).cfg = s.cfg := rfl
@[simp] theorem State.setResult_mem (s : State) (v : Byte) (st : Status) : (s.setResult v st).mem = s.mem := rfl
@[simp] theorem State.setResult_front (s : State) (v : Byte) (st : Status) : (s.setResult v st).front = s.front := rfl
@[simp] theorem State.setResult_cursorX (s : State) (v : Byte) (st : Status) : (s.setResult v st).cursorX = s.cursorX := rfl
@[simp] theorem State.setResult_cursorY (s : State) (v : Byte) (st : Status) : (s.setResult v st).cursorY = s.cursorY := rfl
@[simp] theorem State.setResult_xferAddr (s : State) (v : Byte) (st : Status) : (s.setResult v st).xferAddr = s.xferAddr := rfl
@[simp] theorem State.setResult_xferSrc (s : State) (v : Byte) (st : Status) : (s.setResult v st).xferSrc = s.xferSrc := rfl
@[simp] theorem State.setResult_xferLen (s : State) (v : Byte) (st : Status) : (s.setResult v st).xferLen = s.xferLen := rfl
@[simp] theorem State.setResult_xferDone (s : State) (v : Byte) (st : Status) : (s.setResult v st).xferDone = s.xferDone := rfl
@[simp] theorem State.setResult_xferInFlight (s : State) (v : Byte) (st : Status) : (s.setResult v st).xferInFlight = s.xferInFlight := rfl
@[simp] theorem State.setResult_xferChunk (s : State) (v : Byte) (st : Status) : (s.setResult v st).xferChunk = s.xferChunk := rfl
@[simp] theorem State.setResult_xferOwner (s : State) (v : Byte) (st : Status) : (s.setResult v st).xferOwner = s.xferOwner := rfl
@[simp] theorem State.setResult_sstate (s : State) (v : Byte) (st : Status) : (s.setResult v st).sstate = s.sstate := rfl
@[simp] theorem State.setResult_displayOn (s : State) (v : Byte) (st : Status) : (s.setResult v st).displayOn = s.displayOn := rfl
@[simp] theorem State.setResult_dirty (s : State) (v : Byte) (st : Status) : (s.setResult v st).dirty = s.dirty := rfl
@[simp] theorem State.setResult_contrast (s : State) (v : Byte) (st : Status) : (s.setResult v st).contrast = s.contrast := rfl
@[simp] theorem State.setResult_mapMode (s : State) (v : Byte) (st : Status) : (s.setResult v st).mapMode = s.mapMode := rfl
@[simp] theorem State.setResult_lastOk (s : State) (v : Byte) (st : Status) : (s.setResult v st).lastOk = s.lastOk := rfl
@[simp] theorem State.setResult_result (s : State) (v : Byte) (st : Status) : (s.setResult v st).result = v ++ st.code := rfl
@[simp] theorem State.setResult_faultBits (s : State) (v : Byte) (st : Status) : (s.setResult v st).faultBits = s.faultBits := rfl
@[simp] theorem State.setResult_busPending (s : State) (v : Byte) (st : Status) : (s.setResult v st).busPending = s.busPending := rfl
@[simp] theorem State.setResult_busEvent (s : State) (v : Byte) (st : Status) : (s.setResult v st).busEvent = s.busEvent := rfl
@[simp] theorem State.setResult_busOpen (s : State) (v : Byte) (st : Status) : (s.setResult v st).busOpen = s.busOpen := rfl
@[simp] theorem State.setResult_busDC (s : State) (v : Byte) (st : Status) : (s.setResult v st).busDC = s.busDC := rfl
@[simp] theorem State.setResult_busLog (s : State) (v : Byte) (st : Status) : (s.setResult v st).busLog = s.busLog := rfl
@[simp] theorem State.setResult_cmdLog (s : State) (v : Byte) (st : Status) : (s.setResult v st).cmdLog = s.cmdLog := rfl
@[simp] theorem State.setResult_cbLog (s : State) (v : Byte) (st : Status) : (s.setResult v st).cbLog = s.cbLog := rfl
@[simp] theorem State.setResult_chunkLog (s : State) (v : Byte) (st : Status) : (s.setResult v st).chunkLog = s.chunkLog := rfl
@[simp] theorem State.setResult_turns (s : State) (v : Byte) (st : Status) : (s.setResult v st).turns = s.turns := rfl
@[simp] theorem State.setResult_draws (s : State) (v : Byte) (st : Status) : (s.setResult v st).draws = s.draws := rfl
@[simp] theorem State.setResult_portData (s : State) (v : Byte) (st : Status) : (s.setResult v st).portData = s.portData := rfl

/-! ### `State.done`: `RESULT` alone is written -/

@[simp] theorem State.done_cfg (s : State) : s.done.cfg = s.cfg := rfl
@[simp] theorem State.done_mem (s : State) : s.done.mem = s.mem := rfl
@[simp] theorem State.done_front (s : State) : s.done.front = s.front := rfl
@[simp] theorem State.done_cursorX (s : State) : s.done.cursorX = s.cursorX := rfl
@[simp] theorem State.done_cursorY (s : State) : s.done.cursorY = s.cursorY := rfl
@[simp] theorem State.done_xferAddr (s : State) : s.done.xferAddr = s.xferAddr := rfl
@[simp] theorem State.done_xferSrc (s : State) : s.done.xferSrc = s.xferSrc := rfl
@[simp] theorem State.done_xferLen (s : State) : s.done.xferLen = s.xferLen := rfl
@[simp] theorem State.done_xferDone (s : State) : s.done.xferDone = s.xferDone := rfl
@[simp] theorem State.done_xferInFlight (s : State) : s.done.xferInFlight = s.xferInFlight := rfl
@[simp] theorem State.done_xferChunk (s : State) : s.done.xferChunk = s.xferChunk := rfl
@[simp] theorem State.done_xferOwner (s : State) : s.done.xferOwner = s.xferOwner := rfl
@[simp] theorem State.done_sstate (s : State) : s.done.sstate = s.sstate := rfl
@[simp] theorem State.done_displayOn (s : State) : s.done.displayOn = s.displayOn := rfl
@[simp] theorem State.done_dirty (s : State) : s.done.dirty = s.dirty := rfl
@[simp] theorem State.done_contrast (s : State) : s.done.contrast = s.contrast := rfl
@[simp] theorem State.done_mapMode (s : State) : s.done.mapMode = s.mapMode := rfl
@[simp] theorem State.done_lastOk (s : State) : s.done.lastOk = s.lastOk := rfl
@[simp] theorem State.done_result (s : State) : s.done.result = 0#8 ++ Status.ok.code := rfl
@[simp] theorem State.done_faultBits (s : State) : s.done.faultBits = s.faultBits := rfl
@[simp] theorem State.done_busPending (s : State) : s.done.busPending = s.busPending := rfl
@[simp] theorem State.done_busEvent (s : State) : s.done.busEvent = s.busEvent := rfl
@[simp] theorem State.done_busOpen (s : State) : s.done.busOpen = s.busOpen := rfl
@[simp] theorem State.done_busDC (s : State) : s.done.busDC = s.busDC := rfl
@[simp] theorem State.done_busLog (s : State) : s.done.busLog = s.busLog := rfl
@[simp] theorem State.done_cmdLog (s : State) : s.done.cmdLog = s.cmdLog := rfl
@[simp] theorem State.done_cbLog (s : State) : s.done.cbLog = s.cbLog := rfl
@[simp] theorem State.done_chunkLog (s : State) : s.done.chunkLog = s.chunkLog := rfl
@[simp] theorem State.done_turns (s : State) : s.done.turns = s.turns := rfl
@[simp] theorem State.done_draws (s : State) : s.done.draws = s.draws := rfl
@[simp] theorem State.done_portData (s : State) : s.done.portData = s.portData := rfl

/-! ### `raise`: `RESULT` and `FAULT` alone are written -/

@[simp] theorem raise_cfg (c : Cause) (s : State) : (raise c s).cfg = s.cfg := rfl
@[simp] theorem raise_mem (c : Cause) (s : State) : (raise c s).mem = s.mem := rfl
@[simp] theorem raise_front (c : Cause) (s : State) : (raise c s).front = s.front := rfl
@[simp] theorem raise_cursorX (c : Cause) (s : State) : (raise c s).cursorX = s.cursorX := rfl
@[simp] theorem raise_cursorY (c : Cause) (s : State) : (raise c s).cursorY = s.cursorY := rfl
@[simp] theorem raise_xferAddr (c : Cause) (s : State) : (raise c s).xferAddr = s.xferAddr := rfl
@[simp] theorem raise_xferSrc (c : Cause) (s : State) : (raise c s).xferSrc = s.xferSrc := rfl
@[simp] theorem raise_xferLen (c : Cause) (s : State) : (raise c s).xferLen = s.xferLen := rfl
@[simp] theorem raise_xferDone (c : Cause) (s : State) : (raise c s).xferDone = s.xferDone := rfl
@[simp] theorem raise_xferInFlight (c : Cause) (s : State) : (raise c s).xferInFlight = s.xferInFlight := rfl
@[simp] theorem raise_xferChunk (c : Cause) (s : State) : (raise c s).xferChunk = s.xferChunk := rfl
@[simp] theorem raise_xferOwner (c : Cause) (s : State) : (raise c s).xferOwner = s.xferOwner := rfl
@[simp] theorem raise_sstate (c : Cause) (s : State) : (raise c s).sstate = s.sstate := rfl
@[simp] theorem raise_displayOn (c : Cause) (s : State) : (raise c s).displayOn = s.displayOn := rfl
@[simp] theorem raise_dirty (c : Cause) (s : State) : (raise c s).dirty = s.dirty := rfl
@[simp] theorem raise_contrast (c : Cause) (s : State) : (raise c s).contrast = s.contrast := rfl
@[simp] theorem raise_mapMode (c : Cause) (s : State) : (raise c s).mapMode = s.mapMode := rfl
@[simp] theorem raise_lastOk (c : Cause) (s : State) : (raise c s).lastOk = s.lastOk := rfl
@[simp] theorem raise_result (c : Cause) (s : State) : (raise c s).result = 0#8 ++ c.status.code := rfl
@[simp] theorem raise_faultBits (c : Cause) (s : State) : (raise c s).faultBits = s.faultBits ||| c.bit := rfl
@[simp] theorem raise_busPending (c : Cause) (s : State) : (raise c s).busPending = s.busPending := rfl
@[simp] theorem raise_busEvent (c : Cause) (s : State) : (raise c s).busEvent = s.busEvent := rfl
@[simp] theorem raise_busOpen (c : Cause) (s : State) : (raise c s).busOpen = s.busOpen := rfl
@[simp] theorem raise_busDC (c : Cause) (s : State) : (raise c s).busDC = s.busDC := rfl
@[simp] theorem raise_busLog (c : Cause) (s : State) : (raise c s).busLog = s.busLog := rfl
@[simp] theorem raise_cmdLog (c : Cause) (s : State) : (raise c s).cmdLog = s.cmdLog := rfl
@[simp] theorem raise_cbLog (c : Cause) (s : State) : (raise c s).cbLog = s.cbLog := rfl
@[simp] theorem raise_chunkLog (c : Cause) (s : State) : (raise c s).chunkLog = s.chunkLog := rfl
@[simp] theorem raise_turns (c : Cause) (s : State) : (raise c s).turns = s.turns := rfl
@[simp] theorem raise_draws (c : Cause) (s : State) : (raise c s).draws = s.draws := rfl
@[simp] theorem raise_portData (c : Cause) (s : State) : (raise c s).portData = s.portData := rfl

/-! ### `fbWrite`: one byte and `DIRTY` are written -/

@[simp] theorem fbWrite_cfg (s : State) (i : Bool) (k : Nat) (v : Byte) : (fbWrite s i k v).cfg = s.cfg := rfl
@[simp] theorem fbWrite_mem (s : State) (i : Bool) (k : Nat) (v : Byte) : (fbWrite s i k v).mem = Memory.write s.mem (fbBase i + k) v := rfl
@[simp] theorem fbWrite_front (s : State) (i : Bool) (k : Nat) (v : Byte) : (fbWrite s i k v).front = s.front := rfl
@[simp] theorem fbWrite_cursorX (s : State) (i : Bool) (k : Nat) (v : Byte) : (fbWrite s i k v).cursorX = s.cursorX := rfl
@[simp] theorem fbWrite_cursorY (s : State) (i : Bool) (k : Nat) (v : Byte) : (fbWrite s i k v).cursorY = s.cursorY := rfl
@[simp] theorem fbWrite_xferAddr (s : State) (i : Bool) (k : Nat) (v : Byte) : (fbWrite s i k v).xferAddr = s.xferAddr := rfl
@[simp] theorem fbWrite_xferSrc (s : State) (i : Bool) (k : Nat) (v : Byte) : (fbWrite s i k v).xferSrc = s.xferSrc := rfl
@[simp] theorem fbWrite_xferLen (s : State) (i : Bool) (k : Nat) (v : Byte) : (fbWrite s i k v).xferLen = s.xferLen := rfl
@[simp] theorem fbWrite_xferDone (s : State) (i : Bool) (k : Nat) (v : Byte) : (fbWrite s i k v).xferDone = s.xferDone := rfl
@[simp] theorem fbWrite_xferInFlight (s : State) (i : Bool) (k : Nat) (v : Byte) : (fbWrite s i k v).xferInFlight = s.xferInFlight := rfl
@[simp] theorem fbWrite_xferChunk (s : State) (i : Bool) (k : Nat) (v : Byte) : (fbWrite s i k v).xferChunk = s.xferChunk := rfl
@[simp] theorem fbWrite_xferOwner (s : State) (i : Bool) (k : Nat) (v : Byte) : (fbWrite s i k v).xferOwner = s.xferOwner := rfl
@[simp] theorem fbWrite_sstate (s : State) (i : Bool) (k : Nat) (v : Byte) : (fbWrite s i k v).sstate = s.sstate := rfl
@[simp] theorem fbWrite_displayOn (s : State) (i : Bool) (k : Nat) (v : Byte) : (fbWrite s i k v).displayOn = s.displayOn := rfl
@[simp] theorem fbWrite_dirty (s : State) (i : Bool) (k : Nat) (v : Byte) : (fbWrite s i k v).dirty = true := rfl
@[simp] theorem fbWrite_contrast (s : State) (i : Bool) (k : Nat) (v : Byte) : (fbWrite s i k v).contrast = s.contrast := rfl
@[simp] theorem fbWrite_mapMode (s : State) (i : Bool) (k : Nat) (v : Byte) : (fbWrite s i k v).mapMode = s.mapMode := rfl
@[simp] theorem fbWrite_lastOk (s : State) (i : Bool) (k : Nat) (v : Byte) : (fbWrite s i k v).lastOk = s.lastOk := rfl
@[simp] theorem fbWrite_result (s : State) (i : Bool) (k : Nat) (v : Byte) : (fbWrite s i k v).result = s.result := rfl
@[simp] theorem fbWrite_faultBits (s : State) (i : Bool) (k : Nat) (v : Byte) : (fbWrite s i k v).faultBits = s.faultBits := rfl
@[simp] theorem fbWrite_busPending (s : State) (i : Bool) (k : Nat) (v : Byte) : (fbWrite s i k v).busPending = s.busPending := rfl
@[simp] theorem fbWrite_busEvent (s : State) (i : Bool) (k : Nat) (v : Byte) : (fbWrite s i k v).busEvent = s.busEvent := rfl
@[simp] theorem fbWrite_busOpen (s : State) (i : Bool) (k : Nat) (v : Byte) : (fbWrite s i k v).busOpen = s.busOpen := rfl
@[simp] theorem fbWrite_busDC (s : State) (i : Bool) (k : Nat) (v : Byte) : (fbWrite s i k v).busDC = s.busDC := rfl
@[simp] theorem fbWrite_busLog (s : State) (i : Bool) (k : Nat) (v : Byte) : (fbWrite s i k v).busLog = s.busLog := rfl
@[simp] theorem fbWrite_cmdLog (s : State) (i : Bool) (k : Nat) (v : Byte) : (fbWrite s i k v).cmdLog = s.cmdLog := rfl
@[simp] theorem fbWrite_cbLog (s : State) (i : Bool) (k : Nat) (v : Byte) : (fbWrite s i k v).cbLog = s.cbLog := rfl
@[simp] theorem fbWrite_chunkLog (s : State) (i : Bool) (k : Nat) (v : Byte) : (fbWrite s i k v).chunkLog = s.chunkLog := rfl
@[simp] theorem fbWrite_turns (s : State) (i : Bool) (k : Nat) (v : Byte) : (fbWrite s i k v).turns = s.turns := rfl
@[simp] theorem fbWrite_draws (s : State) (i : Bool) (k : Nat) (v : Byte) : (fbWrite s i k v).draws = s.draws := rfl
@[simp] theorem fbWrite_portData (s : State) (i : Bool) (k : Nat) (v : Byte) : (fbWrite s i k v).portData = s.portData := rfl

/-! ### `newTransfer`: the transfer context is written -/

@[simp] theorem newTransfer_cfg (s : State) (src len : Word) (addr : BitVec 7) (o : Owner) : (newTransfer s src len addr o).cfg = s.cfg := rfl
@[simp] theorem newTransfer_mem (s : State) (src len : Word) (addr : BitVec 7) (o : Owner) : (newTransfer s src len addr o).mem = s.mem := rfl
@[simp] theorem newTransfer_front (s : State) (src len : Word) (addr : BitVec 7) (o : Owner) : (newTransfer s src len addr o).front = s.front := rfl
@[simp] theorem newTransfer_cursorX (s : State) (src len : Word) (addr : BitVec 7) (o : Owner) : (newTransfer s src len addr o).cursorX = s.cursorX := rfl
@[simp] theorem newTransfer_cursorY (s : State) (src len : Word) (addr : BitVec 7) (o : Owner) : (newTransfer s src len addr o).cursorY = s.cursorY := rfl
@[simp] theorem newTransfer_xferAddr (s : State) (src len : Word) (addr : BitVec 7) (o : Owner) : (newTransfer s src len addr o).xferAddr = addr := rfl
@[simp] theorem newTransfer_xferSrc (s : State) (src len : Word) (addr : BitVec 7) (o : Owner) : (newTransfer s src len addr o).xferSrc = src := rfl
@[simp] theorem newTransfer_xferLen (s : State) (src len : Word) (addr : BitVec 7) (o : Owner) : (newTransfer s src len addr o).xferLen = len := rfl
@[simp] theorem newTransfer_xferDone (s : State) (src len : Word) (addr : BitVec 7) (o : Owner) : (newTransfer s src len addr o).xferDone = 0 := rfl
@[simp] theorem newTransfer_xferInFlight (s : State) (src len : Word) (addr : BitVec 7) (o : Owner) : (newTransfer s src len addr o).xferInFlight = s.xferInFlight := rfl
@[simp] theorem newTransfer_xferChunk (s : State) (src len : Word) (addr : BitVec 7) (o : Owner) : (newTransfer s src len addr o).xferChunk = s.xferChunk := rfl
@[simp] theorem newTransfer_xferOwner (s : State) (src len : Word) (addr : BitVec 7) (o : Owner) : (newTransfer s src len addr o).xferOwner = o := rfl
@[simp] theorem newTransfer_sstate (s : State) (src len : Word) (addr : BitVec 7) (o : Owner) : (newTransfer s src len addr o).sstate = s.sstate := rfl
@[simp] theorem newTransfer_displayOn (s : State) (src len : Word) (addr : BitVec 7) (o : Owner) : (newTransfer s src len addr o).displayOn = s.displayOn := rfl
@[simp] theorem newTransfer_dirty (s : State) (src len : Word) (addr : BitVec 7) (o : Owner) : (newTransfer s src len addr o).dirty = s.dirty := rfl
@[simp] theorem newTransfer_contrast (s : State) (src len : Word) (addr : BitVec 7) (o : Owner) : (newTransfer s src len addr o).contrast = s.contrast := rfl
@[simp] theorem newTransfer_mapMode (s : State) (src len : Word) (addr : BitVec 7) (o : Owner) : (newTransfer s src len addr o).mapMode = s.mapMode := rfl
@[simp] theorem newTransfer_lastOk (s : State) (src len : Word) (addr : BitVec 7) (o : Owner) : (newTransfer s src len addr o).lastOk = s.lastOk := rfl
@[simp] theorem newTransfer_result (s : State) (src len : Word) (addr : BitVec 7) (o : Owner) : (newTransfer s src len addr o).result = s.result := rfl
@[simp] theorem newTransfer_faultBits (s : State) (src len : Word) (addr : BitVec 7) (o : Owner) : (newTransfer s src len addr o).faultBits = s.faultBits := rfl
@[simp] theorem newTransfer_busPending (s : State) (src len : Word) (addr : BitVec 7) (o : Owner) : (newTransfer s src len addr o).busPending = s.busPending := rfl
@[simp] theorem newTransfer_busEvent (s : State) (src len : Word) (addr : BitVec 7) (o : Owner) : (newTransfer s src len addr o).busEvent = s.busEvent := rfl
@[simp] theorem newTransfer_busOpen (s : State) (src len : Word) (addr : BitVec 7) (o : Owner) : (newTransfer s src len addr o).busOpen = s.busOpen := rfl
@[simp] theorem newTransfer_busDC (s : State) (src len : Word) (addr : BitVec 7) (o : Owner) : (newTransfer s src len addr o).busDC = s.busDC := rfl
@[simp] theorem newTransfer_busLog (s : State) (src len : Word) (addr : BitVec 7) (o : Owner) : (newTransfer s src len addr o).busLog = s.busLog := rfl
@[simp] theorem newTransfer_cmdLog (s : State) (src len : Word) (addr : BitVec 7) (o : Owner) : (newTransfer s src len addr o).cmdLog = s.cmdLog := rfl
@[simp] theorem newTransfer_cbLog (s : State) (src len : Word) (addr : BitVec 7) (o : Owner) : (newTransfer s src len addr o).cbLog = s.cbLog := rfl
@[simp] theorem newTransfer_chunkLog (s : State) (src len : Word) (addr : BitVec 7) (o : Owner) : (newTransfer s src len addr o).chunkLog = s.chunkLog := rfl
@[simp] theorem newTransfer_turns (s : State) (src len : Word) (addr : BitVec 7) (o : Owner) : (newTransfer s src len addr o).turns = s.turns := rfl
@[simp] theorem newTransfer_draws (s : State) (src len : Word) (addr : BitVec 7) (o : Owner) : (newTransfer s src len addr o).draws = s.draws := rfl
@[simp] theorem newTransfer_portData (s : State) (src len : Word) (addr : BitVec 7) (o : Owner) : (newTransfer s src len addr o).portData = s.portData := rfl

/-! ### `issueChunk`: `XFER.CHUNK`, `BUS.PENDING` and `CHUNKLOG` are written -/

@[simp] theorem issueChunk_cfg (s : State) : (issueChunk s).cfg = s.cfg := rfl
@[simp] theorem issueChunk_mem (s : State) : (issueChunk s).mem = s.mem := rfl
@[simp] theorem issueChunk_front (s : State) : (issueChunk s).front = s.front := rfl
@[simp] theorem issueChunk_cursorX (s : State) : (issueChunk s).cursorX = s.cursorX := rfl
@[simp] theorem issueChunk_cursorY (s : State) : (issueChunk s).cursorY = s.cursorY := rfl
@[simp] theorem issueChunk_xferAddr (s : State) : (issueChunk s).xferAddr = s.xferAddr := rfl
@[simp] theorem issueChunk_xferSrc (s : State) : (issueChunk s).xferSrc = s.xferSrc := rfl
@[simp] theorem issueChunk_xferLen (s : State) : (issueChunk s).xferLen = s.xferLen := rfl
@[simp] theorem issueChunk_xferDone (s : State) : (issueChunk s).xferDone = s.xferDone := rfl
@[simp] theorem issueChunk_xferInFlight (s : State) : (issueChunk s).xferInFlight = s.xferInFlight := rfl
@[simp] theorem issueChunk_xferChunk (s : State) : (issueChunk s).xferChunk = (nextChunk s).len := rfl
@[simp] theorem issueChunk_xferOwner (s : State) : (issueChunk s).xferOwner = s.xferOwner := rfl
@[simp] theorem issueChunk_sstate (s : State) : (issueChunk s).sstate = s.sstate := rfl
@[simp] theorem issueChunk_displayOn (s : State) : (issueChunk s).displayOn = s.displayOn := rfl
@[simp] theorem issueChunk_dirty (s : State) : (issueChunk s).dirty = s.dirty := rfl
@[simp] theorem issueChunk_contrast (s : State) : (issueChunk s).contrast = s.contrast := rfl
@[simp] theorem issueChunk_mapMode (s : State) : (issueChunk s).mapMode = s.mapMode := rfl
@[simp] theorem issueChunk_lastOk (s : State) : (issueChunk s).lastOk = s.lastOk := rfl
@[simp] theorem issueChunk_result (s : State) : (issueChunk s).result = s.result := rfl
@[simp] theorem issueChunk_faultBits (s : State) : (issueChunk s).faultBits = s.faultBits := rfl
@[simp] theorem issueChunk_busPending (s : State) : (issueChunk s).busPending = some (nextChunk s) := rfl
@[simp] theorem issueChunk_busEvent (s : State) : (issueChunk s).busEvent = s.busEvent := rfl
@[simp] theorem issueChunk_busOpen (s : State) : (issueChunk s).busOpen = s.busOpen := rfl
@[simp] theorem issueChunk_busDC (s : State) : (issueChunk s).busDC = s.busDC := rfl
@[simp] theorem issueChunk_busLog (s : State) : (issueChunk s).busLog = s.busLog := rfl
@[simp] theorem issueChunk_cmdLog (s : State) : (issueChunk s).cmdLog = s.cmdLog := rfl
@[simp] theorem issueChunk_cbLog (s : State) : (issueChunk s).cbLog = s.cbLog := rfl
@[simp] theorem issueChunk_chunkLog (s : State) : (issueChunk s).chunkLog = s.chunkLog ++ [nextChunk s] := rfl
@[simp] theorem issueChunk_turns (s : State) : (issueChunk s).turns = s.turns := rfl
@[simp] theorem issueChunk_draws (s : State) : (issueChunk s).draws = s.draws := rfl
@[simp] theorem issueChunk_portData (s : State) : (issueChunk s).portData = s.portData := rfl

/-! ### `sendCommand`: the logs and `BUS.DC` are written -/

@[simp] theorem sendCommand_cfg (s : State) (dc : DisplayCommand) : (sendCommand s dc).cfg = s.cfg := rfl
@[simp] theorem sendCommand_mem (s : State) (dc : DisplayCommand) : (sendCommand s dc).mem = s.mem := rfl
@[simp] theorem sendCommand_front (s : State) (dc : DisplayCommand) : (sendCommand s dc).front = s.front := rfl
@[simp] theorem sendCommand_cursorX (s : State) (dc : DisplayCommand) : (sendCommand s dc).cursorX = s.cursorX := rfl
@[simp] theorem sendCommand_cursorY (s : State) (dc : DisplayCommand) : (sendCommand s dc).cursorY = s.cursorY := rfl
@[simp] theorem sendCommand_xferAddr (s : State) (dc : DisplayCommand) : (sendCommand s dc).xferAddr = s.xferAddr := rfl
@[simp] theorem sendCommand_xferSrc (s : State) (dc : DisplayCommand) : (sendCommand s dc).xferSrc = s.xferSrc := rfl
@[simp] theorem sendCommand_xferLen (s : State) (dc : DisplayCommand) : (sendCommand s dc).xferLen = s.xferLen := rfl
@[simp] theorem sendCommand_xferDone (s : State) (dc : DisplayCommand) : (sendCommand s dc).xferDone = s.xferDone := rfl
@[simp] theorem sendCommand_xferInFlight (s : State) (dc : DisplayCommand) : (sendCommand s dc).xferInFlight = s.xferInFlight := rfl
@[simp] theorem sendCommand_xferChunk (s : State) (dc : DisplayCommand) : (sendCommand s dc).xferChunk = s.xferChunk := rfl
@[simp] theorem sendCommand_xferOwner (s : State) (dc : DisplayCommand) : (sendCommand s dc).xferOwner = s.xferOwner := rfl
@[simp] theorem sendCommand_sstate (s : State) (dc : DisplayCommand) : (sendCommand s dc).sstate = s.sstate := rfl
@[simp] theorem sendCommand_displayOn (s : State) (dc : DisplayCommand) : (sendCommand s dc).displayOn = s.displayOn := rfl
@[simp] theorem sendCommand_dirty (s : State) (dc : DisplayCommand) : (sendCommand s dc).dirty = s.dirty := rfl
@[simp] theorem sendCommand_contrast (s : State) (dc : DisplayCommand) : (sendCommand s dc).contrast = s.contrast := rfl
@[simp] theorem sendCommand_mapMode (s : State) (dc : DisplayCommand) : (sendCommand s dc).mapMode = s.mapMode := rfl
@[simp] theorem sendCommand_lastOk (s : State) (dc : DisplayCommand) : (sendCommand s dc).lastOk = s.lastOk := rfl
@[simp] theorem sendCommand_result (s : State) (dc : DisplayCommand) : (sendCommand s dc).result = s.result := rfl
@[simp] theorem sendCommand_faultBits (s : State) (dc : DisplayCommand) : (sendCommand s dc).faultBits = s.faultBits := rfl
@[simp] theorem sendCommand_busPending (s : State) (dc : DisplayCommand) : (sendCommand s dc).busPending = s.busPending := rfl
@[simp] theorem sendCommand_busEvent (s : State) (dc : DisplayCommand) : (sendCommand s dc).busEvent = s.busEvent := rfl
@[simp] theorem sendCommand_busOpen (s : State) (dc : DisplayCommand) : (sendCommand s dc).busOpen = s.busOpen := rfl
@[simp] theorem sendCommand_busDC (s : State) (dc : DisplayCommand) : (sendCommand s dc).busDC = commandLevel s.cfg s.busDC := rfl
@[simp] theorem sendCommand_busLog (s : State) (dc : DisplayCommand) : (sendCommand s dc).busLog = s.busLog ++ commandWire s.cfg dc := rfl
@[simp] theorem sendCommand_cmdLog (s : State) (dc : DisplayCommand) : (sendCommand s dc).cmdLog = s.cmdLog ++ [.cmd dc.opcode dc.param] := rfl
@[simp] theorem sendCommand_cbLog (s : State) (dc : DisplayCommand) : (sendCommand s dc).cbLog = s.cbLog := rfl
@[simp] theorem sendCommand_chunkLog (s : State) (dc : DisplayCommand) : (sendCommand s dc).chunkLog = s.chunkLog := rfl
@[simp] theorem sendCommand_turns (s : State) (dc : DisplayCommand) : (sendCommand s dc).turns = s.turns := rfl
@[simp] theorem sendCommand_draws (s : State) (dc : DisplayCommand) : (sendCommand s dc).draws = s.draws := rfl
@[simp] theorem sendCommand_portData (s : State) (dc : DisplayCommand) : (sendCommand s dc).portData = s.portData := rfl

/-! ### `recordCall`: `CMDLOG` is written -/

@[simp] theorem recordCall_cfg (s : State) (e : CommandEvent) : (recordCall s e).cfg = s.cfg := rfl
@[simp] theorem recordCall_mem (s : State) (e : CommandEvent) : (recordCall s e).mem = s.mem := rfl
@[simp] theorem recordCall_front (s : State) (e : CommandEvent) : (recordCall s e).front = s.front := rfl
@[simp] theorem recordCall_cursorX (s : State) (e : CommandEvent) : (recordCall s e).cursorX = s.cursorX := rfl
@[simp] theorem recordCall_cursorY (s : State) (e : CommandEvent) : (recordCall s e).cursorY = s.cursorY := rfl
@[simp] theorem recordCall_xferAddr (s : State) (e : CommandEvent) : (recordCall s e).xferAddr = s.xferAddr := rfl
@[simp] theorem recordCall_xferSrc (s : State) (e : CommandEvent) : (recordCall s e).xferSrc = s.xferSrc := rfl
@[simp] theorem recordCall_xferLen (s : State) (e : CommandEvent) : (recordCall s e).xferLen = s.xferLen := rfl
@[simp] theorem recordCall_xferDone (s : State) (e : CommandEvent) : (recordCall s e).xferDone = s.xferDone := rfl
@[simp] theorem recordCall_xferInFlight (s : State) (e : CommandEvent) : (recordCall s e).xferInFlight = s.xferInFlight := rfl
@[simp] theorem recordCall_xferChunk (s : State) (e : CommandEvent) : (recordCall s e).xferChunk = s.xferChunk := rfl
@[simp] theorem recordCall_xferOwner (s : State) (e : CommandEvent) : (recordCall s e).xferOwner = s.xferOwner := rfl
@[simp] theorem recordCall_sstate (s : State) (e : CommandEvent) : (recordCall s e).sstate = s.sstate := rfl
@[simp] theorem recordCall_displayOn (s : State) (e : CommandEvent) : (recordCall s e).displayOn = s.displayOn := rfl
@[simp] theorem recordCall_dirty (s : State) (e : CommandEvent) : (recordCall s e).dirty = s.dirty := rfl
@[simp] theorem recordCall_contrast (s : State) (e : CommandEvent) : (recordCall s e).contrast = s.contrast := rfl
@[simp] theorem recordCall_mapMode (s : State) (e : CommandEvent) : (recordCall s e).mapMode = s.mapMode := rfl
@[simp] theorem recordCall_lastOk (s : State) (e : CommandEvent) : (recordCall s e).lastOk = s.lastOk := rfl
@[simp] theorem recordCall_result (s : State) (e : CommandEvent) : (recordCall s e).result = s.result := rfl
@[simp] theorem recordCall_faultBits (s : State) (e : CommandEvent) : (recordCall s e).faultBits = s.faultBits := rfl
@[simp] theorem recordCall_busPending (s : State) (e : CommandEvent) : (recordCall s e).busPending = s.busPending := rfl
@[simp] theorem recordCall_busEvent (s : State) (e : CommandEvent) : (recordCall s e).busEvent = s.busEvent := rfl
@[simp] theorem recordCall_busOpen (s : State) (e : CommandEvent) : (recordCall s e).busOpen = s.busOpen := rfl
@[simp] theorem recordCall_busDC (s : State) (e : CommandEvent) : (recordCall s e).busDC = s.busDC := rfl
@[simp] theorem recordCall_busLog (s : State) (e : CommandEvent) : (recordCall s e).busLog = s.busLog := rfl
@[simp] theorem recordCall_cmdLog (s : State) (e : CommandEvent) : (recordCall s e).cmdLog = s.cmdLog ++ [e] := rfl
@[simp] theorem recordCall_cbLog (s : State) (e : CommandEvent) : (recordCall s e).cbLog = s.cbLog := rfl
@[simp] theorem recordCall_chunkLog (s : State) (e : CommandEvent) : (recordCall s e).chunkLog = s.chunkLog := rfl
@[simp] theorem recordCall_turns (s : State) (e : CommandEvent) : (recordCall s e).turns = s.turns := rfl
@[simp] theorem recordCall_draws (s : State) (e : CommandEvent) : (recordCall s e).draws = s.draws := rfl
@[simp] theorem recordCall_portData (s : State) (e : CommandEvent) : (recordCall s e).portData = s.portData := rfl

/-! ### `swap`: `FRONT` is written -/

@[simp] theorem swap_cfg (s : State) : (swap s).cfg = s.cfg := rfl
@[simp] theorem swap_mem (s : State) : (swap s).mem = s.mem := rfl
@[simp] theorem swap_front (s : State) : (swap s).front = if s.cfg.doubleBuffered then !s.front else s.front := rfl
@[simp] theorem swap_cursorX (s : State) : (swap s).cursorX = s.cursorX := rfl
@[simp] theorem swap_cursorY (s : State) : (swap s).cursorY = s.cursorY := rfl
@[simp] theorem swap_xferAddr (s : State) : (swap s).xferAddr = s.xferAddr := rfl
@[simp] theorem swap_xferSrc (s : State) : (swap s).xferSrc = s.xferSrc := rfl
@[simp] theorem swap_xferLen (s : State) : (swap s).xferLen = s.xferLen := rfl
@[simp] theorem swap_xferDone (s : State) : (swap s).xferDone = s.xferDone := rfl
@[simp] theorem swap_xferInFlight (s : State) : (swap s).xferInFlight = s.xferInFlight := rfl
@[simp] theorem swap_xferChunk (s : State) : (swap s).xferChunk = s.xferChunk := rfl
@[simp] theorem swap_xferOwner (s : State) : (swap s).xferOwner = s.xferOwner := rfl
@[simp] theorem swap_sstate (s : State) : (swap s).sstate = s.sstate := rfl
@[simp] theorem swap_displayOn (s : State) : (swap s).displayOn = s.displayOn := rfl
@[simp] theorem swap_dirty (s : State) : (swap s).dirty = s.dirty := rfl
@[simp] theorem swap_contrast (s : State) : (swap s).contrast = s.contrast := rfl
@[simp] theorem swap_mapMode (s : State) : (swap s).mapMode = s.mapMode := rfl
@[simp] theorem swap_lastOk (s : State) : (swap s).lastOk = s.lastOk := rfl
@[simp] theorem swap_result (s : State) : (swap s).result = s.result := rfl
@[simp] theorem swap_faultBits (s : State) : (swap s).faultBits = s.faultBits := rfl
@[simp] theorem swap_busPending (s : State) : (swap s).busPending = s.busPending := rfl
@[simp] theorem swap_busEvent (s : State) : (swap s).busEvent = s.busEvent := rfl
@[simp] theorem swap_busOpen (s : State) : (swap s).busOpen = s.busOpen := rfl
@[simp] theorem swap_busDC (s : State) : (swap s).busDC = s.busDC := rfl
@[simp] theorem swap_busLog (s : State) : (swap s).busLog = s.busLog := rfl
@[simp] theorem swap_cmdLog (s : State) : (swap s).cmdLog = s.cmdLog := rfl
@[simp] theorem swap_cbLog (s : State) : (swap s).cbLog = s.cbLog := rfl
@[simp] theorem swap_chunkLog (s : State) : (swap s).chunkLog = s.chunkLog := rfl
@[simp] theorem swap_turns (s : State) : (swap s).turns = s.turns := rfl
@[simp] theorem swap_draws (s : State) : (swap s).draws = s.draws := rfl
@[simp] theorem swap_portData (s : State) : (swap s).portData = s.portData := rfl

/-! ### `advance`: `CURSOR_X` is written -/

@[simp] theorem advance_cfg (s : State) (gw : Nat) : (advance s gw).cfg = s.cfg := rfl
@[simp] theorem advance_mem (s : State) (gw : Nat) : (advance s gw).mem = s.mem := rfl
@[simp] theorem advance_front (s : State) (gw : Nat) : (advance s gw).front = s.front := rfl
@[simp] theorem advance_cursorX (s : State) (gw : Nat) : (advance s gw).cursorX = s.cursorX + BitVec.ofNat 16 gw := rfl
@[simp] theorem advance_cursorY (s : State) (gw : Nat) : (advance s gw).cursorY = s.cursorY := rfl
@[simp] theorem advance_xferAddr (s : State) (gw : Nat) : (advance s gw).xferAddr = s.xferAddr := rfl
@[simp] theorem advance_xferSrc (s : State) (gw : Nat) : (advance s gw).xferSrc = s.xferSrc := rfl
@[simp] theorem advance_xferLen (s : State) (gw : Nat) : (advance s gw).xferLen = s.xferLen := rfl
@[simp] theorem advance_xferDone (s : State) (gw : Nat) : (advance s gw).xferDone = s.xferDone := rfl
@[simp] theorem advance_xferInFlight (s : State) (gw : Nat) : (advance s gw).xferInFlight = s.xferInFlight := rfl
@[simp] theorem advance_xferChunk (s : State) (gw : Nat) : (advance s gw).xferChunk = s.xferChunk := rfl
@[simp] theorem advance_xferOwner (s : State) (gw : Nat) : (advance s gw).xferOwner = s.xferOwner := rfl
@[simp] theorem advance_sstate (s : State) (gw : Nat) : (advance s gw).sstate = s.sstate := rfl
@[simp] theorem advance_displayOn (s : State) (gw : Nat) : (advance s gw).displayOn = s.displayOn := rfl
@[simp] theorem advance_dirty (s : State) (gw : Nat) : (advance s gw).dirty = s.dirty := rfl
@[simp] theorem advance_contrast (s : State) (gw : Nat) : (advance s gw).contrast = s.contrast := rfl
@[simp] theorem advance_mapMode (s : State) (gw : Nat) : (advance s gw).mapMode = s.mapMode := rfl
@[simp] theorem advance_lastOk (s : State) (gw : Nat) : (advance s gw).lastOk = s.lastOk := rfl
@[simp] theorem advance_result (s : State) (gw : Nat) : (advance s gw).result = s.result := rfl
@[simp] theorem advance_faultBits (s : State) (gw : Nat) : (advance s gw).faultBits = s.faultBits := rfl
@[simp] theorem advance_busPending (s : State) (gw : Nat) : (advance s gw).busPending = s.busPending := rfl
@[simp] theorem advance_busEvent (s : State) (gw : Nat) : (advance s gw).busEvent = s.busEvent := rfl
@[simp] theorem advance_busOpen (s : State) (gw : Nat) : (advance s gw).busOpen = s.busOpen := rfl
@[simp] theorem advance_busDC (s : State) (gw : Nat) : (advance s gw).busDC = s.busDC := rfl
@[simp] theorem advance_busLog (s : State) (gw : Nat) : (advance s gw).busLog = s.busLog := rfl
@[simp] theorem advance_cmdLog (s : State) (gw : Nat) : (advance s gw).cmdLog = s.cmdLog := rfl
@[simp] theorem advance_cbLog (s : State) (gw : Nat) : (advance s gw).cbLog = s.cbLog := rfl
@[simp] theorem advance_chunkLog (s : State) (gw : Nat) : (advance s gw).chunkLog = s.chunkLog := rfl
@[simp] theorem advance_turns (s : State) (gw : Nat) : (advance s gw).turns = s.turns := rfl
@[simp] theorem advance_draws (s : State) (gw : Nat) : (advance s gw).draws = s.draws := rfl
@[simp] theorem advance_portData (s : State) (gw : Nat) : (advance s gw).portData = s.portData := rfl

end Sys2Proof.Machine
end

