-- ==== Sys2Proof/Laws/Pixel.lean ====
section
/-! SUPPORT. Laws of the pixel: what a valid instance gives, that the translation stays in the buffer and is injective
(spec/42_framebuffer.md R161), what `SetPixel` does (R163, R170), and that plotting a walk paints exactly its points
(spec/43_graphics_shapes.md R180). -/

namespace Sys2Proof.Machine

/-! ### The instance -/

theorem cfg_valid (c : Config) :
    (1 ≤ c.w ∧ c.w ≤ 256) ∧ (c.h = 32 ∨ c.h = 64 ∨ c.h = 128) ∧
      (c.rowMapAlt.length = c.h ∧ (∀ r ∈ c.rowMapAlt, r < c.h) ∧ c.rowMapAlt.Nodup) ∧
      (1 ≤ c.fontW ∧ c.fontW ≤ 16) ∧ (1 ≤ c.fontH ∧ c.fontH ≤ 255) ∧ c.assetSize ≤ 0xFFFF0000 := by
  have h := c.ok
  simp only [Params.valid, isRowPermutation, Bool.and_eq_true, decide_eq_true_eq, List.all_eq_true] at h
  obtain ⟨⟨⟨⟨⟨h1, h2⟩, ⟨h3, h4⟩, h5⟩, h6⟩, h7⟩, h8⟩ := h
  exact ⟨h1, h2, ⟨h3, h4, h5⟩, h6, h7, h8⟩

/-- `FB_BYTES` is one byte per page and column (00_scope.md R9). -/
theorem fbBytes_eq (c : Config) : c.fbBytes = c.h / 8 * c.w := by
  obtain ⟨_, h | h | h, _⟩ := cfg_valid c <;> simp only [Config.fbBytes, h] <;> omega

theorem fbBytes_bounds (c : Config) : 4 ≤ c.fbBytes ∧ c.fbBytes ≤ 4096 := by
  obtain ⟨hw, h | h | h, _⟩ := cfg_valid c <;> simp only [Config.fbBytes, h] <;> omega

/-! ### The translation -/

/-- A stored row is a row of the panel (42_framebuffer.md R161, R162). -/
theorem storedRow_lt (s : State) {y : Nat} (hy : y < s.cfg.h) : storedRow s y < s.cfg.h := by
  unfold storedRow
  split
  · obtain ⟨_, _, ⟨hlen, hmem, _⟩, _⟩ := cfg_valid s.cfg
    rw [List.getD_eq_getElem _ _ (by omega)]
    exact hmem _ (List.getElem_mem _)
  · exact hy

/-- The row mapping is injective on the rows (42_framebuffer.md R162). -/
theorem storedRow_inj (s : State) {y y' : Nat} (hy : y < s.cfg.h) (hy' : y' < s.cfg.h)
    (h : storedRow s y = storedRow s y') : y = y' := by
  unfold storedRow at h
  split at h
  · obtain ⟨_, _, ⟨hlen, _, hnodup⟩, _⟩ := cfg_valid s.cfg
    rw [List.getD_eq_getElem _ _ (by omega), List.getD_eq_getElem _ _ (by omega)] at h
    exact (List.Nodup.getElem_inj_iff hnodup).mp h
  · exact h

/-- `0 <= k < FB_BYTES` for every pixel of the panel (42_framebuffer.md R161). -/
theorem pixelIndex_lt (s : State) {x y : Nat} (hx : x < s.cfg.w) (hy : y < s.cfg.h) :
    pixelIndex s x y < s.cfg.fbBytes := by
  rw [fbBytes_eq, pixelIndex]
  have hr := storedRow_lt s hy
  have hp : storedRow s y / 8 + 1 ≤ s.cfg.h / 8 := by
    obtain ⟨_, h | h | h, _⟩ := cfg_valid s.cfg <;> omega
  calc storedRow s y / 8 * s.cfg.w + x < storedRow s y / 8 * s.cfg.w + s.cfg.w := by omega
    _ = (storedRow s y / 8 + 1) * s.cfg.w := by rw [Nat.add_mul]; omega
    _ ≤ s.cfg.h / 8 * s.cfg.w := Nat.mul_le_mul_right _ hp

theorem pixelBit_lt (s : State) (y : Nat) : pixelBit s y < 8 := Nat.mod_lt _ (by omega)

/-- The address of a pixel lies in the front instance. -/
theorem pixelAddr_inFront (s : State) {x y : Nat} (hx : x < s.cfg.w) (hy : y < s.cfg.h) :
    s.inFront (pixelAddr s x y) := by
  have := pixelIndex_lt s hx hy
  unfold State.inFront pixelAddr
  omega

/-- Two different pixels of the panel never share a byte and a bit (42_framebuffer.md R161). -/
theorem pixel_injective (s : State) {x y x' y' : Nat} (hx : x < s.cfg.w) (hy : y < s.cfg.h) (hx' : x' < s.cfg.w)
    (hy' : y' < s.cfg.h) (ha : pixelAddr s x y = pixelAddr s x' y') (hb : pixelBit s y = pixelBit s y') :
    x = x' ∧ y = y' := by
  have hi : storedRow s y / 8 * s.cfg.w + x = storedRow s y' / 8 * s.cfg.w + x' := by
    simp only [pixelAddr, pixelIndex] at ha; omega
  have hmod := congrArg (· % s.cfg.w) hi
  simp only [Nat.mul_add_mod_of_lt hx, Nat.mul_add_mod_of_lt hx'] at hmod
  subst hmod
  have hpos : 0 < s.cfg.w := by omega
  have hp : storedRow s y / 8 = storedRow s y' / 8 := Nat.eq_of_mul_eq_mul_right hpos (by omega)
  unfold pixelBit at hb
  exact ⟨rfl, storedRow_inj s hy hy' (by omega)⟩

/-! ### One pixel -/

/-- The mask of a pixel has its bit alone. -/
theorem pixelMask_bit (s : State) (y j : Nat) (hj : j < 8) :
    (pixelMask s y).getLsbD j = decide (j = pixelBit s y) := by
  have hb := pixelBit_lt s y
  simp only [pixelMask, BitVec.getLsbD_shiftLeft, BitVec.getLsbD_one]
  by_cases h : j = pixelBit s y
  · subst h; simp [hb]
  · by_cases hlt : j < pixelBit s y
    · simp [hlt, h]
    · have : j - pixelBit s y ≠ 0 := by omega
      simp [h, this]

/-- Painting changes the masked bits to the colour and leaves the others (42_framebuffer.md R163). -/
theorem paint_bit (v mask : Byte) (col : Colour) (j : Nat) (hj : j < 8) :
    (paint v mask col).getLsbD j = if mask.getLsbD j then col.bit else v.getLsbD j := by
  cases col <;> cases h : mask.getLsbD j <;>
    simp only [paint, Colour.bit, BitVec.getLsbD_or, BitVec.getLsbD_and, BitVec.getLsbD_not, h, hj, decide_true] <;>
    simp

theorem inPanel_iff (c : Config) (x y : Int) :
    inPanel c x y = true ↔ ∃ a b : Nat, x = a ∧ y = b ∧ a < c.w ∧ b < c.h := by
  simp only [inPanel, decide_eq_true_eq]
  constructor
  · rintro ⟨h1, h2, h3, h4⟩
    exact ⟨x.toNat, y.toNat, by omega, by omega, by omega, by omega⟩
  · rintro ⟨a, b, rfl, rfl, h1, h2⟩
    omega

/-- Outside the panel `SetPixel` does nothing (42_framebuffer.md R163). -/
theorem setPixel_outside {s : State} {x y : Int} (col : Colour) (h : inPanel s.cfg x y = false) :
    setPixel s x y col = s := by
  simp [setPixel, h]

/-- Inside the panel `SetPixel` stores one byte and sets `DIRTY` (42_framebuffer.md R163). -/
theorem setPixel_inside (s : State) {x y : Nat} (col : Colour) (hx : x < s.cfg.w) (hy : y < s.cfg.h) :
    setPixel s x y col =
      { s with
        mem := Memory.write s.mem (pixelAddr s x y) (paint (Memory.read s.mem (pixelAddr s x y)) (pixelMask s y) col)
        dirty := true } := by
  have h : inPanel s.cfg x y = true := (inPanel_iff _ _ _).mpr ⟨x, y, rfl, rfl, hx, hy⟩
  simp only [setPixel, h, if_true, Int.toNat_natCast]
  rfl

/-- Only MEM and `DIRTY` can change by `SetPixel`. -/
theorem setPixel_frame (s : State) (x y : Int) (col : Colour) :
    setPixel s x y col = { s with mem := (setPixel s x y col).mem, dirty := (setPixel s x y col).dirty } := by
  unfold setPixel
  split <;> rfl

@[simp] theorem setPixel_cfg (s : State) (x y : Int) (col : Colour) : (setPixel s x y col).cfg = s.cfg := by
  rw [setPixel_frame]

@[simp] theorem setPixel_frontIndex (s : State) (x y : Int) (col : Colour) :
    (setPixel s x y col).frontIndex = s.frontIndex := by
  rw [setPixel_frame]; rfl

theorem setPixel_wf {s : State} (hm : Memory.wf s.mem = true) (x y : Int) (col : Colour) :
    Memory.wf (setPixel s x y col).mem = true := by
  unfold setPixel
  split
  · exact Memory.write_wf hm _ _
  · exact hm

/-- The pixel read back after `SetPixel` (42_framebuffer.md R170). -/
theorem setPixel_pixel {s : State} (hm : Memory.wf s.mem = true) {x y x' y' : Nat} (col : Colour) (hx : x < s.cfg.w)
    (hy : y < s.cfg.h) (hx' : x' < s.cfg.w) (hy' : y' < s.cfg.h) :
    (setPixel s x y col).pixel x' y' = if x' = x ∧ y' = y then col.bit else s.pixel x' y' := by
  rw [setPixel_inside s col hx hy]
  change (Memory.read (Memory.write s.mem (pixelAddr s x y) _) (pixelAddr s x' y')).getLsbD (pixelBit s y') =
    if x' = x ∧ y' = y then col.bit else (Memory.read s.mem (pixelAddr s x' y')).getLsbD (pixelBit s y')
  rw [Memory.read_write hm]
  by_cases ha : pixelAddr s x' y' = pixelAddr s x y
  · rw [if_pos ha, paint_bit _ _ _ _ (pixelBit_lt s y'), pixelMask_bit _ _ _ (pixelBit_lt s y')]
    by_cases hb : pixelBit s y' = pixelBit s y
    · have := pixel_injective s hx' hy' hx hy ha hb
      simp [this.1, this.2]
    · have hne : ¬ (x' = x ∧ y' = y) := by rintro ⟨rfl, rfl⟩; exact hb rfl
      simp [hb, hne, ha]
  · have hne : ¬ (x' = x ∧ y' = y) := by rintro ⟨rfl, rfl⟩; exact ha rfl
    simp [ha, hne]

/-! ### Painting a walk -/

/-- The relation of `Painted` for a part of a command: `RESULT` does not change. -/
structure Drawn (s t : State) (P : Int → Int → Prop) (col : Colour) : Prop where
  wf : Memory.wf t.mem = true
  inside : ∀ x y : Nat, x < s.cfg.w → y < s.cfg.h → P x y → t.pixel x y = col.bit
  outside : ∀ x y : Nat, x < s.cfg.w → y < s.cfg.h → ¬ P x y → t.pixel x y = s.pixel x y
  bytes : ∀ a : Nat, (∀ x y : Nat, x < s.cfg.w → y < s.cfg.h → P x y → a ≠ pixelAddr s x y) →
    Memory.read t.mem a = Memory.read s.mem a
  dirty : t.dirty = true ↔ s.dirty = true ∨ ∃ x y : Nat, x < s.cfg.w ∧ y < s.cfg.h ∧ P x y
  rest : t = { s with mem := t.mem, dirty := t.dirty }

theorem Drawn.refl {s : State} (hm : Memory.wf s.mem = true) (col : Colour) : Drawn s s (fun _ _ => False) col where
  wf := hm
  inside := fun _ _ _ _ h => h.elim
  outside := fun _ _ _ _ _ => rfl
  bytes := fun _ _ => rfl
  dirty := by simp
  rest := rfl

theorem Drawn.congr {s t : State} {P Q : Int → Int → Prop} {col : Colour} (h : Drawn s t P col)
    (hPQ : ∀ x y : Nat, x < s.cfg.w → y < s.cfg.h → (P x y ↔ Q x y)) : Drawn s t Q col where
  wf := h.wf
  inside := fun x y hx hy hq => h.inside x y hx hy ((hPQ x y hx hy).mpr hq)
  outside := fun x y hx hy hq => h.outside x y hx hy fun hp => hq ((hPQ x y hx hy).mp hp)
  bytes := fun a ha => h.bytes a fun x y hx hy hp => ha x y hx hy ((hPQ x y hx hy).mp hp)
  dirty := by
    rw [h.dirty]
    constructor
    · rintro (h1 | ⟨x, y, hx, hy, hp⟩)
      · exact .inl h1
      · exact .inr ⟨x, y, hx, hy, (hPQ x y hx hy).mp hp⟩
    · rintro (h1 | ⟨x, y, hx, hy, hp⟩)
      · exact .inl h1
      · exact .inr ⟨x, y, hx, hy, (hPQ x y hx hy).mpr hp⟩
  rest := h.rest

theorem Drawn.congr' {s t : State} {P Q : Int → Int → Prop} {col : Colour} (h : Drawn s t P col)
    (hPQ : ∀ x y, P x y ↔ Q x y) : Drawn s t Q col := h.congr fun x y _ _ => hPQ x y

/-- A byte outside the front instance is not drawn. -/
theorem Drawn.aside {s t : State} {P : Int → Int → Prop} {col : Colour} (h : Drawn s t P col) {a : Nat}
    (ha : ¬ s.inFront a) : Memory.read t.mem a = Memory.read s.mem a :=
  h.bytes a fun x y hx hy _ => by rintro rfl; exact ha (pixelAddr_inFront s hx hy)

/-- Facts of a state that drawing does not change. -/
theorem Drawn.same {s t : State} {P : Int → Int → Prop} {col : Colour} (h : Drawn s t P col) :
    t.cfg = s.cfg ∧ (∀ x y, pixelAddr t x y = pixelAddr s x y) ∧ (∀ y, pixelBit t y = pixelBit s y) := by
  rw [h.rest]
  exact ⟨rfl, fun _ _ => rfl, fun _ => rfl⟩

/-- One part of a command after another, in the same colour. -/
theorem Drawn.trans {s t u : State} {P Q : Int → Int → Prop} {col : Colour} (h : Drawn s t P col)
    (h' : Drawn t u Q col) : Drawn s u (fun x y => P x y ∨ Q x y) col := by
  obtain ⟨hc, haddr, _⟩ := h.same
  refine ⟨h'.wf, ?_, ?_, ?_, ?_, ?_⟩
  · intro x y hx hy hpq
    by_cases hq : Q x y
    · exact h'.inside x y (hc ▸ hx) (hc ▸ hy) hq
    · rw [h'.outside x y (hc ▸ hx) (hc ▸ hy) hq]
      exact h.inside x y hx hy (hpq.resolve_right hq)
  · intro x y hx hy hpq
    rw [h'.outside x y (hc ▸ hx) (hc ▸ hy) fun hq => hpq (.inr hq)]
    exact h.outside x y hx hy fun hp => hpq (.inl hp)
  · intro a ha
    rw [h'.bytes a, h.bytes a fun x y hx hy hp => ha x y hx hy (.inl hp)]
    intro x y hx hy hq
    rw [haddr]
    exact ha x y (hc ▸ hx) (hc ▸ hy) (.inr hq)
  · rw [h'.dirty, h.dirty]
    constructor
    · rintro ((h1 | ⟨x, y, hx, hy, hp⟩) | ⟨x, y, hx, hy, hq⟩)
      · exact .inl h1
      · exact .inr ⟨x, y, hx, hy, .inl hp⟩
      · exact .inr ⟨x, y, hc ▸ hx, hc ▸ hy, .inr hq⟩
    · rintro (h1 | ⟨x, y, hx, hy, hp | hq⟩)
      · exact .inl (.inl h1)
      · exact .inl (.inr ⟨x, y, hx, hy, hp⟩)
      · exact .inr ⟨x, y, hc.symm ▸ hx, hc.symm ▸ hy, hq⟩
  · have e := h.rest
    have e' := h'.rest
    calc u = { t with mem := u.mem, dirty := u.dirty } := e'
      _ = { s with mem := u.mem, dirty := u.dirty } := by rw [e]

/-- `SetPixel` paints its point (42_framebuffer.md R163, R170). -/
theorem setPixel_drawn {s : State} (hm : Memory.wf s.mem = true) (x y : Int) (col : Colour) :
    Drawn s (setPixel s x y col) (fun x' y' => x' = x ∧ y' = y) col := by
  by_cases h : inPanel s.cfg x y = true
  · obtain ⟨a, b, rfl, rfl, ha, hb⟩ := (inPanel_iff _ _ _).mp h
    refine ⟨setPixel_wf hm _ _ _, ?_, ?_, ?_, ?_, setPixel_frame _ _ _ _⟩
    · intro x y hx hy hp
      rw [setPixel_pixel hm col ha hb hx hy, if_pos (by omega)]
    · intro x y hx hy hp
      rw [setPixel_pixel hm col ha hb hx hy, if_neg (by omega)]
    · intro c hc
      rw [setPixel_inside s col ha hb]
      exact Memory.read_write_other _ _ (hc a b ha hb ⟨rfl, rfl⟩)
    · rw [setPixel_inside s col ha hb]
      simp only [true_iff]
      exact .inr ⟨a, b, ha, hb, rfl, rfl⟩
  · have h' : inPanel s.cfg x y = false := by simpa using h
    rw [setPixel_outside col h']
    refine (Drawn.refl hm col).congr fun a b ha hb => ?_
    constructor
    · exact False.elim
    · rintro ⟨rfl, rfl⟩
      exact h ((inPanel_iff _ _ _).mpr ⟨a, b, rfl, rfl, ha, hb⟩)

/-- Plotting a walk paints exactly its points (43_graphics_shapes.md R180). -/
theorem plot_drawn {s : State} (hm : Memory.wf s.mem = true) (points : List Point) (col : Colour) :
    Drawn s (plot s points col) (fun x y => (x, y) ∈ points) col := by
  induction points generalizing s with
  | nil => exact (Drawn.refl hm col).congr fun x y _ _ => by simp
  | cons p rest ih =>
    have h1 := setPixel_drawn hm p.1 p.2 col
    refine (h1.trans (ih h1.wf)).congr fun x y _ _ => ?_
    simp only [List.mem_cons, Prod.ext_iff]

/-- The end of a drawing command turns what its body drew into what the command painted. -/
theorem Drawn.painted {s t : State} {P : Int → Int → Prop} {col : Colour} (h : Drawn s t P col) :
    Painted s t.done P col where
  inside := h.inside
  outside := h.outside
  bytes := h.bytes
  dirty := h.dirty
  result := rfl
  rest := by
    have e := h.rest
    calc t.done = State.done { s with mem := t.mem, dirty := t.dirty } := by rw [← e]
      _ = _ := rfl

end Sys2Proof.Machine
end

