-- ==== Sys2Proof/Laws/Flow.lean ====
section
/-! SUPPORT. Laws of command bodies that read MEM (spec/60_exceptions.md R269), and the frame of every drawing body: only
bytes of the front instance, `DIRTY` and `CURSOR_X` can change (spec/42_framebuffer.md R160). -/

namespace Sys2Proof.Machine

/-! ### Reading -/

@[simp] theorem bytesAt_one (m : Memory) (a : Nat) : bytesAt m a 1 = [Memory.read m a] := rfl

theorem memRead_byte {s : State} {a : Nat} (h : mapped s.cfg a 1 = true) :
    memRead s a 1 = some (Memory.read s.mem a).toNat := by
  simp [memRead, h, leValue]

theorem memRead_half {s : State} {a : Nat} (h : mapped s.cfg a 2 = true) :
    memRead s a 2 = some ((Memory.read s.mem a).toNat + 256 * (Memory.read s.mem (a + 1)).toNat) := by
  simp [memRead, h, leValue, bytesAt, List.range_succ]

/-- A byte of a mapped address is read and the body goes on (20_memory.md R64). -/
theorem readMem_byte {s : State} {a : Nat} (h : mapped s.cfg a 1 = true) :
    readMem a 1 s = .ok (Memory.read s.mem a).toNat s := by
  simp [readMem, memRead_byte h]

/-- A glyph row of a mapped range is read little-endian (20_memory.md R64, R68). -/
theorem readMem_half {s : State} {a : Nat} (h : mapped s.cfg a 2 = true) :
    readMem a 2 s = .ok ((Memory.read s.mem a).toNat + 256 * (Memory.read s.mem (a + 1)).toNat) s := by
  simp [readMem, memRead_half h]

/-- An unmapped read stops the body (20_memory.md R64, 60_exceptions.md R269). -/
theorem readMem_unmapped {s : State} {a n : Nat} (h : mapped s.cfg a n = false) : readMem a n s = .memFault a s := by
  simp [readMem, memRead, h]

/-- No address of `2^32` or more is mapped (20_memory.md R61). -/
theorem mapped_below {c : Config} {a : Nat} (h : mapped c a 1 = true) : a < 2 ^ 32 := by
  obtain ⟨_, _, _, _, _, hs⟩ := cfg_valid c
  obtain ⟨_, hb⟩ := fbBytes_bounds c
  simp only [mapped, Bool.or_eq_true, decide_eq_true_eq, List.any_eq_true, Region.covers, regions] at h
  rcases h with h | ⟨r, hr, h1, h2⟩
  · omega
  · simp only [List.mem_append, List.mem_singleton] at hr
    rcases hr with (rfl | hr) | rfl
    · simp only [fb0Base] at h2; omega
    · split at hr
      · simp only [List.mem_singleton] at hr; subst hr; simp only [fb1Base] at h2; omega
      · simp at hr
    · simp only [assetBase] at h2; omega

/-- The address map, region by region (20_memory.md R61, R62). -/
theorem mapped_iff (c : Config) (a n : Nat) : mapped c a n = true ↔
    n = 0 ∨ (0x1000 ≤ a ∧ a + n ≤ 0x1000 + c.fbBytes) ∨
      (c.doubleBuffered = true ∧ 0x2000 ≤ a ∧ a + n ≤ 0x2000 + c.fbBytes) ∨
      (0x10000 ≤ a ∧ a + n ≤ 0x10000 + c.assetSize) := by
  simp only [mapped, regions, Region.covers, Bool.or_eq_true, decide_eq_true_eq, List.any_eq_true, fb0Base, fb1Base,
    assetBase]
  cases c.doubleBuffered <;> simp

/-- A mapped range starts above the null page and ends within the address space (20_memory.md R60, R61). -/
theorem mapped_end {c : Config} {a n : Nat} (h : mapped c a n = true) (hn : 0 < n) : 0x1000 ≤ a ∧ a + n ≤ 2 ^ 32 := by
  obtain ⟨_, _, _, _, _, hs⟩ := cfg_valid c
  obtain ⟨_, hb⟩ := fbBytes_bounds c
  rcases (mapped_iff c a n).mp h with h | h | h | h <;> omega

/-- The mapped prefix is the longest mapped start of a range (41_bus_abstraction.md R147). -/
theorem mappedPrefix_iff {c : Config} {a k n : Nat} (hk : k ≤ n) : mapped c a k = true ↔ k ≤ mappedPrefix c a n := by
  have hb := fbBytes_bounds c
  unfold mappedPrefix
  by_cases h0 : k = 0
  · subst h0; simp [mapped]
  have hk0 : 0 < k := by omega
  cases hf : (regions c).find? fun r => r.covers a 1 with
  | none =>
    rw [List.find?_eq_none] at hf
    simp only [Nat.le_zero, h0, iff_false, mapped, Bool.or_eq_true, decide_eq_true_eq, false_or, List.any_eq_true,
      not_exists, not_and, Region.covers] at *
    intro r hr h1 h2
    exact hf r hr h1 (by omega)
  | some r =>
    have hr := List.mem_of_find?_eq_some hf
    have hc := List.find?_some hf
    simp only [mapped, Region.covers, decide_eq_true_eq, Bool.or_eq_true, h0, false_or, List.any_eq_true] at hc ⊢
    constructor
    · rintro ⟨r', hr', h1, h2⟩
      suffices r = r' by subst this; omega
      clear hf
      simp only [regions, List.mem_append, List.mem_singleton] at hr hr'
      simp only [fb0Base, fb1Base, assetBase] at hr hr'
      rcases hr with (rfl | hr) | rfl <;> rcases hr' with (rfl | hr') | rfl <;>
        (try (split at hr)) <;> (try (split at hr')) <;> simp_all <;> omega
    · intro h
      exact ⟨r, hr, hc.1, by omega⟩

/-- Byte `j` of a little-endian value (20_memory.md R68). -/
theorem leValue_byte (l : List Byte) (j : Nat) (hj : j < l.length) : leValue l / 256 ^ j % 256 = (l[j]).toNat := by
  induction l generalizing j with
  | nil => simp at hj
  | cons b rest ih =>
    have hb := b.isLt
    cases j with
    | zero => simp [leValue]; omega
    | succ j =>
      have := ih j (by simpa using hj)
      rw [leValue, pow_succ', ← Nat.div_div_eq_div_mul, show (b.toNat + 256 * leValue rest) / 256 = leValue rest by omega,
        this]
      simp

/-- A little-endian value fits its bytes (20_memory.md R68). -/
theorem leValue_lt (l : List Byte) : leValue l < 256 ^ l.length := by
  induction l with
  | nil => simp [leValue]
  | cons b rest ih =>
    have hb := b.isLt
    rw [leValue, List.length_cons, pow_succ']
    omega

/-! ### The frame of a drawing body -/

/-- What a drawing body may do: write bytes of the front instance, setting `DIRTY`, and move `CURSOR_X`. -/
structure Touched (s t : State) : Prop where
  wf : Memory.wf s.mem = true → Memory.wf t.mem = true
  aside : ∀ a, ¬ s.inFront a → Memory.read t.mem a = Memory.read s.mem a
  dirty : s.dirty = true → t.dirty = true
  clean : t.dirty = false → t.mem = s.mem
  rest : t = { s with mem := t.mem, dirty := t.dirty, cursorX := t.cursorX }

theorem Touched.refl (s : State) : Touched s s := ⟨id, fun _ _ => rfl, id, fun _ => rfl, rfl⟩

theorem Touched.cfg {s t : State} (h : Touched s t) : t.cfg = s.cfg := by rw [h.rest]

theorem Touched.frontIndex {s t : State} (h : Touched s t) : t.frontIndex = s.frontIndex := by
  rw [h.rest]; rfl

theorem Touched.inFront {s t : State} (h : Touched s t) (a : Nat) : t.inFront a ↔ s.inFront a := by
  rw [h.rest]; exact Iff.rfl

theorem Touched.trans {s t u : State} (h : Touched s t) (h' : Touched t u) : Touched s u where
  wf := fun hm => h'.wf (h.wf hm)
  aside := fun a ha => by rw [h'.aside a (fun hf => ha ((h.inFront a).mp hf)), h.aside a ha]
  dirty := fun hd => h'.dirty (h.dirty hd)
  clean := fun hd => by
    rw [h'.clean hd]
    refine h.clean ?_
    cases ht : t.dirty
    · rfl
    · rw [h'.dirty ht] at hd; cases hd
  rest := by
    have e := h.rest
    have e' := h'.rest
    calc u = { t with mem := u.mem, dirty := u.dirty, cursorX := u.cursorX } := e'
      _ = { s with mem := u.mem, dirty := u.dirty, cursorX := u.cursorX } := by rw [e]

/-- Storing a byte of the front instance. -/
theorem fbWrite_touched (s : State) {k : Nat} (v : Byte) (hk : k < s.cfg.fbBytes) :
    Touched s (fbWrite s s.frontIndex k v) where
  wf := fun hm => Memory.write_wf hm _ _
  aside := fun a ha => Memory.read_write_other _ _ (by
    rintro rfl
    exact ha ⟨Nat.le_add_right _ _, by unfold State.frontBase; omega⟩)
  dirty := fun _ => rfl
  clean := fun h => by cases h
  rest := rfl

theorem setPixel_touched (s : State) (x y : Int) (col : Colour) : Touched s (setPixel s x y col) := by
  by_cases h : inPanel s.cfg x y = true
  · obtain ⟨a, b, rfl, rfl, ha, hb⟩ := (inPanel_iff _ _ _).mp h
    rw [setPixel_inside s col ha hb]
    exact fbWrite_touched s _ (pixelIndex_lt s ha hb)
  · rw [setPixel_outside col (by simpa using h)]
    exact .refl s

theorem plot_touched (s : State) (points : List Point) (col : Colour) : Touched s (plot s points col) := by
  induction points generalizing s with
  | nil => exact .refl s
  | cons p rest ih => exact (setPixel_touched s p.1 p.2 col).trans (ih _)

theorem advance_touched (s : State) (gw : Nat) : Touched s (advance s gw) :=
  ⟨id, fun _ _ => rfl, id, fun _ => rfl, rfl⟩

theorem Touched.faultBits {s t : State} (h : Touched s t) : t.faultBits = s.faultBits := by rw [h.rest]

/-- The state a body has reached, stopped or not. -/
def Flow.state {α : Type} : Flow α → State
  | .ok _ s => s
  | .memFault _ s => s

theorem Flow.andThen_touched {α β : Type} {s : State} {f : Flow α} {next : α → State → Flow β}
    (hf : Touched s f.state) (hn : ∀ a t, Touched t (next a t).state) : Touched s (f.andThen next).state := by
  cases f with
  | ok a t => exact Touched.trans hf (hn a t)
  | memFault a t => exact hf

theorem readMem_touched (a n : Nat) (s : State) : Touched s (readMem a n s).state := by
  unfold readMem
  split <;> exact .refl s

theorem forCount_touched {body : Nat → State → Flow Unit} (hb : ∀ i s, Touched s (body i s).state) (count first : Nat)
    (s : State) : Touched s (forCount count first body s).state := by
  induction count generalizing first s with
  | zero => exact .refl s
  | succ count ih => exact Flow.andThen_touched (hb first s) fun _ t => ih (first + 1) t

theorem readVertex_touched (p i : Nat) (s : State) : Touched s (readVertex p i s).state :=
  Flow.andThen_touched (readMem_touched _ _ _) fun _ _ =>
    Flow.andThen_touched (readMem_touched _ _ _) fun _ u => .refl u

theorem polylineFrom_touched (p : Nat) (col : Colour) (count i : Nat) (start : Point) (s : State) :
    Touched s (polylineFrom p col count i start s).state := by
  induction count generalizing i start s with
  | zero => exact .refl s
  | succ count ih =>
    exact Flow.andThen_touched (readVertex_touched p i s) fun q t => (plot_touched t _ col).trans (ih _ _ _)

theorem blitPixel_touched (x y : Int) (w p : Nat) (col : Colour) (j i : Nat) (s : State) :
    Touched s (blitPixel x y w p col j i s).state :=
  Flow.andThen_touched (readMem_touched _ _ _) fun v t => by
    change Touched t (if _ then _ else _)
    split
    · exact setPixel_touched _ _ _ _
    · exact .refl t

theorem glyphPixel_touched (x y : Int) (row : Nat) (col : Colour) (j : Nat) (s : State) :
    Touched s (glyphPixel x y row col j s).state := by
  change Touched s (if _ then _ else if _ then _ else _)
  split
  · exact setPixel_touched _ _ _ _
  · split
    · exact setPixel_touched _ _ _ _
    · exact .refl s

theorem glyphRow_touched (x y : Int) (g gw : Nat) (col : Colour) (i : Nat) (s : State) :
    Touched s (glyphRow x y g gw col i s).state :=
  Flow.andThen_touched (readMem_touched _ _ _) fun _ t =>
    forCount_touched (fun j u => glyphPixel_touched _ _ _ _ j u) _ _ t

theorem glyphWidth_touched (g : Nat) (s : State) : Touched s (glyphWidth g s).state := by
  unfold glyphWidth
  split
  · exact .refl s
  · exact readMem_touched _ _ _

theorem putChar_touched (ch : Byte) (col : Colour) (s : State) : Touched s (putChar ch col s).state := by
  unfold putChar
  split
  · refine Flow.andThen_touched (glyphWidth_touched _ s) fun gw t => ?_
    split
    · exact .refl t
    · exact Flow.andThen_touched (forCount_touched (fun i u => glyphRow_touched _ _ _ _ _ i u) _ _ t) fun _ u =>
        advance_touched u gw
  · exact .refl s

theorem putString_touched (col : Colour) (left addr : Nat) (s : State) :
    Touched s (putString col left addr s).state := by
  induction left generalizing addr s with
  | zero => exact .refl s
  | succ left ih =>
    refine Flow.andThen_touched (readMem_touched _ _ _) fun v t => ?_
    split
    · exact .refl t
    · refine Flow.andThen_touched (putChar_touched _ col t) fun drawn u => ?_
      split
      · exact ih _ _
      · exact .refl u

/-- A fold of touching steps touches. -/
theorem foldl_touched {α : Type} {f : State → α → State} (s : State) (l : List α)
    (hf : ∀ t a, Touched s t → a ∈ l → Touched t (f t a)) : Touched s (l.foldl f s) := by
  suffices h : ∀ (l' : List α) (t : State), (∀ a ∈ l', a ∈ l) → Touched s t → Touched s (l'.foldl f t) from
    h l s (fun _ h => h) (.refl s)
  intro l'
  induction l' with
  | nil => exact fun t _ ht => ht
  | cons a rest ih =>
    intro t hl ht
    exact ih _ (fun b hb => hl b (List.mem_cons_of_mem _ hb))
      (ht.trans (hf t a ht (hl a List.mem_cons_self)))

end Sys2Proof.Machine
end

