-- ==== Sys2Proof/Laws/Exec.lean ====
section
/-! SUPPORT. What a command can do: the ownership check as a statement about addresses (spec/42_framebuffer.md R160), the cases
of every drawing command (R160, spec/60_exceptions.md R269), and the next states of the other six commands. -/

namespace Sys2Proof.Machine

/-! ### The ownership check -/

theorem fbBytes_pos (c : Config) : 0 < c.fbBytes := by
  have := (fbBytes_bounds c).1
  omega

/-- The check finds misuse exactly when the transfer in flight reads an address of the front instance
(42_framebuffer.md R160). -/
theorem drawMisuse_eq_false {s : State} : s.drawMisuse = false ↔ s.drawable := by
  unfold State.drawMisuse State.drawable rangesMeet State.inSource State.inFront
  have hp := fbBytes_pos s.cfg
  cases hf : s.xferInFlight
  · simp
  · simp only [Bool.true_and, decide_eq_false_iff_not, forall_const]
    constructor
    · rintro h a ⟨⟨h1, h2⟩, h3, h4⟩
      omega
    · intro h hlt
      exact h (max s.xferSrc.toNat s.frontBase) (by omega)

theorem drawMisuse_of_drawable {s : State} (h : s.drawable) : s.drawMisuse = false := drawMisuse_eq_false.mpr h

theorem drawMisuse_of_not_drawable {s : State} (h : ¬ s.drawable) : s.drawMisuse = true := by
  cases hm : s.drawMisuse
  · exact absurd (drawMisuse_eq_false.mp hm) h
  · rfl

/-- Drawing does not change whether drawing is refused. -/
theorem Touched.drawable {s t : State} (h : Touched s t) (hd : s.drawable) : t.drawable := by
  intro hf a ha
  rw [h.inFront a] at ha
  rw [h.rest] at hf ha
  exact hd hf a ha

@[simp] theorem drawing_allowed {s : State} (h : s.drawable) (body : State → State) : drawing s body = body s := by
  simp [drawing, drawMisuse_of_drawable h]

theorem next_drawing {s : State} (h : s.drawable) (body : State → State) :
    (Host.Outcome.next (drawing s body) : Host.Outcome State Fault Refusal) = .next (body s) := by
  rw [drawing_allowed h]

@[simp] theorem drawing_refused {s : State} (h : ¬ s.drawable) (body : State → State) :
    drawing s body = raise .misuseDraw s := by
  simp [drawing, drawMisuse_of_not_drawable h]

/-! ### How a drawing command ends -/

/-- How a drawing body ends: its writes, then a status that the command may return, or the `MemFault` of a command that reads
MEM; and the value byte of `RESULT`. -/
inductive Ended (i : Instr) (s : State) : State → Prop
  | status {u : State} (v : Byte) (st : Status) (ht : Touched s u) (hr : mayReturn i st = true) (hm : st ≠ .errMisuse)
      (he : st ≠ .errMem) (hc : u.cursorX ≠ s.cursorX → i.isWriteChar = true ∨ i.isWriteString = true)
      (hok : ∀ ch col, i = .writeChar ch col → st = .ok → v = ch)
      (hv : v ≠ 0 → (i.isWriteChar = true ∧ st = .ok) ∨ (i.isWriteString = true ∧ st = .errReject))
      (hp : st = .errBounds ∨ (st = .errReject ∧ i.isWriteChar = true) → u = s) : Ended i s (u.setResult v st)
  | memFault {u : State} (a : Nat) (ht : Touched s u) (hr : i.readsMem = true)
      (hc : u.cursorX ≠ s.cursorX → i.isWriteChar = true ∨ i.isWriteString = true) : Ended i s (raise (.memFault a) u)

/-- A body of a command that always ends with `OK`. -/
theorem Ended.done {i : Instr} {s u : State} (ht : Touched s u) (hc : u.cursorX = s.cursorX) (hw : i.isWriteChar = false) :
    Ended i s u.done :=
  .status 0 .ok ht rfl (by simp) (by simp) (fun h => absurd hc h)
    (fun ch col h => by subst h; simp [Instr.isWriteChar] at hw) (fun h => absurd rfl h) (by simp)

/-- The end of a body that reads MEM and otherwise ends with `OK`. -/
theorem Ended.close {α : Type} {i : Instr} {s : State} {f : Flow α} (ht : Touched s f.state)
    (hc : f.state.cursorX = s.cursorX) (hw : i.isWriteChar = false) (hr : i.readsMem = true) :
    Ended i s (f.close fun _ u => u.done) := by
  cases f with
  | ok v u => exact Ended.done ht hc hw
  | memFault a u => exact .memFault a ht hr (fun h => absurd hc h)

/-- A command that ran was not refused for misuse (60_exceptions.md R261). -/
theorem Ended.result {i : Instr} {s t : State} (h : Ended i s t) : t.result.setWidth 8 ≠ Status.errMisuse.code := by
  cases h with
  | status v st ht hr hm =>
    simp only [State.setResult_result, Status.code_setWidth]
    cases st <;> first | exact absurd rfl hm | decide
  | memFault a =>
    change (0 ++ Status.errMem.code : Half).setWidth 8 ≠ _
    decide

/-- A command that ran has touched the machine and then written `RESULT` and `FAULT`. -/
theorem Ended.touched {i : Instr} {s t : State} (h : Ended i s t) :
    ∃ u, Touched s u ∧ t = { u with result := t.result, faultBits := t.faultBits } := by
  cases h with
  | @status u v st ht => exact ⟨u, ht, rfl⟩
  | @memFault u a ht => exact ⟨u, ht, rfl⟩

/-- Only the two character commands move the cursor (45_graphics_bitmap_text.md R218). -/
theorem Ended.cursor {i : Instr} {s t : State} (h : Ended i s t) (hc : t.cursorX ≠ s.cursorX) :
    i.isWriteChar = true ∨ i.isWriteString = true := by
  cases h with
  | status v st ht hr hm he hcc => exact hcc hc
  | memFault a ht hr hcc => exact hcc hc

/-! ### The cursor under drawing bodies -/

@[simp] theorem setPixel_cursorX (s : State) (x y : Int) (col : Colour) : (setPixel s x y col).cursorX = s.cursorX := by
  rw [setPixel_frame]

@[simp] theorem plot_cursorX (s : State) (points : List Point) (col : Colour) : (plot s points col).cursorX = s.cursorX := by
  induction points generalizing s with
  | nil => rfl
  | cons p rest ih => exact (ih _).trans (setPixel_cursorX _ _ _ _)

theorem readMem_state (a n : Nat) (s : State) : (readMem a n s).state = s := by
  unfold readMem
  split <;> rfl

theorem Flow.andThen_cursorX {α β : Type} {s : State} {f : Flow α} {next : α → State → Flow β}
    (hf : f.state.cursorX = s.cursorX) (hn : ∀ a t, (next a t).state.cursorX = t.cursorX) :
    (f.andThen next).state.cursorX = s.cursorX := by
  cases f with
  | ok a t => exact (hn a t).trans hf
  | memFault a t => exact hf

theorem forCount_cursorX {body : Nat → State → Flow Unit} (hb : ∀ i s, (body i s).state.cursorX = s.cursorX)
    (count first : Nat) (s : State) : (forCount count first body s).state.cursorX = s.cursorX := by
  induction count generalizing first s with
  | zero => rfl
  | succ count ih => exact Flow.andThen_cursorX (hb first s) fun _ t => ih (first + 1) t

theorem readVertex_cursorX (p i : Nat) (s : State) : (readVertex p i s).state.cursorX = s.cursorX :=
  Flow.andThen_cursorX (by rw [readMem_state]) fun _ t => Flow.andThen_cursorX (by rw [readMem_state]) fun _ _ => rfl

theorem polylineFrom_cursorX (p : Nat) (col : Colour) (count i : Nat) (start : Point) (s : State) :
    (polylineFrom p col count i start s).state.cursorX = s.cursorX := by
  induction count generalizing i start s with
  | zero => rfl
  | succ count ih =>
    exact Flow.andThen_cursorX (readVertex_cursorX p i s) fun q t => (ih _ _ _).trans (plot_cursorX _ _ _)

theorem blitPixel_cursorX (x y : Int) (w p : Nat) (col : Colour) (j i : Nat) (s : State) :
    (blitPixel x y w p col j i s).state.cursorX = s.cursorX :=
  Flow.andThen_cursorX (by rw [readMem_state]) fun v t => by
    change (if _ then _ else _ : State).cursorX = t.cursorX
    split
    · exact setPixel_cursorX _ _ _ _
    · rfl

theorem foldl_cursorX {α : Type} {f : State → α → State} (hf : ∀ t a, (f t a).cursorX = t.cursorX) (l : List α) (s : State) :
    (l.foldl f s).cursorX = s.cursorX := by
  induction l generalizing s with
  | nil => rfl
  | cons a rest ih => exact (ih _).trans (hf _ _)

/-! ### Fill, invert, load -/

theorem fillBuffer_touched (s : State) (v : Byte) : Touched s (fillBuffer s s.frontIndex v) :=
  foldl_touched s _ fun t k ht hk => by
    rw [← ht.frontIndex]
    exact fbWrite_touched t v (by rw [ht.cfg]; exact List.mem_range.mp hk)

theorem fillBuffer_cursorX (s : State) (second : Bool) (v : Byte) : (fillBuffer s second v).cursorX = s.cursorX :=
  foldl_cursorX (f := fun t k => fbWrite t second k v) (fun _ _ => rfl) _ s

theorem invertPixel_touched (s : State) {x y : Nat} (hx : x < s.cfg.w) (hy : y < s.cfg.h) : Touched s (invertPixel s x y) :=
  fbWrite_touched s _ (pixelIndex_lt s hx hy)

/-- The points of a box (42_framebuffer.md R166, 43_graphics_shapes.md R189). -/
theorem mem_boxPoints {x y : Int} {width height : Nat} {p : Point} :
    p ∈ boxPoints x y width height ↔ x ≤ p.1 ∧ p.1 < x + width ∧ y ≤ p.2 ∧ p.2 < y + height := by
  obtain ⟨a, b⟩ := p
  simp only [boxPoints, List.mem_flatMap, List.mem_map, List.mem_range, Prod.mk.injEq]
  constructor
  · rintro ⟨j, hj, i, hi, rfl, rfl⟩
    omega
  · rintro ⟨h1, h2, h3, h4⟩
    exact ⟨(b - y).toNat, by omega, (a - x).toNat, by omega, by omega, by omega⟩

/-- The corners of an invert that is carried out are in order and on the panel (42_framebuffer.md R166). -/
theorem invertInBounds_iff (c : Config) (x1 y1 x2 y2 : Byte) :
    invertInBounds c x1 y1 x2 y2 = true ↔ x1.toNat ≤ x2.toNat ∧ y1.toNat ≤ y2.toNat ∧ x2.toNat < c.w ∧ y2.toNat < c.h := by
  simp [invertInBounds]

/-- A point of the box of an invert is a pixel of the box. -/
theorem mem_invertBox {x1 y1 x2 y2 : Byte} {p : Point} (hx : x1.toNat ≤ x2.toNat) (hy : y1.toNat ≤ y2.toNat)
    (hp : p ∈ boxPoints (coord x1) (coord y1) (x2.toNat - x1.toNat + 1) (y2.toNat - y1.toNat + 1)) :
    x1.toNat ≤ p.1.toNat ∧ p.1.toNat ≤ x2.toNat ∧ y1.toNat ≤ p.2.toNat ∧ p.2.toNat ≤ y2.toNat := by
  rw [mem_boxPoints] at hp
  simp only [coord] at hp
  omega

theorem invertBox_touched (s : State) {x1 y1 x2 y2 : Byte} (h : invertInBounds s.cfg x1 y1 x2 y2 = true) :
    Touched s (invertBox s x1 y1 x2 y2) := by
  obtain ⟨hx, hy, hx2, hy2⟩ := (invertInBounds_iff _ _ _ _ _).mp h
  refine foldl_touched s _ fun t p ht hp => ?_
  have := mem_invertBox hx hy hp
  exact invertPixel_touched t (by rw [ht.cfg]; omega) (by rw [ht.cfg]; omega)

theorem invertBox_cursorX (s : State) (x1 y1 x2 y2 : Byte) : (invertBox s x1 y1 x2 y2).cursorX = s.cursorX :=
  foldl_cursorX (f := fun t (p : Point) => invertPixel t p.1.toNat p.2.toNat) (fun _ _ => rfl) _ s

/-- A counted body whose parts touch, for the indices it visits. -/
theorem forCount_touched_upto {c : Config} {n : Nat} {body : Nat → State → Flow Unit}
    (hb : ∀ i s, i < n → s.cfg = c → Touched s (body i s).state) (count first : Nat) (s : State) (hn : first + count ≤ n)
    (hs : s.cfg = c) : Touched s (forCount count first body s).state := by
  induction count generalizing first s with
  | zero => exact .refl s
  | succ count ih =>
    have h1 := hb first s (by omega) hs
    unfold forCount
    cases hf : body first s with
    | memFault a t => rw [hf] at h1; exact h1
    | ok v t =>
      rw [hf] at h1
      exact h1.trans (ih (first + 1) t (by omega) (h1.cfg.trans hs))

theorem loadByte_touched (src j : Nat) (s : State) (hj : j < s.cfg.fbBytes) : Touched s (loadByte src j s).state := by
  unfold loadByte
  cases hf : readMem (src + j) 1 s with
  | memFault a t =>
    have := readMem_state (src + j) 1 s
    rw [hf] at this
    cases this
    exact .refl t
  | ok v t =>
    have := readMem_state (src + j) 1 s
    rw [hf] at this
    cases this
    exact fbWrite_touched t _ hj

theorem loadByte_cursorX (src j : Nat) (s : State) : (loadByte src j s).state.cursorX = s.cursorX :=
  Flow.andThen_cursorX (by rw [readMem_state]) fun _ _ => rfl

/-! ### Characters -/

theorem glyphPixel_cursorX (x y : Int) (row : Nat) (col : Colour) (j : Nat) (s : State) :
    (glyphPixel x y row col j s).state.cursorX = s.cursorX := by
  change (if _ then _ else if _ then _ else _ : State).cursorX = s.cursorX
  split
  · exact setPixel_cursorX _ _ _ _
  · split
    · exact setPixel_cursorX _ _ _ _
    · rfl

/-- A character that is not drawn has changed nothing (45_graphics_bitmap_text.md R223 (1)). -/
theorem putChar_rejected {ch : Byte} {col : Colour} {s u : State} (h : putChar ch col s = .ok false u) : u = s := by
  unfold putChar at h
  split at h
  · have hw : (glyphWidth (ch.toNat - 32) s).state = s := by
      unfold glyphWidth
      split
      · rfl
      · exact readMem_state _ _ _
    cases hf : glyphWidth (ch.toNat - 32) s with
    | memFault a t => rw [hf] at h; cases h
    | ok gw t =>
      rw [hf] at h hw
      cases hw
      simp only [Flow.andThen] at h
      split at h
      · cases h; rfl
      · split at h <;> cases h
  · cases h; rfl

/-! ### Every drawing command -/

theorem execWriteChar_ended {s : State} (hd : s.drawable) (ch : Byte) (col : Colour) :
    ∃ t, execWriteChar ch col s = .next t ∧ Ended (.writeChar ch col) s t := by
  refine ⟨_, rfl, ?_⟩
  rw [drawing_allowed hd]
  have ht := putChar_touched ch col s
  cases hf : putChar ch col s with
  | memFault a u => rw [hf] at ht; exact .memFault a ht rfl fun _ => .inl rfl
  | ok drawn u =>
    rw [hf] at ht
    cases drawn with
    | true =>
      exact .status ch .ok ht rfl (by simp) (by simp) (fun _ => .inl rfl) (fun _ _ h _ => by cases h; rfl)
        (fun _ => .inl ⟨rfl, rfl⟩) (by simp)
    | false =>
      exact .status 0 .errReject ht rfl (by simp) (by simp) (fun _ => .inl rfl) (fun _ _ _ h => by cases h)
        (fun h => absurd rfl h) (fun _ => putChar_rejected hf)

/-- A string ends drawn, or refused at a character, or stopped at an unmapped byte. -/
theorem putString_report (col : Colour) (left addr : Nat) (s : State) {v : Byte} {st : Status} {u : State}
    (h : putString col left addr s = .ok (v, st) u) : (v = 0 ∧ st = .ok) ∨ st = .errReject := by
  induction left generalizing addr s with
  | zero => cases h
  | succ left ih =>
    unfold putString at h
    cases hr : readMem addr 1 s with
    | memFault a t => rw [hr] at h; cases h
    | ok c t =>
      rw [hr] at h
      simp only [Flow.andThen] at h
      split at h
      · cases h; exact .inl ⟨rfl, rfl⟩
      · split at h
        · split at h
          · exact ih _ _ h
          · cases h; exact .inr rfl
        · cases h

/-- A string that is refused stops at a byte of its own, not the terminator, that is no character to be drawn: read where the
string stopped, it is the one reported (45_graphics_bitmap_text.md R222). -/
theorem putString_refused (col : Colour) (left addr : Nat) (s : State) {v : Byte} {u : State}
    (h : putString col left addr s = .ok (v, .errReject) u) :
    ∃ k, mapped s.cfg (addr + k) 1 = true ∧ Memory.read u.mem (addr + k) = v ∧ v ≠ 0 ∧ putChar v col u = .ok false u := by
  induction left generalizing addr s with
  | zero => cases h
  | succ left ih =>
    unfold putString at h
    cases hm : mapped s.cfg addr 1 with
    | false => rw [readMem_unmapped hm] at h; cases h
    | true =>
      rw [readMem_byte hm] at h
      simp only [Flow.andThen, BitVec.ofNat_toNat, BitVec.setWidth_eq] at h
      split at h
      · cases h
      · rename_i hv
        have ht := putChar_touched (Memory.read s.mem addr) col s
        cases hp : putChar (Memory.read s.mem addr) col s with
        | memFault a t => rw [hp] at h; cases h
        | ok drawn t =>
          rw [hp] at h ht
          cases drawn with
          | true =>
            obtain ⟨k, h1, h2⟩ := ih _ _ h
            exact ⟨k + 1, by rw [← ht.cfg, Nat.add_comm k, ← Nat.add_assoc]; exact h1, by
              rw [Nat.add_comm k, ← Nat.add_assoc]; exact h2⟩
          | false =>
            cases h
            cases putChar_rejected hp
            exact ⟨0, hm, rfl, fun h0 => hv (by rw [h0]; rfl), hp⟩

theorem execWriteString_ended {s : State} (hd : s.drawable) (str : Word) (col : Colour) :
    ∃ t, execWriteString str col s = .next t ∧ Ended (.writeString str col) s t := by
  refine ⟨_, rfl, ?_⟩
  rw [drawing_allowed hd]
  have ht := putString_touched col (memSize - str.toNat) str.toNat s
  cases hf : putString col (memSize - str.toNat) str.toNat s with
  | memFault a u => rw [hf] at ht; exact .memFault a ht rfl fun _ => .inr rfl
  | ok report u =>
    rw [hf] at ht
    obtain ⟨v, st⟩ := report
    rcases putString_report col _ _ _ hf with ⟨rfl, rfl⟩ | rfl
    · exact .status 0 .ok ht rfl (by simp) (by simp) (fun _ => .inr rfl) (fun _ _ h => by cases h) (fun h => absurd rfl h)
        (by simp)
    · exact .status v .errReject ht rfl (by simp) (by simp) (fun _ => .inr rfl) (fun _ _ h => by cases h)
        (fun _ => .inr ⟨rfl, rfl⟩) (by simp [Instr.isWriteChar])

/-- How a command of bounds ends when they are not met. -/
theorem Ended.bounds {i : Instr} (s : State) (hr : i.reportsBounds = true) (hw : i.isWriteChar = false) :
    Ended i s (s.setResult 0 .errBounds) :=
  .status 0 .errBounds (.refl s) hr (by simp) (by simp) (fun h => absurd rfl h)
    (fun ch col h => by subst h; simp [Instr.isWriteChar] at hw) (fun h => absurd rfl h) (fun _ => rfl)

/-- Every drawing command: refused for misuse when it is not drawable, else its body ends (42_framebuffer.md R160). -/
theorem exec_drawing (i : Instr) (hi : i.isDrawing = true) (s : State) :
    (¬ s.drawable → exec i s = .next (raise .misuseDraw s)) ∧
      (s.drawable → ∃ t, exec i s = .next t ∧ Ended i s t) := by
  refine ⟨fun hd => ?_, fun hd => ?_⟩
  · cases i <;> first
      | (cases hi; done)
      | exact congrArg Host.Outcome.next (drawing_refused hd _)
  · cases i with
    | init | setDisplayOn | setContrast | updateScreen | beginTransfer | setCursor => cases hi
    | drawPixel x y col =>
      exact ⟨_, next_drawing hd _, .done (setPixel_touched _ _ _ _) (setPixel_cursorX _ _ _ _) rfl⟩
    | drawLine => exact ⟨_, next_drawing hd _, .done (plot_touched _ _ _) (plot_cursorX _ _ _) rfl⟩
    | drawCircle => exact ⟨_, next_drawing hd _, .done (plot_touched _ _ _) (plot_cursorX _ _ _) rfl⟩
    | fillCircle => exact ⟨_, next_drawing hd _, .done (plot_touched _ _ _) (plot_cursorX _ _ _) rfl⟩
    | drawArc => exact ⟨_, next_drawing hd _, .done (plot_touched _ _ _) (plot_cursorX _ _ _) rfl⟩
    | drawRectangle => exact ⟨_, next_drawing hd _, .done (plot_touched _ _ _) (plot_cursorX _ _ _) rfl⟩
    | fillRectangle => exact ⟨_, next_drawing hd _, .done (plot_touched _ _ _) (plot_cursorX _ _ _) rfl⟩
    | drawPolyline verts count col =>
      refine ⟨_, next_drawing hd _, ?_⟩
      split
      · exact .done (.refl s) rfl rfl
      · exact Ended.close
          (Flow.andThen_touched (readVertex_touched _ _ _) fun _ _ => polylineFrom_touched _ _ _ _ _ _)
          (Flow.andThen_cursorX (readVertex_cursorX _ _ _) fun _ _ => polylineFrom_cursorX _ _ _ _ _ _) rfl rfl
    | drawBitmap =>
      exact ⟨_, next_drawing hd _, Ended.close
        (forCount_touched (fun _ _ => forCount_touched (fun _ _ => blitPixel_touched _ _ _ _ _ _ _ _) _ _ _) _ _ _)
        (forCount_cursorX (fun _ _ => forCount_cursorX (fun _ _ => blitPixel_cursorX _ _ _ _ _ _ _ _) _ _ _) _ _ _) rfl rfl⟩
    | invertRectangle x1 y1 x2 y2 =>
      refine ⟨_, next_drawing hd _, ?_⟩
      split
      · exact .done (invertBox_touched s (by assumption)) (invertBox_cursorX _ _ _ _ _) rfl
      · exact .bounds s rfl rfl
    | fill col => exact ⟨_, next_drawing hd _, .done (fillBuffer_touched _ _) (fillBuffer_cursorX _ _ _) rfl⟩
    | loadBuffer src len =>
      refine ⟨_, next_drawing hd _, ?_⟩
      split
      · exact .bounds s rfl rfl
      · exact Ended.close
          (forCount_touched_upto (c := s.cfg) (n := s.cfg.fbBytes)
            (fun j t hj ht => loadByte_touched _ j t (by rw [ht]; exact hj)) _ _ _ (by omega) rfl)
          (forCount_cursorX (fun _ _ => loadByte_cursorX _ _ _) _ _ _) rfl rfl
    | writeChar ch col => exact execWriteChar_ended hd ch col
    | writeString str col => exact execWriteString_ended hd str col

end Sys2Proof.Machine
end

