-- ==== Sys2Proof/Laws/Session.lean ====
section
/-! SUPPORT. The next states of the session's steps and of `BEGIN_TRANSFER` (spec/46_session.md, spec/40_transfer_engine.md): the
command path, the start of a transfer and of a sync, the completion. -/

namespace Sys2Proof.Machine

/-! ### The command path -/

/-- A sequence of display commands: the records and the wire of each, in order (41_bus_abstraction.md R149). -/
theorem foldl_sendCommand (l : List DisplayCommand) (s : State) :
    l.foldl sendCommand s = { s with
      cmdLog := s.cmdLog ++ l.map fun d => .cmd d.opcode d.param
      busLog := s.busLog ++ l.flatMap (commandWire s.cfg)
      busDC := if l = [] then s.busDC else commandLevel s.cfg s.busDC } := by
  induction l generalizing s with
  | nil => simp
  | cons d rest ih =>
    rw [List.foldl_cons, ih]
    cases hb : s.cfg.bus <;> cases rest <;> simp [sendCommand, commandLevel, hb]

/-- Collaborator calls are recorded in order (41_bus_abstraction.md R154). -/
theorem foldl_recordCall (l : List CommandEvent) (s : State) :
    l.foldl recordCall s = { s with cmdLog := s.cmdLog ++ l } := by
  induction l generalizing s with
  | nil => simp
  | cons e rest ih => rw [List.foldl_cons, ih]; simp [recordCall]

theorem onCommandPath_refused {s : State} (h : s.xferInFlight = true) (body : State → State) :
    onCommandPath s body = raise .misuseBus s := by simp [onCommandPath, h]

theorem onCommandPath_free {s : State} (h : s.xferInFlight = false) (body : State → State) :
    onCommandPath s body = body s := by simp [onCommandPath, h]

/-- `INIT` with nothing in flight (46_session.md R236). -/
theorem execInit_free {s : State} (h : s.xferInFlight = false) (mode : Byte) :
    execInit mode s = .next { s with
      mapMode := lowBit mode
      sstate := .idle
      contrast := s.cfg.contrastInit
      displayOn := true
      cmdLog := s.cmdLog ++ resetPulse s.cfg ++ (bringUp s.cfg).map fun d => .cmd d.opcode d.param
      busLog := s.busLog ++ (bringUp s.cfg).flatMap (commandWire s.cfg)
      busDC := commandLevel s.cfg s.busDC
      result := 0 } := by
  simp only [execInit, onCommandPath_free h, foldl_recordCall, foldl_sendCommand]
  rfl

/-! ### Starting a transfer -/

/-- `BeginTransfer` of at least one byte with nothing in flight: the context, and the first chunk (40_transfer_engine.md
R122, R124). -/
theorem beginTransfer_starts {s : State} (h : s.xferInFlight = false) (src len : Word) (addr : BitVec 7) (owner : Owner)
    (hl : len ≠ 0) :
    beginTransfer s src len addr owner = { s with
      xferAddr := addr, xferSrc := src, xferLen := len, xferDone := 0, xferOwner := owner, xferInFlight := true
      xferChunk := BitVec.ofNat 8 (min 255 len.toNat)
      busPending := some ⟨.first, addr, src, BitVec.ofNat 8 (min 255 len.toNat), decide (len.toNat ≤ 255)⟩
      chunkLog := s.chunkLog ++ [⟨.first, addr, src, BitVec.ofNat 8 (min 255 len.toNat), decide (len.toNat ≤ 255)⟩] } := by
  have hd : (min 255 len.toNat = len.toNat) = (len.toNat ≤ 255) := by
    rw [eq_iff_iff]; omega
  simp [beginTransfer, h, newTransfer, issueChunk, nextChunk, maxChunk, hd]
  exact fun h0 => absurd h0 hl

/-- `BeginTransfer` of no byte with nothing in flight (40_transfer_engine.md R123). -/
theorem beginTransfer_empty {s : State} (h : s.xferInFlight = false) (src : Word) (addr : BitVec 7) :
    beginTransfer s src 0 addr .host = { s with
      xferAddr := addr, xferSrc := src, xferLen := 0, xferDone := 0, xferOwner := .host, xferChunk := 0
      lastOk := true, cbLog := s.cbLog ++ [⟨.host, true⟩] } := by
  simp [beginTransfer, h, newTransfer, complete]

/-! ### Starting a sync -/

/-- The gate as its three terms (46_session.md R242). -/
theorem gate_iff (s : State) : s.gate = true ↔
    s.displayOn = true ∧ s.xferInFlight = false ∧ (s.cfg.dirtyTracking = true → s.dirty = true) := by
  cases h1 : s.displayOn <;> cases h2 : s.xferInFlight <;> cases h3 : s.cfg.dirtyTracking <;> cases h4 : s.dirty <;>
    simp [State.gate, h1, h2, h3, h4]

/-- The base of the buffer a sync transmits (46_session.md R246). -/
theorem syncSource_eq (s : State) :
    s.syncSource = if s.cfg.doubleBuffered = true ∧ s.front = false then 0x2000#32 else 0x1000#32 := by
  cases h1 : s.cfg.doubleBuffered <;> cases h2 : s.front <;> simp [State.syncSource, h1, h2, fbBase, fb0Base, fb1Base]

theorem fbBytes_word (c : Config) (h : 4 ≤ c.fbBytes ∧ c.fbBytes ≤ 4096) :
    (BitVec.ofNat 32 c.fbBytes).toNat = c.fbBytes ∧ BitVec.ofNat 32 c.fbBytes ≠ 0#32 := by
  have ht : (BitVec.ofNat 32 c.fbBytes).toNat = c.fbBytes := by
    rw [BitVec.toNat_ofNat]; omega
  refine ⟨ht, fun h0 => ?_⟩
  rw [h0] at ht
  simp at ht
  omega

/-- With a pending request and the gate open the sync begins (46_session.md R243). -/
theorem trySyncStart_begins {s : State} (hp : s.sstate = .syncPending) (hg : s.gate = true)
    (hb : 4 ≤ s.cfg.fbBytes ∧ s.cfg.fbBytes ≤ 4096) : trySyncStart s = s.syncBegun := by
  obtain ⟨ht, h0⟩ := fbBytes_word s.cfg hb
  have hf := ((gate_iff s).mp hg).2.1
  simp only [trySyncStart, hp, hg, and_self, if_true, beginTransfer_starts hf _ _ _ _ h0, ht, syncSource_eq]
  rfl

/-- Without them nothing happens (46_session.md R243). -/
theorem trySyncStart_waits {s : State} (h : s.sstate ≠ .syncPending ∨ s.gate = false) : trySyncStart s = s := by
  rcases h with h | h <;> simp [trySyncStart, h]

end Sys2Proof.Machine
end

