-- ==== Sys2Proof/Laws/Command.lean ====
section
/-! SUPPORT. What a command can do, said once: every command answers a next state, and which one (spec/42_framebuffer.md R160,
spec/40_transfer_engine.md R121 to R124, spec/46_session.md R236 to R243, spec/60_exceptions.md R264 to R266). -/

namespace Sys2Proof.Machine

/-- The state after `BEGIN_TRANSFER` of at least one byte, before its `RESULT` (40_transfer_engine.md R122, R124). -/
def State.transferBegun (s : State) (addr : BitVec 7) (src len : Word) : State :=
  let first : Chunk := ⟨.first, addr, src, BitVec.ofNat 8 (min 255 len.toNat), decide (len.toNat ≤ 255)⟩
  { s with
    xferAddr := addr, xferSrc := src, xferLen := len, xferDone := 0, xferOwner := .host, xferInFlight := true
    xferChunk := BitVec.ofNat 8 (min 255 len.toNat), busPending := some first, chunkLog := s.chunkLog ++ [first] }

/-- The state after `BEGIN_TRANSFER` of no byte, before its `RESULT` (40_transfer_engine.md R123). -/
def State.transferEmpty (s : State) (addr : BitVec 7) (src : Word) : State :=
  { s with
    xferAddr := addr, xferSrc := src, xferLen := 0, xferDone := 0, xferOwner := .host, xferChunk := 0, lastOk := true
    cbLog := s.cbLog ++ [⟨.host, true⟩] }

/-- The state after `INIT`, before its `RESULT` (46_session.md R236 to R238). -/
def State.broughtUp (s : State) (mode : Byte) : State :=
  { s with
    mapMode := lowBit mode, sstate := .idle, contrast := s.cfg.contrastInit, displayOn := true
    cmdLog := s.cmdLog ++ resetPulse s.cfg ++ (bringUp s.cfg).map fun d => .cmd d.opcode d.param
    busLog := s.busLog ++ (bringUp s.cfg).flatMap (commandWire s.cfg), busDC := commandLevel s.cfg s.busDC }

/-- How a command ran: the next state it answered, and when. -/
inductive Ran (i : Instr) (s : State) : State → Prop
  | misuseDraw (hi : i.isDrawing = true) (hd : ¬ s.drawable) : Ran i s (raise .misuseDraw s)
  | ended {t : State} (hi : i.isDrawing = true) (hd : s.drawable) (h : Ended i s t) : Ran i s t
  | misuseBus (hi : i.usesCommandPath = true) (hf : s.xferInFlight = true) : Ran i s (raise .misuseBus s)
  | misuseXfer (a : Byte) (b n : Word) (hi : i = .beginTransfer a b n) (hf : s.xferInFlight = true) :
    Ran i s (raise .misuseXfer s)
  | init (mode : Byte) (hi : i = .init mode) (hf : s.xferInFlight = false) : Ran i s (s.broughtUp mode).done
  | displayOn (v : Byte) (hi : i = .setDisplayOn v) (hf : s.xferInFlight = false) :
    Ran i s { sendCommand s (bare (if lowBit v then 0xAF else 0xAE)) with displayOn := lowBit v }.done
  | contrast (v : Byte) (hi : i = .setContrast v) (hf : s.xferInFlight = false) :
    Ran i s { sendCommand s (withParam 0x81 v) with contrast := v }.done
  | started (a : Byte) (b n : Word) (hi : i = .beginTransfer a b n) (hf : s.xferInFlight = false) (hn : n ≠ 0) :
    Ran i s (s.transferBegun (a.setWidth 7) b n).done
  | empty (a : Byte) (b : Word) (hi : i = .beginTransfer a b 0) (hf : s.xferInFlight = false) :
    Ran i s (s.transferEmpty (a.setWidth 7) b).done
  | cursor (x y : Byte) (hi : i = .setCursor x y) :
    Ran i s { s with cursorX := x.setWidth 16, cursorY := y.setWidth 16 }.done
  | errState (hi : i = .updateScreen) (hs : s.sstate = .uninitialized ∨ s.sstate = .initializing) :
    Ran i s (s.setResult 0 .errState)
  | errBusy (hi : i = .updateScreen) (hs : s.sstate = .syncInFlight) : Ran i s (s.setResult 0 .errBusy)
  | syncs (hi : i = .updateScreen) (hs : s.sstate = .idle ∨ s.sstate = .syncPending) (hg : s.gate = true) :
    Ran i s s.syncBegun.done
  | waits (hi : i = .updateScreen) (hs : s.sstate = .idle ∨ s.sstate = .syncPending) (hg : s.gate = false) :
    Ran i s { s with sstate := .syncPending }.done

/-- `UPDATE_SCREEN` in each session state (46_session.md R241). -/
theorem updateScreen_ran (s : State) : ∃ t, exec .updateScreen s = .next t ∧ Ran .updateScreen s t := by
  simp only [exec, execUpdateScreen]
  refine ⟨_, rfl, ?_⟩
  have hb := fbBytes_bounds s.cfg
  cases hs : s.sstate with
  | uninitialized => exact .errState rfl (.inl hs)
  | initializing => exact .errState rfl (.inr hs)
  | syncInFlight => exact .errBusy rfl hs
  | idle =>
    dsimp only
    cases hg : s.gate
    · rw [trySyncStart_waits (s := { s with sstate := .syncPending }) (.inr hg)]
      exact .waits rfl (.inl hs) hg
    · rw [trySyncStart_begins (s := { s with sstate := .syncPending }) rfl hg hb]
      exact .syncs rfl (.inl hs) hg
  | syncPending =>
    dsimp only
    cases hg : s.gate
    · rw [trySyncStart_waits (.inr hg)]
      have h : Ran .updateScreen s { s with sstate := .syncPending }.done := .waits rfl (.inr hs) hg
      rw [← hs] at h
      exact h
    · rw [trySyncStart_begins hs hg hb]
      exact .syncs rfl (.inr hs) hg

/-- `BEGIN_TRANSFER` (40_transfer_engine.md R121 to R123). -/
theorem beginTransfer_ran (a : Byte) (b n : Word) (s : State) :
    ∃ t, exec (.beginTransfer a b n) s = .next t ∧ Ran (.beginTransfer a b n) s t := by
  simp only [exec, execBeginTransfer]
  refine ⟨_, rfl, ?_⟩
  cases hf : s.xferInFlight
  · simp only [Bool.false_eq_true, if_false, deviceAddress]
    by_cases hn : n = 0
    · subst hn
      rw [beginTransfer_empty hf]
      exact .empty a b rfl hf
    · rw [beginTransfer_starts hf _ _ _ _ hn]
      exact .started a b n rfl hf hn
  · exact .misuseXfer a b n rfl hf

/-- Every command answers a next state: no command stops the machine (60_exceptions.md R262). -/
theorem exec_ran (i : Instr) (s : State) : ∃ t, exec i s = .next t ∧ Ran i s t := by
  by_cases hi : i.isDrawing = true
  · obtain ⟨h1, h2⟩ := exec_drawing i hi s
    by_cases hd : s.drawable
    · obtain ⟨t, ht, he⟩ := h2 hd
      exact ⟨t, ht, .ended hi hd he⟩
    · exact ⟨_, h1 hd, .misuseDraw hi hd⟩
  · cases i with
    | updateScreen => exact updateScreen_ran s
    | beginTransfer a b n => exact beginTransfer_ran a b n s
    | setCursor x y => exact ⟨_, rfl, .cursor x y rfl⟩
    | init mode =>
      cases hf : s.xferInFlight
      · exact ⟨_, execInit_free hf mode, .init mode rfl hf⟩
      · exact ⟨_, congrArg Host.Outcome.next (onCommandPath_refused hf _), .misuseBus rfl hf⟩
    | setDisplayOn v =>
      cases hf : s.xferInFlight
      · exact ⟨_, congrArg Host.Outcome.next (onCommandPath_free hf _), .displayOn v rfl hf⟩
      · exact ⟨_, congrArg Host.Outcome.next (onCommandPath_refused hf _), .misuseBus rfl hf⟩
    | setContrast v =>
      cases hf : s.xferInFlight
      · exact ⟨_, congrArg Host.Outcome.next (onCommandPath_free hf _), .contrast v rfl hf⟩
      · exact ⟨_, congrArg Host.Outcome.next (onCommandPath_refused hf _), .misuseBus rfl hf⟩
    | _ => exact absurd rfl hi

/-- The command's next state, as the relation says it. -/
theorem ran_of_exec {i : Instr} {s t : State} (h : exec i s = .next t) : Ran i s t := by
  obtain ⟨u, hu, hr⟩ := exec_ran i s
  rw [hu] at h
  cases h
  exact hr

/-- A command that is carried out as a drawing, or that leaves memory and `DIRTY` alone (20_memory.md R66). -/
theorem exec_mem {i : Instr} {s t : State} (h : exec i s = .next t) :
    (i.isDrawing = true ∧ s.drawable ∧ Ended i s t) ∨ (t.mem = s.mem ∧ t.dirty = s.dirty) := by
  cases ran_of_exec h with
  | ended hi hd he => exact .inl ⟨hi, hd, he⟩
  | _ => exact .inr ⟨rfl, rfl⟩

/-- A command while a transfer is in flight: a drawing aside of the source, or registers that no transfer looks at
(40_transfer_engine.md R122, 41_bus_abstraction.md R153, 42_framebuffer.md R160). -/
theorem exec_flight {i : Instr} {s t : State} (hf : s.xferInFlight = true) (hx : exec i s = .next t) :
    (∃ u, Touched s u ∧ s.drawable ∧ t = { u with result := t.result, faultBits := t.faultBits }) ∨
      t = { s with
        sstate := t.sstate, cursorX := t.cursorX, cursorY := t.cursorY, result := t.result, faultBits := t.faultBits } := by
  cases ran_of_exec hx with
  | ended hi hd he =>
    obtain ⟨u, hu, htu⟩ := he.touched
    exact .inl ⟨u, hu, hd, htu⟩
  | syncs hi hs hg =>
    have := ((gate_iff s).mp hg).2.1
    simp_all
  | _ => first | exact .inr rfl | simp_all

/-- The one place a sync begins, in its two cases (46_session.md R243). -/
theorem trySyncStart_cases (s : State) :
    (s.sstate = .syncPending ∧ s.gate = true ∧ trySyncStart s = s.syncBegun) ∨
      (¬ (s.sstate = .syncPending ∧ s.gate = true) ∧ trySyncStart s = s) := by
  by_cases h1 : s.sstate = .syncPending ∧ s.gate = true
  · exact .inl ⟨h1.1, h1.2, trySyncStart_begins h1.1 h1.2 (fbBytes_bounds _)⟩
  · exact .inr ⟨h1, trySyncStart_waits (by by_contra h2; simp at h2; exact h1 h2)⟩

theorem trySyncStart_mem (s : State) : (trySyncStart s).mem = s.mem := by
  rcases trySyncStart_cases s with ⟨_, _, h⟩ | ⟨_, h⟩ <;> rw [h]
  rfl

end Sys2Proof.Machine
end

