-- ==== Sys2Proof/Laws/Decode.lean ====
section
/-! SUPPORT. Laws of the command word: packing and reading the fields are inverse (spec/30_encoding.md R91), a row's match
and mask field by field (R96), and the serial form (R90). -/

namespace Sys2Proof

/-! ### The fields -/

/-- The fields of a packed word are the fields packed (30_encoding.md R91). -/
theorem fieldsOf_pack (f : Fields) : fieldsOf f.pack = f := by
  obtain ⟨op, col, cap, rsv, a, b, c, d, e, p, n⟩ := f
  simp only [fieldsOf, Fields.pack, Fields.mk.injEq]
  refine ⟨?_, ?_, ?_, ?_, ?_, ?_, ?_, ?_, ?_, ?_, ?_⟩ <;>
    simp (disch := omega) only [BitVec.extractLsb'_append_eq_of_le, BitVec.extractLsb'_append_eq_of_add_le,
      Nat.reduceSub, Nat.sub_self] <;>
    exact BitVec.extractLsb'_eq_self

/-- A word is its fields packed (30_encoding.md R91). -/
theorem pack_fieldsOf (w : CommandWord) : (fieldsOf w).pack = w := by
  simp only [fieldsOf, Fields.pack]
  rw [BitVec.extractLsb'_append_extractLsb'_eq_extractLsb' (by rfl), BitVec.extractLsb'_append_extractLsb'_eq_extractLsb' (by rfl),
    BitVec.extractLsb'_append_extractLsb'_eq_extractLsb' (by rfl), BitVec.extractLsb'_append_extractLsb'_eq_extractLsb' (by rfl),
    BitVec.extractLsb'_append_extractLsb'_eq_extractLsb' (by rfl), BitVec.extractLsb'_append_extractLsb'_eq_extractLsb' (by rfl),
    BitVec.extractLsb'_append_extractLsb'_eq_extractLsb' (by rfl), BitVec.extractLsb'_append_extractLsb'_eq_extractLsb' (by rfl),
    BitVec.extractLsb'_append_extractLsb'_eq_extractLsb' (by rfl), BitVec.extractLsb'_append_extractLsb'_eq_extractLsb' (by rfl)]
  exact BitVec.extractLsb'_eq_self

/-- Words with the same fields are the same word. -/
theorem fieldsOf_injective {v w : CommandWord} (h : fieldsOf v = fieldsOf w) : v = w := by
  rw [← pack_fieldsOf v, h, pack_fieldsOf]

/-- Two field records, bit by bit. -/
def Fields.and (f g : Fields) : Fields where
  op := f.op &&& g.op
  col := f.col &&& g.col
  cap := f.cap &&& g.cap
  rsv := f.rsv &&& g.rsv
  a := f.a &&& g.a
  b := f.b &&& g.b
  c := f.c &&& g.c
  d := f.d &&& g.d
  e := f.e &&& g.e
  p := f.p &&& g.p
  n := f.n &&& g.n

theorem fieldsOf_and (v w : CommandWord) : fieldsOf (v &&& w) = (fieldsOf v).and (fieldsOf w) := by
  simp only [fieldsOf, Fields.and, BitVec.extractLsb'_and]

/-- A word meets a row when its fields do (30_encoding.md R96). -/
theorem meets_iff (w mask bits : CommandWord) :
    w &&& mask = bits ↔ (fieldsOf w).and (fieldsOf mask) = fieldsOf bits := by
  rw [← fieldsOf_and]
  exact ⟨fun h => by rw [h], fieldsOf_injective⟩

/-- The word of a command has the command's fields. -/
theorem fieldsOf_encode (i : Instr) : fieldsOf (encode i) = i.fields := fieldsOf_pack i.fields

/-! ### One row -/

/-- The row of each opcode is in the table. -/
theorem rowOf_mem {op : BitVec 8} {r : Row} (h : rowOf op = some r) : r ∈ opcodeTable ∧ r.op = op := by
  refine ⟨List.mem_of_find?_eq_some h, ?_⟩
  simpa using List.find?_some h

/-- What a legal word is (30_encoding.md R96): its row's bits are met, and its fields are assembled. -/
theorem decode_legal {w : CommandWord} {i : Instr} (h : decode w = .legal i) :
    ∃ r, rowOf (fieldsOf w).op = some r ∧ w &&& r.mask = r.bits ∧ assemble (fieldsOf w) = some i := by
  unfold decode at h
  split at h
  · cases h
  · rename_i r hr
    split at h
    · split at h
      · rename_i hm _ j hj
        cases h
        exact ⟨r, hr, hm, hj⟩
      · cases h
    · cases h

/-- The other direction: a word whose row is met and whose fields assemble is legal (30_encoding.md R96). -/
theorem decode_of_row {w : CommandWord} {i : Instr} {r : Row} (hr : rowOf (fieldsOf w).op = some r)
    (hm : w &&& r.mask = r.bits) (hi : assemble (fieldsOf w) = some i) : decode w = .legal i := by
  simp [decode, hr, hm, hi]

@[simp] theorem colourOf_field (col : Colour) : colourOf col.field = col := by cases col <;> rfl

@[simp] theorem flagOf_ofBool (b : Bool) : flagOf (BitVec.ofBool b) = b := by cases b <;> rfl

theorem colourOf_injective {b : BitVec 1} {col : Colour} (h : colourOf b = col) : b = col.field := by
  subst h
  revert b
  decide

theorem flagOf_injective {b : BitVec 1} {v : Bool} (h : flagOf b = v) : b = BitVec.ofBool v := by
  subst h
  revert b
  decide

/-- The fields of a command assemble to the command (30_encoding.md R91 to R95). -/
theorem assemble_fields (i : Instr) : assemble i.fields = some i := by
  cases i <;> simp [assemble, Instr.fields, Fields.blank]

/-! ### Masked fields that are 0 -/

theorem and_full {w : Nat} (v : BitVec w) {full : BitVec w} (h : full = BitVec.allOnes w) : v &&& full = 0#w ↔ v = 0#w := by
  rw [h, BitVec.and_allOnes]

theorem and_full1 (v : BitVec 1) : v &&& 1#1 = 0#1 ↔ v = 0#1 := and_full v rfl

theorem and_full6 (v : BitVec 6) : v &&& 63#6 = 0#6 ↔ v = 0#6 := and_full v rfl

theorem and_full8 (v : BitVec 8) : v &&& 255#8 = 0#8 ↔ v = 0#8 := and_full v rfl

theorem and_full16 (v : BitVec 16) : v &&& 65535#16 = 0#16 ↔ v = 0#16 := and_full v rfl

theorem and_full32 (v : BitVec 32) : v &&& 4294967295#32 = 0#32 ↔ v = 0#32 := and_full v rfl

theorem toNat_lt_of_and_bits7to1 (v : Byte) (h : v &&& 0xFE = 0) : v.toNat < 2 := by revert v; decide

theorem toNat_lt_of_and_bit7 (v : Byte) (h : v &&& 0x80 = 0) : v.toNat < 128 := by revert v; decide

theorem toNat_lt_of_and_high (v : Word) (h : v &&& 0xFFFF0000 = 0) : v.toNat < 65536 := by
  have h2 : v.toNat >>> 16 = 0 := by
    apply Nat.eq_of_testBit_eq
    intro j
    simp only [Nat.testBit_shiftRight, Nat.zero_testBit]
    by_cases hj : 16 + j < 32
    · have hb := congrArg (fun b : Word => b.getLsbD (16 + j)) h
      have hm : (0xFFFF0000#32).getLsbD (16 + j) = true := by
        have : j < 16 := by omega
        interval_cases j <;> rfl
      simp only [BitVec.getLsbD_and] at hb
      rw [show (4294901760 : Word) = 0xFFFF0000#32 from rfl] at hb
      simp only [hm, Bool.and_true] at hb
      simpa [BitVec.getLsbD] using hb
    · exact BitVec.getLsbD_of_ge v _ (by omega)
  rw [Nat.shiftRight_eq_div_pow] at h2
  omega

/-- The fields of a word that meets its row are those of one well-formed command (30_encoding.md R94, R96). -/
theorem row_fields {w : CommandWord} {r : Row} (hr : r ∈ opcodeTable) (hop : (fieldsOf w).op = r.op)
    (hm : w &&& r.mask = r.bits) : ∃ i, assemble (fieldsOf w) = some i ∧ i.wellFormed = true ∧ i.fields = fieldsOf w := by
  rw [meets_iff] at hm
  generalize fieldsOf w = f at *
  obtain ⟨op, col, cap, rsv, a, b, c, d, e, p, n⟩ := f
  simp only [opcodeTable, List.mem_cons, List.not_mem_nil, or_false] at hr
  rcases hr with rfl | rfl | rfl | rfl | rfl | rfl | rfl | rfl | rfl | rfl | rfl | rfl | rfl | rfl | rfl | rfl | rfl | rfl | rfl | rfl <;>
  (simp only at hop; subst hop
   simp [Fields.and, fieldsOf, and_full1, and_full6, and_full8, and_full16, and_full32] at hm
   refine ⟨_, rfl, ?_, ?_⟩
   · first
      | rfl
      | (exact decide_eq_true (toNat_lt_of_and_bits7to1 _ (by tauto)))
      | (exact decide_eq_true (toNat_lt_of_and_bit7 _ (by tauto)))
      | (exact decide_eq_true (toNat_lt_of_and_high _ (by tauto)))
   · simp_all [Instr.fields, Fields.blank, ← colourOf_injective rfl, ← flagOf_injective rfl])

/-! ### The serial form -/

/-- Byte `j` of the serial form (30_encoding.md R90). -/
theorem leBytes_get (count v j : Nat) (h : j < count) : (leBytes count v)[j]? = some (BitVec.ofNat 8 (v / 256 ^ j)) := by
  induction count generalizing v j with
  | zero => omega
  | succ count ih =>
    cases j with
    | zero => simp [leBytes]
    | succ j =>
      simp only [leBytes, List.getElem?_cons_succ]
      rw [ih _ _ (by omega), Nat.div_div_eq_div_mul, Nat.pow_succ']

@[simp] theorem leBytes_length (count v : Nat) : (leBytes count v).length = count := by
  induction count generalizing v with
  | zero => rfl
  | succ count ih => simp [leBytes, ih]

/-- The bytes of a value give its low `8 * count` bits back (30_encoding.md R90). -/
theorem leValue_leBytes (count v : Nat) : leValue (leBytes count v) = v % 256 ^ count := by
  induction count generalizing v with
  | zero => simp [leBytes, leValue, Nat.mod_one]
  | succ count ih =>
    simp only [leBytes, leValue, ih, BitVec.toNat_ofNat]
    rw [show 256 ^ (count + 1) = 256 * 256 ^ count from Nat.pow_succ', Nat.mod_mul]

end Sys2Proof
end

