-- ==== Sys2Proof/Laws/Drawing.lean ====
section
/-! SUPPORT. What the bodies of the drawing commands do: plotting a walk (spec/43_graphics_shapes.md R180), counted loops that
draw, polylines (R187), bitmaps (spec/45_graphics_bitmap_text.md R215), fill, copy and invert (spec/42_framebuffer.md R165,
R168, R166). -/

namespace Sys2Proof.Machine

/-- A command that plots a walk paints its points (43_graphics_shapes.md R180). -/
theorem plot_paints {s : State} (hd : s.drawable) (hm : Memory.wf s.mem = true) (points : List Point) (col : Colour)
    (P : Int → Int → Prop) (hP : ∀ x y, (x, y) ∈ points ↔ P x y) :
    ∃ t, (Host.Outcome.next (drawing s fun t => (plot t points col).done) : Host.Outcome State Fault Refusal) = .next t ∧
      Painted s t P col :=
  ⟨_, next_drawing hd _, ((plot_drawn hm points col).congr fun x y _ _ => hP x y).painted⟩

/-! ### Counted loops -/

/-- A counted loop in two parts (00_scope.md R15). -/
theorem forCount_add (m n first : Nat) (body : Nat → State → Flow Unit) (t : State) :
    forCount (m + n) first body t = (forCount m first body t).andThen fun _ u => forCount n (first + m) body u := by
  induction m generalizing first t with
  | zero => simp [forCount, Flow.andThen]
  | succ m ih =>
    rw [show m + 1 + n = (m + n) + 1 by omega]
    simp only [forCount]
    cases body first t with
    | memFault a u => rfl
    | ok v u =>
      simp only [Flow.andThen]
      rw [ih, show first + 1 + m = first + (m + 1) by omega]
      rfl

/-- The states of a counted loop whose parts are functions of the state: part `n` after the `n` before it. -/
def inTurn (part : Nat → State → State) (s : State) : Nat → State
  | 0 => s
  | n + 1 => part n (inTurn part s n)

/-- A counted loop whose parts lead through the states `u` (00_scope.md R15). -/
theorem forCount_ok {body : Nat → State → Flow Unit} (u : Nat → State) (n : Nat)
    (hb : ∀ i, i < n → body i (u i) = .ok () (u (i + 1))) : forCount n 0 body (u 0) = .ok () (u n) := by
  induction n with
  | zero => rfl
  | succ n ih =>
    rw [forCount_add n 1, ih fun i hi => hb i (by omega)]
    simp only [Flow.andThen, forCount, Nat.zero_add, hb n (by omega)]

/-- The same with a part that stops (60_exceptions.md R269). -/
theorem forCount_stops {body : Nat → State → Flow Unit} (u : Nat → State) {n count a : Nat} (hn : n < count)
    (hb : ∀ i, i < n → body i (u i) = .ok () (u (i + 1))) (hf : body n (u n) = .memFault a (u n)) :
    forCount count 0 body (u 0) = .memFault a (u n) := by
  rw [show count = n + (count - n - 1 + 1) by omega, forCount_add, forCount_ok u n hb]
  simp only [Flow.andThen, forCount, Nat.zero_add, hf]

/-- A counted loop read from another first index. -/
theorem forCount_shift {body body' : Nat → State → Flow Unit} (k count first : Nat)
    (hb : ∀ i, first ≤ i → i < first + count → body i = body' (i + k)) (s : State) :
    forCount count first body s = forCount count (first + k) body' s := by
  induction count generalizing first s with
  | zero => rfl
  | succ count ih =>
    simp only [forCount, hb first (by omega) (by omega)]
    congr 1
    funext _ t
    rw [ih (first + 1) (fun i h1 h2 => hb i (by omega) (by omega)), show first + 1 + k = first + k + 1 by omega]

/-- Two nested counted loops are one, row by row. -/
theorem forCount_nested (body : Nat → Nat → State → Flow Unit) (w h : Nat) (s : State) :
    forCount h 0 (fun j => forCount w 0 (body j)) s = forCount (h * w) 0 (fun n => body (n / w) (n % w)) s := by
  induction h with
  | zero => simp [forCount]
  | succ h ih =>
    rw [forCount_add h 1, ih, show (h + 1) * w = h * w + w by ring, forCount_add]
    congr 1
    funext _ t
    simp only [forCount, Nat.zero_add]
    rw [forCount_shift (body' := fun n => body (n / w) (n % w)) (h * w) w 0, Nat.zero_add]
    · cases forCount w (h * w) (fun n => body (n / w) (n % w)) t <;> rfl
    · intro i _ hi
      have hw : 0 < w := by omega
      have h1 : (i + h * w) / w = h := by rw [Nat.add_mul_div_right _ _ hw, Nat.div_eq_of_lt (by omega)]; omega
      have h2 : (i + h * w) % w = i := by rw [Nat.add_mul_mod_self_right, Nat.mod_eq_of_lt (by omega)]
      simp only [h1, h2]

/-! ### Polylines -/

/-- Vertex `i` of the list at `p` (43_graphics_shapes.md R187). -/
def vertexAt (s : State) (p i : Nat) : Point :=
  (((Memory.read s.mem (p + 2 * i)).toNat : Int), ((Memory.read s.mem (p + 2 * i + 1)).toNat : Int))

/-- The state after the segments to the first `n + 1` vertices, and the last of them, each vertex read after the segments
before it (43_graphics_shapes.md R187). -/
def polyline (p : Nat) (col : Colour) (s : State) : Nat → State × Point
  | 0 => (s, vertexAt s p 0)
  | n + 1 =>
    let before := polyline p col s n
    let vertex := vertexAt before.1 p (n + 1)
    (plot before.1 (linePoints before.2.1 before.2.2 vertex.1 vertex.2) col, vertex)

theorem readVertex_ok {t : State} {p i : Nat} (hx : mapped t.cfg (p + 2 * i) 1 = true)
    (hy : mapped t.cfg (p + 2 * i + 1) 1 = true) : readVertex p i t = .ok (vertexAt t p i) t := by
  simp only [readVertex, readMem_byte hx, readMem_byte hy, Flow.andThen]
  rfl

theorem readVertex_stops {t : State} {p i : Nat}
    (hu : mapped t.cfg (p + 2 * i) 1 = false ∨ mapped t.cfg (p + 2 * i + 1) 1 = false) :
    ∃ a, readVertex p i t = .memFault a t := by
  cases hx : mapped t.cfg (p + 2 * i) 1 with
  | false => exact ⟨p + 2 * i, by simp only [readVertex, readMem_unmapped hx, Flow.andThen]⟩
  | true =>
    have hy := hu.resolve_left (by simp [hx])
    exact ⟨p + 2 * i + 1, by simp only [readVertex, readMem_byte hx, readMem_unmapped hy, Flow.andThen]⟩

theorem polyline_touched (p : Nat) (col : Colour) (s : State) (n : Nat) : Touched s (polyline p col s n).1 := by
  induction n with
  | zero => exact .refl s
  | succ n ih => exact ih.trans (plot_touched _ _ _)

/-- The body of a polyline with the first `n + 1` vertices readable: their segments, then the rest (43_graphics_shapes.md
R187). -/
theorem polyline_goes {s : State} {p : Nat} {col : Colour} (n m : Nat) (hr : s.readable p (2 * (n + 1))) :
    ((readVertex p 0 s).andThen fun start t => polylineFrom p col (n + m) 1 start t) =
      polylineFrom p col m (n + 1) (polyline p col s n).2 (polyline p col s n).1 := by
  induction n generalizing m with
  | zero =>
    rw [readVertex_ok (hr 0 (by omega)) (hr 1 (by omega)), Nat.zero_add]
    rfl
  | succ n ih =>
    rw [show n + 1 + m = n + (m + 1) by omega, ih (m + 1) fun k hk => hr k (by omega)]
    have hc := (polyline_touched p col s n).cfg
    simp only [polylineFrom]
    rw [readVertex_ok (by rw [hc]; exact hr (2 * (n + 1)) (by omega)) (by rw [hc]; exact hr (2 * (n + 1) + 1) (by omega))]
    rfl

/-- The segments drawn from a list that lies aside (43_graphics_shapes.md R187). -/
theorem polyline_drawn {s : State} (hm : Memory.wf s.mem = true) {p : Nat} {col : Colour} (n : Nat)
    (hr : s.readableAside p (2 * (n + 1))) :
    (polyline p col s n).2 = vertexAt s p n ∧
      Drawn s (polyline p col s n).1 (fun a b => ∃ k, k < n ∧
        (a, b) ∈ linePoints (vertexAt s p k).1 (vertexAt s p k).2 (vertexAt s p (k + 1)).1 (vertexAt s p (k + 1)).2) col := by
  induction n with
  | zero => exact ⟨rfl, (Drawn.refl hm col).congr' fun a b => by simp⟩
  | succ n ih =>
    obtain ⟨hv, hd⟩ := ih fun k hk => hr k (by omega)
    have hq : vertexAt (polyline p col s n).1 p (n + 1) = vertexAt s p (n + 1) := by
      simp only [vertexAt, hd.aside (hr (2 * (n + 1)) (by omega)).2, Nat.add_assoc,
        hd.aside (hr (2 * (n + 1) + 1) (by omega)).2]
    refine ⟨hq, ?_⟩
    simp only [polyline, hq, hv]
    refine (hd.trans (plot_drawn hd.wf _ col)).congr' fun a b => ?_
    constructor
    · rintro (⟨k, hk, h⟩ | h)
      · exact ⟨k, by omega, h⟩
      · exact ⟨n, by omega, h⟩
    · rintro ⟨k, hk, h⟩
      by_cases hkn : k = n
      · subst hkn; exact .inr h
      · exact .inl ⟨k, by omega, h⟩

/-! ### Bitmaps -/

/-- Column `i` of row `j` of a bitmap `w` columns wide is set (45_graphics_bitmap_text.md R215, R216). -/
def bitmapBit (s : State) (p w i j : Nat) : Bool :=
  (Memory.read s.mem (p + j * ((w + 7) / 8) + i / 8)).getLsbD (7 - i % 8)

/-- Pixel number `n` of a bitmap, row by row, drawn if its bit is set as it reads now (45_graphics_bitmap_text.md R215, R216). -/
def blitNth (x y : Int) (w p : Nat) (col : Colour) (n : Nat) (s : State) : State :=
  if bitmapBit s p w (n % w) (n / w) then setPixel s (x + (n % w : Nat)) (y + (n / w : Nat)) col else s

theorem blitPixel_ok {s : State} {x y : Int} {w p : Nat} {col : Colour} {n : Nat}
    (h : mapped s.cfg (p + n / w * ((w + 7) / 8) + n % w / 8) 1 = true) :
    blitPixel x y w p col (n / w) (n % w) s = .ok () (blitNth x y w p col n s) := by
  simp only [blitPixel, byteWidth, readMem_byte h, Flow.andThen]
  rfl

theorem blit_touched (x y : Int) (w p : Nat) (col : Colour) (s : State) (n : Nat) :
    Touched s (inTurn (blitNth x y w p col) s n) := by
  induction n with
  | zero => exact .refl s
  | succ n ih =>
    simp only [inTurn, blitNth]
    split
    · exact ih.trans (setPixel_touched _ _ _ _)
    · exact ih

/-- The pixels drawn from a bitmap that lies aside (45_graphics_bitmap_text.md R215). -/
theorem blit_drawn {s : State} (hm : Memory.wf s.mem = true) {x y : Int} {w p : Nat} {col : Colour} (n : Nat)
    (hr : ∀ m, m < n → ¬ s.inFront (p + m / w * ((w + 7) / 8) + m % w / 8)) :
    Drawn s (inTurn (blitNth x y w p col) s n) (fun a b => ∃ m, m < n ∧ a = x + (m % w : Nat) ∧ b = y + (m / w : Nat) ∧
      bitmapBit s p w (m % w) (m / w) = true) col := by
  induction n with
  | zero => exact (Drawn.refl hm col).congr' fun a b => by simp
  | succ n ih =>
    have hd := ih fun m hm => hr m (by omega)
    have hb : bitmapBit (inTurn (blitNth x y w p col) s n) p w (n % w) (n / w) = bitmapBit s p w (n % w) (n / w) := by
      simp only [bitmapBit, hd.aside (hr n (by omega))]
    simp only [inTurn, blitNth, hb]
    split
    · rename_i hs
      refine (hd.trans (setPixel_drawn hd.wf _ _ col)).congr' fun a b => ?_
      constructor
      · rintro (⟨m, h, h'⟩ | ⟨h1, h2⟩)
        · exact ⟨m, by omega, h'⟩
        · exact ⟨n, by omega, h1, h2, hs⟩
      · rintro ⟨m, h, h'⟩
        by_cases hmn : m = n
        · subst hmn; exact .inr ⟨h'.1, h'.2.1⟩
        · exact .inl ⟨m, by omega, h'⟩
    · rename_i hs
      refine hd.congr' fun a b => ⟨fun ⟨m, h, h'⟩ => ⟨m, by omega, h'⟩, fun ⟨m, h, h'⟩ => ⟨m, ?_, h'⟩⟩
      by_cases hmn : m = n
      · subst hmn; exact absurd h'.2.2 hs
      · omega

/-- The body of a bitmap that can be read (45_graphics_bitmap_text.md R215). -/
theorem blit_ok {s : State} {x y : Int} {w h p : Nat} {col : Colour}
    (hr : ∀ m, m < h * w → mapped s.cfg (p + m / w * ((w + 7) / 8) + m % w / 8) 1 = true) :
    forCount h 0 (fun j u => forCount w 0 (blitPixel x y w p col j) u) s = .ok () (inTurn (blitNth x y w p col) s (h * w)) := by
  rw [forCount_nested]
  exact forCount_ok (inTurn (blitNth x y w p col) s) _ fun i hi => blitPixel_ok (by rw [(blit_touched _ _ _ _ _ _ _).cfg]; exact hr i hi)

/-- The body of a bitmap whose pixel number `n` is the first that cannot be read (60_exceptions.md R269). -/
theorem blit_stops {s : State} {x y : Int} {w h p n : Nat} {col : Colour} (hn : n < h * w)
    (hr : ∀ m, m < n → mapped s.cfg (p + m / w * ((w + 7) / 8) + m % w / 8) 1 = true)
    (hu : mapped s.cfg (p + n / w * ((w + 7) / 8) + n % w / 8) 1 = false) :
    forCount h 0 (fun j u => forCount w 0 (blitPixel x y w p col j) u) s =
      .memFault (p + n / w * ((w + 7) / 8) + n % w / 8) (inTurn (blitNth x y w p col) s n) := by
  rw [forCount_nested]
  refine forCount_stops (inTurn (blitNth x y w p col) s) hn (fun i hi => blitPixel_ok (by rw [(blit_touched _ _ _ _ _ _ _).cfg]; exact hr i hi)) ?_
  simp only [blitPixel, byteWidth]
  rw [readMem_unmapped (by rw [(blit_touched _ _ _ _ _ _ _).cfg]; exact hu)]
  rfl

/-! ### Fill and copy -/

/-- The first `n` bytes of the front instance given one value (42_framebuffer.md R165). -/
theorem fill_part {s : State} (hm : Memory.wf s.mem = true) (v : Byte) (n : Nat) (hn : n ≤ s.cfg.fbBytes) :
    let t := (List.range n).foldl (fun t k => fbWrite t s.frontIndex k v) s
    Memory.wf t.mem = true ∧ (∀ k, k < n → Memory.read t.mem (s.frontBase + k) = v) ∧
      (∀ a, (a < s.frontBase ∨ s.frontBase + n ≤ a) → Memory.read t.mem a = Memory.read s.mem a) ∧
      t = { s with mem := t.mem, dirty := s.dirty || decide (n ≠ 0) } := by
  induction n with
  | zero => exact ⟨hm, by simp, by simp, by simp⟩
  | succ n ih =>
    obtain ⟨h1, h2, h3, h4⟩ := ih (by omega)
    simp only [List.range_succ, List.foldl_append, List.foldl_cons, List.foldl_nil]
    generalize (List.range n).foldl (fun t k => fbWrite t s.frontIndex k v) s = u at *
    refine ⟨Memory.write_wf h1 _ _, ?_, ?_, ?_⟩
    · intro k hk
      change Memory.read (Memory.write u.mem (s.frontBase + n) _) _ = _
      rw [Memory.read_write h1]
      by_cases hkn : k = n
      · simp [hkn]
      · rw [if_neg (by omega)]; exact h2 k (by omega)
    · intro a ha
      change Memory.read (Memory.write u.mem (s.frontBase + n) _) _ = _
      rw [Memory.read_write_other _ _ (by omega)]
      exact h3 a (by omega)
    · simp only [fbWrite]
      rw [h4]
      simp

/-- The first `n` bytes of a source that can be read, copied one by one: a byte that the copy has already written is read as
written (42_framebuffer.md R168). -/
theorem load_part {s : State} (hm : Memory.wf s.mem = true) (src n : Nat) (hn : n ≤ s.cfg.fbBytes) (hr : s.readable src n) :
    ∃ t, forCount n 0 (loadByte src) s = .ok () t ∧ Memory.wf t.mem = true ∧
      (∀ k, k < n → Memory.read t.mem (s.frontBase + k) =
        if s.frontBase ≤ src + k ∧ src + k < s.frontBase + k then Memory.read t.mem (src + k) else Memory.read s.mem (src + k)) ∧
      (∀ a, (a < s.frontBase ∨ s.frontBase + n ≤ a) → Memory.read t.mem a = Memory.read s.mem a) ∧
      t = { s with mem := t.mem, dirty := s.dirty || decide (n ≠ 0) } := by
  induction n with
  | zero => exact ⟨s, rfl, hm, by simp, by simp, by simp⟩
  | succ n ih =>
    obtain ⟨v, h0, h1, h2, h3, h4⟩ := ih (by omega) fun k hk => hr k (by omega)
    have hcfg : v.cfg = s.cfg := by rw [h4]
    have hfi : v.frontIndex = s.frontIndex := by rw [h4]; rfl
    have hw : ∀ a, Memory.read (fbWrite v v.frontIndex n (Memory.read v.mem (src + n))).mem a =
        if a = s.frontBase + n then Memory.read v.mem (src + n) else Memory.read v.mem a := by
      intro a
      rw [hfi]
      exact Memory.read_write h1 _ _ _
    refine ⟨fbWrite v v.frontIndex n (Memory.read v.mem (src + n)), ?_, Memory.write_wf h1 _ _, ?_, ?_, ?_⟩
    · rw [forCount_add n 1, h0]
      simp only [Flow.andThen, forCount, loadByte, Nat.zero_add]
      rw [readMem_byte (by rw [hcfg]; exact hr n (by omega))]
      simp
    · intro k hk
      rw [hw, hw]
      by_cases hkn : k = n
      · subst hkn
        rw [if_pos rfl]
        split
        · rw [if_neg (by omega)]
        · exact h3 _ (by omega)
      · rw [if_neg (by omega), h2 k (by omega)]
        split
        · rw [if_neg (by omega)]
        · rfl
    · intro a ha
      rw [hw, if_neg (by omega)]
      exact h3 a (by omega)
    · simp only [fbWrite]
      rw [h4]
      simp

/-! ### Invert -/

/-- The bytes after one pixel is flipped (42_framebuffer.md R166). -/
theorem invertPixel_read {s : State} (hm : Memory.wf s.mem = true) (x y a : Nat) :
    Memory.read (invertPixel s x y).mem a =
      Memory.read s.mem a ^^^ (if a = pixelAddr s x y then pixelMask s y else 0) := by
  change Memory.read (Memory.write s.mem (pixelAddr s x y) (Memory.read s.mem (pixelAddr s x y) ^^^ pixelMask s y)) a = _
  rw [Memory.read_write hm]
  split
  · subst_vars; rfl
  · simp

/-- The pixels after one is flipped (42_framebuffer.md R166). -/
theorem invertPixel_pixel {s : State} (hm : Memory.wf s.mem = true) {x y x' y' : Nat} (hx : x < s.cfg.w) (hy : y < s.cfg.h)
    (hx' : x' < s.cfg.w) (hy' : y' < s.cfg.h) :
    (invertPixel s x y).pixel x' y' = (s.pixel x' y' ^^ decide (x' = x ∧ y' = y)) := by
  change (Memory.read (invertPixel s x y).mem (pixelAddr s x' y')).getLsbD (pixelBit s y') =
    ((Memory.read s.mem (pixelAddr s x' y')).getLsbD (pixelBit s y') ^^ _)
  rw [invertPixel_read hm, BitVec.getLsbD_xor]
  congr 1
  split
  · rename_i ha
    rw [pixelMask_bit _ _ _ (pixelBit_lt s y')]
    exact decide_eq_decide.mpr ⟨fun hb => pixel_injective s hx' hy' hx hy ha hb, fun h => by rw [h.2]⟩
  · rename_i ha
    have : ¬ (x' = x ∧ y' = y) := by rintro ⟨rfl, rfl⟩; exact ha rfl
    simp [this]

/-- The bits that flipping the points of a list changes in the byte at an address. -/
def flipMask (s : State) (a : Nat) (l : List Point) : Byte :=
  l.foldl (fun m p => m ^^^ (if a = pixelAddr s p.1.toNat p.2.toNat then pixelMask s p.2.toNat else 0)) 0

theorem flipMask_cons (s : State) (a : Nat) (p : Point) (l : List Point) :
    flipMask s a (p :: l) = (if a = pixelAddr s p.1.toNat p.2.toNat then pixelMask s p.2.toNat else 0) ^^^ flipMask s a l := by
  have hx : ∀ (l : List Point) (m : Byte),
      l.foldl (fun m p => m ^^^ (if a = pixelAddr s p.1.toNat p.2.toNat then pixelMask s p.2.toNat else 0)) m =
        m ^^^ flipMask s a l := by
    intro l
    induction l with
    | nil => intro m; simp [flipMask]
    | cons q l ih => intro m; rw [flipMask, List.foldl_cons, List.foldl_cons, ih, ih]; simp [BitVec.xor_assoc]
  rw [flipMask, List.foldl_cons, hx]
  simp

/-- Flipping the points of a list, byte by byte (42_framebuffer.md R166). -/
theorem invert_fold {s : State} (l : List Point) :
    ∀ t : State, Memory.wf t.mem = true → t = { s with mem := t.mem, dirty := t.dirty } →
      let u := l.foldl (fun t p => invertPixel t p.1.toNat p.2.toNat) t
      Memory.wf u.mem = true ∧ (∀ a, Memory.read u.mem a = Memory.read t.mem a ^^^ flipMask s a l) ∧
        u = { s with mem := u.mem, dirty := t.dirty || decide (l ≠ []) } := by
  induction l with
  | nil => intro t ht he; exact ⟨ht, by simp [flipMask], by simpa using he⟩
  | cons p rest ih =>
    intro t ht he
    have h1 := invertPixel_read ht p.1.toNat p.2.toNat
    have e1 : pixelAddr t p.1.toNat p.2.toNat = pixelAddr s p.1.toNat p.2.toNat := by rw [he]; rfl
    have e2 : pixelMask t p.2.toNat = pixelMask s p.2.toNat := by rw [he]; rfl
    rw [e1, e2] at h1
    have hw : Memory.wf (invertPixel t p.1.toNat p.2.toNat).mem = true := Memory.write_wf ht _ _
    have hr : invertPixel t p.1.toNat p.2.toNat =
        { s with mem := (invertPixel t p.1.toNat p.2.toNat).mem, dirty := (invertPixel t p.1.toNat p.2.toNat).dirty } := by
      rw [show invertPixel t p.1.toNat p.2.toNat = { t with mem := (invertPixel t p.1.toNat p.2.toNat).mem, dirty := true }
        from rfl, he]
    obtain ⟨i1, i2, i3⟩ := ih _ hw hr
    refine ⟨i1, fun a => ?_, ?_⟩
    · rw [List.foldl_cons, i2, h1, flipMask_cons, BitVec.xor_assoc]
    · rw [List.foldl_cons]
      refine i3.trans ?_
      have : (invertPixel t p.1.toNat p.2.toNat).dirty = true := rfl
      simp [this]

/-- Flipping the points of a list without repeats, pixel by pixel (42_framebuffer.md R166). -/
theorem invert_pixels {s : State} (l : List Point) (hnd : l.Nodup)
    (hin : ∀ p ∈ l, 0 ≤ p.1 ∧ 0 ≤ p.2 ∧ p.1.toNat < s.cfg.w ∧ p.2.toNat < s.cfg.h) {x y : Nat} (hx : x < s.cfg.w)
    (hy : y < s.cfg.h) : ∀ t : State, Memory.wf t.mem = true → t.cfg = s.cfg →
      (l.foldl (fun t p => invertPixel t p.1.toNat p.2.toNat) t).pixel x y =
        (t.pixel x y ^^ decide (((x : Int), (y : Int)) ∈ l)) := by
  induction l with
  | nil => intro t _ _; simp
  | cons p rest ih =>
    intro t ht hc
    obtain ⟨h1, h2, h3, h4⟩ := hin p List.mem_cons_self
    rw [List.foldl_cons, ih (List.nodup_cons.mp hnd).2 (fun q hq => hin q (List.mem_cons_of_mem _ hq))
        (invertPixel t p.1.toNat p.2.toNat) (Memory.write_wf ht _ _) hc,
      invertPixel_pixel ht (by rw [hc]; exact h3) (by rw [hc]; exact h4) (by rw [hc]; exact hx) (by rw [hc]; exact hy),
      Bool.xor_assoc]
    congr 1
    have e : (x = p.1.toNat ∧ y = p.2.toNat) ↔ ((x : Int), (y : Int)) = p := by
      rw [Prod.ext_iff]; omega
    have hn := (List.nodup_cons.mp hnd).1
    by_cases hp : ((x : Int), (y : Int)) = p
    · subst hp
      simp [hn]
    · have : ¬ (x = p.1.toNat ∧ y = p.2.toNat) := fun h => hp (e.mp h)
      simp only [this, decide_false, Bool.false_xor, List.mem_cons, hp, false_or]

/-- The points of a box are listed once each. -/
theorem boxPoints_nodup (x y : Int) (w h : Nat) : (boxPoints x y w h).Nodup := by
  unfold boxPoints
  rw [List.nodup_flatMap]
  refine ⟨fun j _ => ?_, List.nodup_range.imp fun {a b} hab p hp hq => ?_⟩
  · refine List.Nodup.map (fun a b h => ?_) List.nodup_range
    simp only [Prod.mk.injEq] at h; omega
  · simp only [List.mem_map] at hp hq
    obtain ⟨i, _, rfl⟩ := hp
    obtain ⟨j, _, h⟩ := hq
    simp only [Prod.mk.injEq] at h; omega

/-- An invert that is carried out flips the pixels of its box (42_framebuffer.md R166). -/
theorem invertBox_laws {s : State} (hm : Memory.wf s.mem = true) {x1 y1 x2 y2 : Byte}
    (h : invertInBounds s.cfg x1 y1 x2 y2 = true) :
    (∀ x y : Nat, x < s.cfg.w → y < s.cfg.h → (invertBox s x1 y1 x2 y2).pixel x y =
      (s.pixel x y ^^ decide (x1.toNat ≤ x ∧ x ≤ x2.toNat ∧ y1.toNat ≤ y ∧ y ≤ y2.toNat))) ∧
      invertBox s x1 y1 x2 y2 = { s with mem := (invertBox s x1 y1 x2 y2).mem, dirty := true } := by
  obtain ⟨hx, hy, hx2, hy2⟩ := (invertInBounds_iff _ _ _ _ _).mp h
  have hmem := fun p => @mem_boxPoints (coord x1) (coord y1) (x2.toNat - x1.toNat + 1) (y2.toNat - y1.toNat + 1) p
  refine ⟨fun x y hxw hyh => ?_, ?_⟩
  · unfold invertBox
    rw [invert_pixels (s := s) _ (boxPoints_nodup _ _ _ _) ?_ hxw hyh s hm rfl]
    · congr 1
      refine decide_eq_decide.mpr ?_
      rw [hmem]; simp only [coord]; omega
    · intro p hp
      rw [hmem] at hp; simp only [coord] at hp; omega
  · have := (invert_fold (s := s)
      (boxPoints (coord x1) (coord y1) (x2.toNat - x1.toNat + 1) (y2.toNat - y1.toNat + 1)) s hm rfl).2.2
    have hne : decide (boxPoints (coord x1) (coord y1) (x2.toNat - x1.toNat + 1) (y2.toNat - y1.toNat + 1) ≠ []) = true := by
      rw [decide_eq_true_eq]
      exact List.ne_nil_of_mem (a := (coord x1, coord y1)) ((hmem _).mpr (by simp))
    rw [hne, Bool.or_true] at this
    exact this

end Sys2Proof.Machine
end

