-- ==== Sys2Proof/Laws/Text.lean ====
section
/-! SUPPORT. What the bodies of the text commands do: the cell of a glyph (spec/45_graphics_bitmap_text.md R219 to R221), the
cursor (R223), and that no body looks at `RESULT`, so that a string is its characters (R222). -/

namespace Sys2Proof.Machine

/-! ### Bodies that draw in more than one colour -/

/-- What a body that draws in both colours does: the pixels that get a colour, and the rest as before. -/
structure Tinted (s t : State) (C : Int → Int → Option Bool) : Prop where
  wf : Memory.wf t.mem = true
  pix : ∀ x y : Nat, x < s.cfg.w → y < s.cfg.h → t.pixel x y = (C x y).getD (s.pixel x y)
  aside : ∀ a, ¬ s.inFront a → Memory.read t.mem a = Memory.read s.mem a
  dirty : t.dirty = true ↔ s.dirty = true ∨ ∃ x y : Nat, x < s.cfg.w ∧ y < s.cfg.h ∧ C x y ≠ none
  rest : t = { s with mem := t.mem, dirty := t.dirty }

theorem Tinted.refl {s : State} (hm : Memory.wf s.mem = true) : Tinted s s (fun _ _ => none) :=
  ⟨hm, fun _ _ _ _ => rfl, fun _ _ => rfl, by simp, rfl⟩

theorem Tinted.congr {s t : State} {C D : Int → Int → Option Bool} (h : Tinted s t C) (hcd : ∀ x y, C x y = D x y) :
    Tinted s t D := by
  have : C = D := funext fun x => funext fun y => hcd x y
  exact this ▸ h

/-- One part after another: the later colour stands. -/
theorem Tinted.trans {s t u : State} {C D : Int → Int → Option Bool} (h : Tinted s t C) (h' : Tinted t u D) :
    Tinted s u (fun x y => (D x y).or (C x y)) := by
  have hc : t.cfg = s.cfg := by rw [h.rest]
  have hf : ∀ a, t.inFront a ↔ s.inFront a := by intro a; rw [h.rest]; exact Iff.rfl
  refine ⟨h'.wf, ?_, ?_, ?_, ?_⟩
  · intro x y hx hy
    rw [h'.pix x y (hc ▸ hx) (hc ▸ hy), h.pix x y hx hy]
    cases D x y <;> rfl
  · intro a ha
    rw [h'.aside a (fun h => ha ((hf a).mp h)), h.aside a ha]
  · rw [h'.dirty, h.dirty, hc]
    constructor
    · rintro ((h1 | ⟨x, y, hx, hy, hp⟩) | ⟨x, y, hx, hy, hq⟩)
      · exact .inl h1
      · refine .inr ⟨x, y, hx, hy, ?_⟩; cases D x y <;> simp [hp]
      · refine .inr ⟨x, y, hx, hy, ?_⟩; revert hq; cases D x y <;> simp
    · rintro (h1 | ⟨x, y, hx, hy, hp⟩)
      · exact .inl (.inl h1)
      · by_cases hd : D x y = none
        · rw [hd] at hp; exact .inl (.inr ⟨x, y, hx, hy, hp⟩)
        · exact .inr ⟨x, y, hx, hy, hd⟩
  · have e := h.rest
    have e' := h'.rest
    calc u = { t with mem := u.mem, dirty := u.dirty } := e'
      _ = { s with mem := u.mem, dirty := u.dirty } := by rw [e]

theorem setPixel_tinted {s : State} (hm : Memory.wf s.mem = true) (x y : Int) (col : Colour) :
    Tinted s (setPixel s x y col) (fun a b => if a = x ∧ b = y then some col.bit else none) := by
  have h := setPixel_drawn hm x y col
  refine ⟨h.wf, fun a b ha hb => ?_, fun a ha => h.aside ha, ?_, h.rest⟩
  · by_cases hp : (a : Int) = x ∧ (b : Int) = y
    · rw [if_pos hp]; exact h.inside a b ha hb hp
    · rw [if_neg hp]; exact h.outside a b ha hb hp
  · rw [h.dirty]; simp

/-- A counted loop whose every part draws. -/
theorem forCount_tinted {s : State} {body : Nat → State → Flow Unit} (Q : Nat → Int → Int → Option Bool) (n : Nat)
    (hb : ∀ i t C, i < n → Tinted s t C → ∃ u, body i t = .ok () u ∧ Tinted s u (fun a b => (Q i a b).or (C a b)))
    (count : Nat) : ∀ (first : Nat) (t : State) (C : Int → Int → Option Bool), Tinted s t C → first + count ≤ n →
      ∃ u, forCount count first body t = .ok () u ∧
        Tinted s u (fun a b => (List.range' first count).foldl (fun o i => (Q i a b).or o) (C a b)) := by
  induction count with
  | zero => intro i t C h _; exact ⟨t, rfl, h⟩
  | succ count ih =>
    intro i t C h hn
    obtain ⟨v, hv, hdv⟩ := hb i t C (by omega) h
    obtain ⟨u, hu, hd'⟩ := ih (i + 1) v _ hdv (by omega)
    refine ⟨u, by simp only [forCount, hv, Flow.andThen]; exact hu, hd'.congr fun x y => ?_⟩
    rw [List.range'_succ, List.foldl_cons]

/-- Where one index alone gives a colour, the loop gives that one. -/
theorem foldl_unique {Q : Nat → Option Bool} (first count : Nat) (o : Option Bool) (k : Nat)
    (hQ : ∀ i, first ≤ i → i < first + count → i ≠ k → Q i = none) :
    (List.range' first count).foldl (fun o i => (Q i).or o) o =
      if first ≤ k ∧ k < first + count then (Q k).or o else o := by
  induction count generalizing first o with
  | zero => rw [if_neg (by omega)]; rfl
  | succ count ih =>
    rw [List.range'_succ, List.foldl_cons, ih (first + 1) _ fun i h1 h2 h3 => hQ i (by omega) (by omega) h3]
    by_cases h : first = k
    · subst h
      rw [if_neg (by omega), if_pos (by omega)]
    · rw [hQ first (by omega) (by omega) h]
      by_cases h2 : first + 1 ≤ k ∧ k < first + 1 + count
      · rw [if_pos h2, if_pos (by omega)]; rfl
      · rw [if_neg h2, if_neg (by omega)]; rfl

/-! ### A glyph -/

/-- The bits of a little-endian word of two bytes (20_memory.md R68). -/
theorem word_bit (lo hi : Byte) (k : Nat) : (lo.toNat + 256 * hi.toNat).testBit k = (hi ++ lo).getLsbD k := by
  have : (hi ++ lo).toNat = lo.toNat + 256 * hi.toNat := by
    rw [BitVec.toNat_append]
    have := lo.isLt
    rw [← Nat.shiftLeft_add_eq_or_of_lt (by omega), Nat.shiftLeft_eq]
    omega
  rw [← this]
  rfl

/-- One column more of a row (45_graphics_bitmap_text.md R221). -/
theorem glyphRowDrawn_succ (s : State) (ch : Byte) (col : Colour) (i n : Nat) :
    s.glyphRowDrawn ch col (n + 1) i =
      if s.glyphSet ch i n then setPixel (s.glyphRowDrawn ch col n i) (s.cursorX.toNat + n) (s.cursorY.toNat + i) col
      else if s.cfg.glyphOpaque then
        setPixel (s.glyphRowDrawn ch col n i) (s.cursorX.toNat + n) (s.cursorY.toNat + i) col.other
      else s.glyphRowDrawn ch col n i := by
  simp only [State.glyphRowDrawn, List.range_succ, List.foldl_append, List.foldl_cons, List.foldl_nil]

/-- A row changes MEM and `DIRTY` alone. -/
theorem glyphRowDrawn_frame (s : State) (ch : Byte) (col : Colour) (i n : Nat) :
    s.glyphRowDrawn ch col n i = { s with mem := (s.glyphRowDrawn ch col n i).mem, dirty := (s.glyphRowDrawn ch col n i).dirty } := by
  induction n with
  | zero => rfl
  | succ n ih =>
    rw [glyphRowDrawn_succ]
    split
    · rw [setPixel_frame, ih]
    · split
      · rw [setPixel_frame, ih]
      · exact ih

/-- A row of a glyph that can be read is drawn (45_graphics_bitmap_text.md R219, R221). -/
theorem glyphRow_ok {s : State} {ch : Byte} {col : Colour} {gw i : Nat}
    (hm : mapped s.cfg (glyphRowAddr s.cfg (ch.toNat - 32) i) 2 = true) :
    glyphRow s.cursorX.toNat s.cursorY.toNat (ch.toNat - 32) gw col i s = .ok () (s.glyphRowDrawn ch col gw i) := by
  unfold glyphRow
  rw [readMem_half hm]
  refine forCount_ok (fun n => s.glyphRowDrawn ch col n i) gw fun j _ => ?_
  have hg : glyphBit ((Memory.read s.mem (glyphRowAddr s.cfg (ch.toNat - 32) i)).toNat
      + 256 * (Memory.read s.mem (glyphRowAddr s.cfg (ch.toNat - 32) i + 1)).toNat) j = s.glyphSet ch i j := by
    simp only [glyphBit, State.glyphSet, word_bit]
  have hc : (s.glyphRowDrawn ch col j i).cfg = s.cfg := by rw [glyphRowDrawn_frame]
  simp only [glyphPixel, hg, hc, glyphRowDrawn_succ]

/-- The colour that row `i`, column `j` of a character's glyph gives its pixel, if any (45_graphics_bitmap_text.md R221). -/
def tint (s : State) (ch : Byte) (col : Colour) (i j : Nat) : Option Bool :=
  if s.glyphSet ch i j then some col.bit else if s.cfg.glyphOpaque then some col.other.bit else none

/-- One row of a glyph that can be read and lies aside (45_graphics_bitmap_text.md R219, R221). -/
theorem glyphRow_tinted {s : State} {ch : Byte} {col : Colour} {cx cy : Int} {gw i : Nat}
    (hm2 : mapped s.cfg (glyphRowAddr s.cfg (ch.toNat - 32) i) 2 = true)
    (hf1 : ¬ s.inFront (glyphRowAddr s.cfg (ch.toNat - 32) i))
    (hf2 : ¬ s.inFront (glyphRowAddr s.cfg (ch.toNat - 32) i + 1)) (t : State) (C : Int → Int → Option Bool)
    (h : Tinted s t C) :
    ∃ u, glyphRow cx cy (ch.toNat - 32) gw col i t = .ok () u ∧ Tinted s u (fun a b =>
      (if b = cy + i ∧ cx ≤ a ∧ a < cx + gw then tint s ch col i (a - cx).toNat else none).or (C a b)) := by
  have hc : t.cfg = s.cfg := by rw [h.rest]
  have hbody : ∀ j t C, j < gw → Tinted s t C → ∃ u,
      glyphPixel cx (cy + i) ((Memory.read s.mem (glyphRowAddr s.cfg (ch.toNat - 32) i)).toNat
        + 256 * (Memory.read s.mem (glyphRowAddr s.cfg (ch.toNat - 32) i + 1)).toNat) col j t = .ok () u ∧
      Tinted s u (fun a b => (if b = cy + i ∧ a = cx + (j : Int) then tint s ch col i j else none).or (C a b)) := by
    intro j t C hj h
    refine ⟨_, rfl, ?_⟩
    have hc : t.cfg = s.cfg := by rw [h.rest]
    have hg : glyphBit ((Memory.read s.mem (glyphRowAddr s.cfg (ch.toNat - 32) i)).toNat
        + 256 * (Memory.read s.mem (glyphRowAddr s.cfg (ch.toNat - 32) i + 1)).toNat) j = s.glyphSet ch i j := by
      simp only [glyphBit, State.glyphSet, word_bit]
    rw [hg, hc]
    unfold tint
    split
    · refine (h.trans (setPixel_tinted h.wf _ _ _)).congr fun a b => ?_
      congr 1
      refine if_congr ?_ rfl rfl
      tauto
    · split
      · refine (h.trans (setPixel_tinted h.wf _ _ _)).congr fun a b => ?_
        congr 1
        refine if_congr ?_ rfl rfl
        tauto
      · exact h.congr fun a b => by simp
  obtain ⟨u, hu, hd⟩ := forCount_tinted _ gw hbody gw 0 t C h (by omega)
  refine ⟨u, ?_, hd.congr fun a b => ?_⟩
  · unfold glyphRow
    rw [hc, readMem_half (by rw [hc]; exact hm2), h.aside _ hf1, h.aside _ hf2]
    exact hu
  · rw [foldl_unique 0 gw _ (a - cx).toNat (by intro j _ _ hj; rw [if_neg (by omega)])]
    by_cases hin : b = cy + i ∧ cx ≤ a ∧ a < cx + gw
    · rw [if_pos (by omega), if_pos (by omega), if_pos hin]
    · rw [if_neg hin]
      split
      · rw [if_neg (by omega)]
      · rfl

/-- The first `n` rows of a glyph that can be read and lie aside: the upper part of its cell at `(cx, cy)`
(45_graphics_bitmap_text.md R221). -/
theorem glyphRows_tinted {s : State} (hm : Memory.wf s.mem = true) {ch : Byte} {col : Colour} {cx cy : Int} {gw n : Nat}
    (hrows : ∀ i, i < n → mapped s.cfg (glyphRowAddr s.cfg (ch.toNat - 32) i) 2 = true ∧
      ¬ s.inFront (glyphRowAddr s.cfg (ch.toNat - 32) i) ∧ ¬ s.inFront (glyphRowAddr s.cfg (ch.toNat - 32) i + 1)) :
    ∃ u, forCount n 0 (glyphRow cx cy (ch.toNat - 32) gw col) s = .ok () u ∧ Tinted s u (fun a b =>
      if cx ≤ a ∧ a < cx + gw ∧ cy ≤ b ∧ b < cy + n then tint s ch col (b - cy).toNat (a - cx).toNat else none) := by
  obtain ⟨u, hu, htu⟩ := forCount_tinted (s := s) (body := glyphRow cx cy (ch.toNat - 32) gw col) _ n
    (fun i t C hi h => glyphRow_tinted (hrows i hi).1 (hrows i hi).2.1 (hrows i hi).2.2 t C h) n 0 s _
    (Tinted.refl hm) (by omega)
  refine ⟨u, hu, htu.congr fun a b => ?_⟩
  rw [foldl_unique 0 n _ (b - cy).toNat (by intro i _ _ hi; rw [if_neg (by omega)])]
  by_cases hin : cx ≤ a ∧ a < cx + gw ∧ cy ≤ b ∧ b < cy + n
  · rw [if_pos (by omega), if_pos (by omega), if_pos hin]; simp
  · rw [if_neg hin]
    split
    · rw [if_neg (by omega)]; rfl
    · rfl

/-- The width of a glyph is read without effect (45_graphics_bitmap_text.md R220). -/
theorem glyphWidth_state (g : Nat) (s : State) : (glyphWidth g s).state = s := by
  unfold glyphWidth
  split
  · rfl
  · exact readMem_state _ _ _

theorem glyphWidth_is {s : State} {ch : Byte} {gw : Nat} (hg : s.glyphWidthIs ch gw) :
    glyphWidth (ch.toNat - 32) s = .ok gw s := by
  unfold State.glyphWidthIs at hg
  unfold glyphWidth
  split
  · rename_i h; rw [if_pos h] at hg; rw [hg]
  · rename_i h; rw [if_neg h] at hg; rw [readMem_byte hg.1, hg.2]

/-! ### The cursor -/

/-- A character moves the cursor right, within the panel (45_graphics_bitmap_text.md R221, R223 (2)). -/
theorem putChar_cursor (ch : Byte) (col : Colour) (s : State) :
    s.cursorX.toNat ≤ (putChar ch col s).state.cursorX.toNat ∧
      (putChar ch col s).state.cursorX.toNat ≤ max s.cfg.w s.cursorX.toNat := by
  have hw := (cfg_valid s.cfg).1
  unfold putChar
  split
  · have hg := glyphWidth_state (ch.toNat - 32) s
    cases hf : glyphWidth (ch.toNat - 32) s with
    | memFault a t =>
      rw [hf] at hg
      change t = s at hg
      subst hg
      exact ⟨le_refl _, le_max_right _ _⟩
    | ok gw t =>
      rw [hf] at hg
      change t = s at hg
      subst hg
      simp only [Flow.andThen]
      split
      · exact ⟨le_refl _, le_max_right _ _⟩
      · rename_i ho
        simp only [overflows, decide_eq_true_eq] at ho
        have hrows := forCount_cursorX
          (body := glyphRow (t.cursorX.toNat : Int) (t.cursorY.toNat : Int) (ch.toNat - 32) gw col)
          (fun i u => Flow.andThen_cursorX (by rw [readMem_state]) fun _ _ =>
            forCount_cursorX (fun _ _ => glyphPixel_cursorX _ _ _ _ _ _) _ _ _) t.cfg.fontH 0 t
        cases hr : forCount t.cfg.fontH 0
            (glyphRow (t.cursorX.toNat : Int) (t.cursorY.toNat : Int) (ch.toNat - 32) gw col) t with
        | memFault a u =>
          rw [hr] at hrows
          change u.cursorX = t.cursorX at hrows
          simp only [Flow.state, hrows]
          exact ⟨le_refl _, le_max_right _ _⟩
        | ok v u =>
          rw [hr] at hrows
          change u.cursorX = t.cursorX at hrows
          have hadd : (t.cursorX + BitVec.ofNat 16 gw).toNat = t.cursorX.toNat + gw := by
            rw [BitVec.toNat_add, BitVec.toNat_ofNat]
            omega
          simp only [Flow.state, advance, hrows, hadd]
          omega
  · exact ⟨le_refl _, le_max_right _ _⟩

/-- A string moves the cursor right, within the panel (45_graphics_bitmap_text.md R222, R223 (2)). -/
theorem putString_cursor (col : Colour) (left addr : Nat) (s : State) :
    s.cursorX.toNat ≤ (putString col left addr s).state.cursorX.toNat ∧
      (putString col left addr s).state.cursorX.toNat ≤ max s.cfg.w s.cursorX.toNat := by
  induction left generalizing addr s with
  | zero => exact ⟨le_refl _, le_max_right _ _⟩
  | succ left ih =>
    unfold putString
    have hs := readMem_state addr 1 s
    cases hr : readMem addr 1 s with
    | memFault a t =>
      rw [hr] at hs
      change t = s at hs
      subst hs
      exact ⟨le_refl _, le_max_right _ _⟩
    | ok v t =>
      rw [hr] at hs
      change t = s at hs
      subst hs
      simp only [Flow.andThen]
      split
      · exact ⟨le_refl _, le_max_right _ _⟩
      · have h1 := putChar_cursor (BitVec.ofNat 8 v) col t
        have h2 := putChar_touched (BitVec.ofNat 8 v) col t
        cases hp : putChar (BitVec.ofNat 8 v) col t with
        | memFault a u => rw [hp] at h1; exact h1
        | ok drawn u =>
          rw [hp] at h1 h2
          change Touched t u at h2
          simp only [Flow.state] at h1
          dsimp only
          split
          · have := ih (addr + 1) u
            rw [h2.cfg] at this
            omega
          · exact h1

/-- How a body ends does not move the cursor when its last part does not. -/
theorem Flow.close_cursorX {α : Type} (f : Flow α) (finish : α → State → State)
    (h : ∀ a t, (finish a t).cursorX = t.cursorX) : (f.close finish).cursorX = f.state.cursorX := by
  cases f with
  | ok a t => exact h a t
  | memFault a t => rfl

/-- 45_graphics_bitmap_text.md R223 (2), for a command that is carried out or refused. -/
theorem text_cursor {i : Instr} {s t : State} (hi : i.isWriteChar = true ∨ i.isWriteString = true)
    (h : exec i s = .next t) : s.cursorX.toNat ≤ t.cursorX.toNat ∧ t.cursorX.toNat ≤ max s.cfg.w s.cursorX.toNat := by
  by_cases hd : s.drawable
  · cases i with
    | writeChar ch col =>
      simp only [exec, execWriteChar, drawing_allowed hd] at h
      cases h
      rw [Flow.close_cursorX _ _ (by intro a t; split <;> rfl)]
      exact putChar_cursor ch col s
    | writeString p col =>
      simp only [exec, execWriteString, drawing_allowed hd] at h
      cases h
      rw [Flow.close_cursorX _ _ (by intro a t; rfl)]
      exact putString_cursor _ _ _ s
    | _ => simp [Instr.isWriteChar, Instr.isWriteString] at hi
  · have : i.isDrawing = true := by cases i <;> simp_all [Instr.isWriteChar, Instr.isWriteString, Instr.isDrawing]
    rw [(exec_drawing i this s).1 hd] at h
    cases h
    exact ⟨le_refl _, le_max_right _ _⟩

/-! ### No body looks at `RESULT` -/

/-- The states of a body's flow changed by a function. -/
def Flow.mapState {α : Type} (g : State → State) : Flow α → Flow α
  | .ok a s => .ok a (g s)
  | .memFault a s => .memFault a (g s)

theorem Flow.andThen_mapState {α β : Type} (g : State → State) (f : Flow α) (n : α → State → Flow β)
    (hn : ∀ a t, n a (g t) = (n a t).mapState g) : (f.mapState g).andThen n = (f.andThen n).mapState g := by
  cases f with
  | ok a s => exact hn a s
  | memFault a s => rfl

theorem readMem_setResult (v : Byte) (st : Status) (a n : Nat) (s : State) :
    readMem a n (s.setResult v st) = (readMem a n s).mapState (·.setResult v st) := by
  unfold readMem
  rw [show memRead (s.setResult v st) a n = memRead s a n from rfl]
  split <;> rfl

theorem setPixel_setResult (v : Byte) (st : Status) (x y : Int) (c : Colour) (s : State) :
    setPixel (s.setResult v st) x y c = (setPixel s x y c).setResult v st := by
  unfold setPixel
  split <;> rename_i h <;> (rw [State.setResult_cfg] at h; simp [h]; try rfl)

theorem plot_setResult (v : Byte) (st : Status) (points : List Point) (c : Colour) (s : State) :
    plot (s.setResult v st) points c = (plot s points c).setResult v st := by
  induction points generalizing s with
  | nil => rfl
  | cons p rest ih => exact (congrArg (plot · rest c) (setPixel_setResult v st p.1 p.2 c s)).trans (ih _)

theorem forCount_setResult (v : Byte) (st : Status) {body : Nat → State → Flow Unit}
    (hb : ∀ i s, body i (s.setResult v st) = (body i s).mapState (·.setResult v st)) (count first : Nat) (s : State) :
    forCount count first body (s.setResult v st) = (forCount count first body s).mapState (·.setResult v st) := by
  induction count generalizing first s with
  | zero => rfl
  | succ count ih =>
    simp only [forCount]
    rw [hb]
    exact Flow.andThen_mapState _ _ _ fun _ t => ih (first + 1) t

theorem glyphPixel_setResult (v : Byte) (st : Status) (x y : Int) (row : Nat) (c : Colour) (j : Nat) (s : State) :
    glyphPixel x y row c j (s.setResult v st) = (glyphPixel x y row c j s).mapState (·.setResult v st) := by
  simp only [glyphPixel, State.setResult_cfg, setPixel_setResult, Flow.mapState]
  split
  · rfl
  · split <;> rfl

theorem glyphRow_setResult (v : Byte) (st : Status) (x y : Int) (a b : Nat) (c : Colour) (j : Nat) (s : State) :
    glyphRow x y a b c j (s.setResult v st) = (glyphRow x y a b c j s).mapState (·.setResult v st) := by
  simp only [glyphRow, State.setResult_cfg, readMem_setResult]
  exact Flow.andThen_mapState _ _ _ fun _ t =>
    forCount_setResult v st (fun i s => glyphPixel_setResult v st _ _ _ _ _ _) _ _ t

theorem putChar_setResult (v : Byte) (st : Status) (ch : Byte) (c : Colour) (s : State) :
    putChar ch c (s.setResult v st) = (putChar ch c s).mapState (·.setResult v st) := by
  unfold putChar
  split
  · rw [show glyphWidth (ch.toNat - 32) (s.setResult v st) = (glyphWidth (ch.toNat - 32) s).mapState (·.setResult v st) by
      unfold glyphWidth
      simp only [State.setResult_cfg, readMem_setResult]
      split <;> rfl]
    refine Flow.andThen_mapState _ _ _ fun gw t => ?_
    rw [show overflows (t.setResult v st) gw = overflows t gw from rfl]
    split
    · rfl
    · simp only [State.setResult_cfg, State.setResult_cursorX, State.setResult_cursorY]
      rw [forCount_setResult v st (fun i s => glyphRow_setResult v st _ _ _ _ _ _ _)]
      exact Flow.andThen_mapState _ _ _ fun _ _ => rfl
  · rfl

theorem putString_setResult (v : Byte) (st : Status) (c : Colour) (left addr : Nat) (s : State) :
    putString c left addr (s.setResult v st) = (putString c left addr s).mapState (·.setResult v st) := by
  induction left generalizing addr s with
  | zero => rfl
  | succ left ih =>
    simp only [putString, readMem_setResult]
    refine Flow.andThen_mapState _ _ _ fun b t => ?_
    split
    · rfl
    · rw [putChar_setResult]
      refine Flow.andThen_mapState _ _ _ fun d u => ?_
      split
      · exact ih _ _
      · rfl

end Sys2Proof.Machine
end

