-- ==== Sys2Proof/Laws/Transfer.lean ====
section
/-! SUPPORT. What the sequencer's step can do, said once (spec/40_transfer_engine.md R125 to R129). -/

namespace Sys2Proof.Machine

/-- The count after a chunk does not wrap while it stays within the length (40_transfer_engine.md R125). -/
theorem done_add_chunk {s : State} (h : s.xferDone.toNat + s.xferChunk.toNat ≤ s.xferLen.toNat) :
    (s.xferDone + s.xferChunk.setWidth 32).toNat = s.xferDone.toNat + s.xferChunk.toNat := by
  have := s.xferLen.isLt
  have := s.xferChunk.isLt
  simp [BitVec.toNat_add]
  omega

/-- The chunk that continues a transfer after `done` bytes (40_transfer_engine.md R124). -/
def State.laterChunk (s : State) (done : Nat) : Chunk :=
  ⟨.continued, s.xferAddr, s.xferSrc + BitVec.ofNat 32 done, BitVec.ofNat 8 (min 255 (s.xferLen.toNat - done)),
    decide (done + min 255 (s.xferLen.toNat - done) = s.xferLen.toNat)⟩

/-- What the sequencer's step does (40_transfer_engine.md R125 to R128). -/
inductive Sequenced (s : State) : State → Prop
  | none (he : s.busEvent = none) : Sequenced s s
  | spurious (he : s.busEvent ≠ none) (hf : s.xferInFlight = false) : Sequenced s { s with busEvent := none }
  | next (he : s.busEvent = some .chunkDone) (hf : s.xferInFlight = true)
      (hlt : s.xferDone.toNat + s.xferChunk.toNat < s.xferLen.toNat) :
    Sequenced s { s with
      busEvent := none, xferDone := BitVec.ofNat 32 (s.xferDone.toNat + s.xferChunk.toNat)
      xferChunk := (s.laterChunk (s.xferDone.toNat + s.xferChunk.toNat)).len
      busPending := some (s.laterChunk (s.xferDone.toNat + s.xferChunk.toNat))
      chunkLog := s.chunkLog ++ [s.laterChunk (s.xferDone.toNat + s.xferChunk.toNat)] }
  | success (he : s.busEvent = some .chunkDone) (hf : s.xferInFlight = true)
      (heq : s.xferDone.toNat + s.xferChunk.toNat = s.xferLen.toNat) :
    Sequenced s (complete { s with busEvent := none, xferDone := s.xferLen, xferChunk := 0, xferInFlight := false }
      s.xferOwner true)
  | failure (he : s.busEvent = some .xferError) (hf : s.xferInFlight = true) :
    Sequenced s (complete { s with busEvent := none, xferChunk := 0, xferInFlight := false } s.xferOwner false)

/-- The sequencer's step, for a state whose outstanding chunk is not empty and stays within the length (10_state.md R44). -/
theorem sequencerStep_sequenced (s : State)
    (h : s.busEvent = some .chunkDone → s.xferInFlight = true →
      0 < s.xferChunk.toNat ∧ s.xferDone.toNat + s.xferChunk.toNat ≤ s.xferLen.toNat) :
    Sequenced s (sequencerStep s) := by
  unfold sequencerStep
  cases he : s.busEvent with
  | none => exact .none he
  | some event =>
    dsimp only
    by_cases hf : s.xferInFlight = true
    case neg => rw [if_neg hf]; exact .spurious (by simp [he]) (by simpa using hf)
    · rw [if_pos hf]
      cases event with
      | xferError => exact .failure he hf
      | chunkDone =>
        obtain ⟨hpos, hle⟩ := h he hf
        have k := done_add_chunk hle
        have hlen := s.xferLen.isLt
        have k1 : s.xferDone + s.xferChunk.setWidth 32 = BitVec.ofNat 32 (s.xferDone.toNat + s.xferChunk.toNat) :=
          BitVec.eq_of_toNat_eq (by rw [k, BitVec.toNat_ofNat]; omega)
        simp only [chunkDelivered]
        by_cases hlt : s.xferDone.toNat + s.xferChunk.toNat < s.xferLen.toNat
        · rw [if_pos (by simpa only [k] using hlt)]
          have hne : BitVec.ofNat 32 (s.xferDone.toNat + s.xferChunk.toNat) ≠ (0 : Word) := by
            intro h0; rw [k1, h0] at k; simp at k; omega
          simp only [issueChunk, nextChunk, k, maxChunk]
          simp only [k1, if_neg hne]
          exact .next he hf hlt
        · have heq : s.xferDone + s.xferChunk.setWidth 32 = s.xferLen := BitVec.eq_of_toNat_eq (by omega)
          rw [if_neg (by simpa only [k] using hlt)]
          simp only [heq]
          exact .success he hf (by omega)

/-- The sequencer's step writes no memory, neither `FAULT` nor `RESULT` (60_exceptions.md R263), and none of the model's own
fields. -/
theorem sequencerStep_frame (s : State) :
    (sequencerStep s).mem = s.mem ∧ (sequencerStep s).faultBits = s.faultBits ∧ (sequencerStep s).result = s.result ∧
      (sequencerStep s).turns = s.turns ∧ (sequencerStep s).draws = s.draws := by
  have hc : ∀ (v : State) o b, (complete v o b).mem = v.mem ∧ (complete v o b).faultBits = v.faultBits ∧
      (complete v o b).result = v.result ∧ (complete v o b).turns = v.turns ∧ (complete v o b).draws = v.draws := by
    intro v o b
    cases o <;> cases b <;> simp [complete, sessionCompletion, swap]
  unfold sequencerStep chunkDelivered transferFailed issueChunk
  split
  · simp
  · split
    · split
      · dsimp only; split <;> simp [hc]
      · simp [hc]
    · simp

/-! ### Chunks -/

/-- The length of a chunk fits its byte (40_transfer_engine.md R124). -/
theorem chunkLength_toNat (n : Nat) : (BitVec.ofNat 8 (min 255 n)).toNat = min 255 n := by
  rw [BitVec.toNat_ofNat]; omega

/-- The lengths of the first `k` chunks (40_transfer_engine.md R132). -/
theorem sum_chunks (len k : Nat) : ((List.range k).map fun j => min 255 (len - 255 * j)).sum = min len (255 * k) := by
  induction k with
  | zero => simp
  | succ k ih => rw [List.range_succ, List.map_append, List.sum_append, ih]; simp; omega

/-- The chunk outstanding is the one of its number (40_transfer_engine.md R124, R132). -/
theorem nextChunk_at {s : State} (h1 : s.xferDone.toNat < s.xferLen.toNat) (h2 : s.xferDone.toNat % 255 = 0) :
    nextChunk s = chunkAt s.xferAddr s.xferSrc s.xferLen (s.xferDone.toNat / 255) := by
  have e : 255 * (s.xferDone.toNat / 255) = s.xferDone.toNat := by omega
  have hz : (s.xferDone = 0) ↔ s.xferDone.toNat / 255 = 0 := by
    constructor
    · intro h; rw [h]; simp
    · intro h; exact BitVec.eq_of_toNat_eq (by simp; omega)
  simp only [nextChunk, chunkAt, maxChunk, e, Chunk.mk.injEq, true_and]
  refine ⟨?_, ?_, ?_⟩
  · by_cases h0 : s.xferDone = 0
    · rw [if_pos h0, if_pos (hz.mp h0)]
    · rw [if_neg h0, if_neg (fun h => h0 (hz.mpr h))]
  · congr 1
    exact BitVec.eq_of_toNat_eq (by simp)
  · exact decide_eq_decide.mpr (by omega)

/-- The chunk issued after a delivered one is the one of its number (40_transfer_engine.md R125, R132). -/
theorem laterChunk_at {s : State} (done j : Nat) (h : done = 255 * (j + 1)) (hle : done < s.xferLen.toNat) :
    s.laterChunk done = chunkAt s.xferAddr s.xferSrc s.xferLen (j + 1) := by
  subst h
  simp only [State.laterChunk, chunkAt, Chunk.mk.injEq, true_and]
  exact ⟨by simp, decide_eq_decide.mpr (by omega)⟩

/-- While every chunk is mapped the addresses do not wrap: the address space ends mapped memory, and its first page is not
mapped (20_memory.md R61; log 13). -/
theorem chunks_unwrapped {c : Config} {addr : BitVec 7} {src len : Word} (n : Nat)
    (h : ∀ j, j < n → mapped c (chunkAt addr src len j).src.toNat (chunkAt addr src len j).len.toNat = true)
    (hn : 255 * n < len.toNat + 255) : ∀ j, j < n →
      (chunkAt addr src len j).src.toNat = src.toNat + 255 * j ∧
        src.toNat + 255 * j + (chunkAt addr src len j).len.toNat ≤ 2 ^ 32 := by
  intro j hj
  have hlen := len.isLt
  have hcl : ∀ j, (chunkAt addr src len j).len.toNat = min 255 (len.toNat - 255 * j) := fun j => chunkLength_toNat _
  have hcs : ∀ j, (chunkAt addr src len j).src.toNat = (src.toNat + 255 * j) % 2 ^ 32 := by
    intro j; simp [chunkAt, BitVec.toNat_add]
  induction j with
  | zero =>
    have := mapped_end (h 0 hj) (by rw [hcl]; omega)
    rw [hcs] at this ⊢
    have := src.isLt
    omega
  | succ j ih =>
    have h1 := ih (by omega)
    have h2 := mapped_end (h (j + 1) hj) (by rw [hcl]; omega)
    rw [hcs, hcl] at h1 h2 ⊢
    omega

/-- The wire of a chunk depends on its bytes alone (41_bus_abstraction.md R142 to R144). -/
theorem chunkWire_congr (c : Config) (m m' : Memory) (d : Chunk)
    (h : ∀ i, i < d.len.toNat → Memory.read m (d.src.toNat + i) = Memory.read m' (d.src.toNat + i)) :
    chunkWire c m d = chunkWire c m' d := by
  have : bytesAt m d.src.toNat d.len.toNat = bytesAt m' d.src.toNat d.len.toNat := by
    simp only [bytesAt]
    exact List.map_congr_left fun i hi => h i (List.mem_range.mp hi)
  simp only [chunkWire, this]

/-- A delivered chunk adds its wire (41_bus_abstraction.md R144). -/
theorem deliverChunk_busLog (s : State) (d : Chunk) : (deliverChunk s d).busLog = s.busLog ++ chunkWire s.cfg s.mem d := by
  simp only [deliverChunk, chunkWire, chunkHead, chunkTail, chunkData]
  cases s.cfg.bus <;> cases d.kind <;> simp

/-- Steps that leave the transfer, its source and its history alone keep it going (10_state.md R45). -/
theorem TransferProgress.congr {start s t : State} (h : TransferProgress start s) (h1 : t.cfg = s.cfg)
    (h2 : t.xferAddr = s.xferAddr) (h3 : t.xferSrc = s.xferSrc) (h4 : t.xferLen = s.xferLen) (h5 : t.xferDone = s.xferDone)
    (h6 : t.xferOwner = s.xferOwner) (h7 : t.xferInFlight = s.xferInFlight) (h8 : t.busEvent = s.busEvent)
    (h9 : t.chunkLog = s.chunkLog) (h10 : t.busLog = s.busLog)
    (h11 : ∀ a, start.inSource a → Memory.read t.mem a = Memory.read s.mem a) : TransferProgress start t := by
  have hd : t.delivered = s.delivered := by simp [State.delivered, h5, h8]
  refine ⟨h7.trans h.flight, h1.trans h.config, h2.trans h.addr, h3.trans h.src, h4.trans h.len, h6.trans h.owner,
    fun a ha => (h11 a ha).trans (h.source a ha), ?_, ?_, ?_⟩
  · rw [h9, h5]; exact h.chunks
  · rw [hd]; exact h.sent
  · rw [hd, h8, h10]; exact h.wire

end Sys2Proof.Machine
end

