-- ==== Sys2Proof/Laws/Invariant.lean ====
section
/-! SUPPORT. What keeps the invariant of reachable states (spec/10_state.md R44): the parts of a command and of the agents' steps,
one by one. -/

namespace Sys2Proof.Machine

/-- The invariant does not look at the turns and the counter. -/
theorem State.Inv.turned {s : State} (rest : List Turn) (n : Nat) (h : s.Inv) :
    ({ s with turns := rest, draws := n } : State).Inv :=
  ⟨h.memory, h.done, h.flight, h.idle, h.sync, h.source, h.started, h.single, h.cursor, h.faults, h.status, h.level,
    h.openBus⟩

/-- The invariant gives the sequencer's step its cases (40_transfer_engine.md R125 to R128). -/
theorem State.Inv.sequenced {s : State} (h : s.Inv) : Sequenced s (sequencerStep s) := by
  refine sequencerStep_sequenced s fun he hf => ?_
  obtain ⟨h1, h2, h3, h4⟩ := h.flight hf
  omega

/-- With nothing in flight no sync is in flight (10_state.md R44 (d)). -/
theorem State.Inv.noSync {s : State} (h : s.Inv) (hf : s.xferInFlight = false) : s.sstate ≠ .syncInFlight := by
  intro hs
  have := (h.sync.mp hs).1
  simp_all

/-- A pending chunk without an event is the chunk of the transfer in flight (10_state.md R44 (b), (c)). -/
theorem State.Inv.pending {s : State} {d : Chunk} (h : s.Inv) (hp : s.busPending = some d) (he : s.busEvent = none) :
    s.xferInFlight = true ∧ d = nextChunk s := by
  cases hf : s.xferInFlight
  · have := (h.idle hf).1
    simp_all
  · rcases (h.flight hf).2.2.2 with h1 | h1
    · rw [hp] at h1; exact ⟨rfl, by simpa using h1.1⟩
    · exact absurd he h1.2

/-- A latched event leaves no chunk pending and the transaction as the event says (10_state.md R37, R44 (b)). -/
theorem State.Inv.latched {s : State} (h : s.Inv) (hf : s.xferInFlight = true) (he : s.busEvent ≠ none)
    (hd : s.busEvent = some .chunkDone → ¬ s.xferDone.toNat + s.xferChunk.toNat < s.xferLen.toNat) :
    s.busPending = none ∧ s.busOpen = false := by
  have hp : s.busPending = none := by
    rcases (h.flight hf).2.2.2 with h1 | h1
    · exact absurd h1.2 he
    · exact h1.1
  refine ⟨hp, ?_⟩
  cases ho : s.busOpen
  · rfl
  · obtain ⟨_, _, h3 | h3⟩ := h.openBus.mp ho
    · exact absurd hp h3.1
    · exact absurd h3.2 (hd h3.1)

/-- A change outside the transfer, within the bounds, keeps the invariant; the session state may move between states that are
no sync in flight. -/
theorem State.Inv.of_same {s t : State} (h : s.Inv) (h1 : t.cfg = s.cfg) (h2 : Memory.wf t.mem = true)
    (h3 : t.front = s.front) (h4 : t.cursorX.toNat ≤ max 255 s.cfg.w ∧ t.cursorY.toNat ≤ 255)
    (h5 : t.xferDone = s.xferDone ∧ t.xferLen = s.xferLen ∧ t.xferSrc = s.xferSrc ∧ t.xferAddr = s.xferAddr ∧
      t.xferInFlight = s.xferInFlight ∧ t.xferChunk = s.xferChunk ∧ t.xferOwner = s.xferOwner)
    (h6 : t.sstate = s.sstate ∨ (s.sstate ≠ .syncInFlight ∧ t.sstate ≠ .syncInFlight ∧ t.sstate ≠ .initializing))
    (h7 : t.faultBits.toNat < 32) (h8 : (t.result.setWidth 8).toNat < 8)
    (h9 : t.busPending = s.busPending ∧ t.busEvent = s.busEvent ∧ t.busOpen = s.busOpen) (h10 : t.busDC = .data) :
    t.Inv := by
  obtain ⟨a1, a2, a3, a4, a5, a6, a7⟩ := h5
  obtain ⟨b1, b2, b3⟩ := h9
  have hn : nextChunk t = nextChunk s := by simp [nextChunk, a1, a2, a3, a4]
  refine ⟨h2, ?_, ?_, ?_, ?_, ?_, ?_, ?_, ?_, h7, h8, h10, ?_⟩
  · rw [a1, a2]; exact h.done
  · rw [a1, a2, a5, a6]; unfold State.chunkOutstanding; rw [hn, b1, b2]; exact h.flight
  · rw [a5, a6, b1, b2]; exact h.idle
  · rw [a5, a7]
    rcases h6 with h6 | ⟨ha, hb, hc⟩
    · rw [h6]; exact h.sync
    · rw [← h.sync]; simp [ha, hb]
  · rw [a3, a2, h1]; unfold State.syncSource; rw [h1, h3]
    rcases h6 with h6 | ⟨ha, hb, hc⟩
    · rw [h6]; exact h.source
    · exact fun h => absurd h hb
  · rcases h6 with h6 | ⟨ha, hb, hc⟩
    · rw [h6]; exact h.started
    · exact hc
  · rw [h1, h3]; exact h.single
  · rw [h1]; exact h4
  · unfold State.transactionOpen; rw [h1, a1, a2, a5, a6, b1, b2, b3]; exact h.openBus

/-- Taking a fault keeps the invariant (60_exceptions.md R263). -/
theorem State.Inv.raise {s : State} (h : s.Inv) (c : Cause) : (raise c s).Inv := by
  refine h.of_same rfl h.memory rfl h.cursor ⟨rfl, rfl, rfl, rfl, rfl, rfl, rfl⟩ (.inl rfl) ?_ ?_ ⟨rfl, rfl, rfl⟩ h.level
  · change (s.faultBits ||| c.bit).toNat < 32
    rw [BitVec.toNat_or]
    exact Nat.or_lt_two_pow (n := 5) h.faults (by cases c <;> simp [Cause.bit])
  · change (((0 ++ c.status.code : Half)).setWidth 8).toNat < 8
    rw [Status.code_setWidth]
    cases c <;> simp [Cause.status, Status.code]

/-- Writing `RESULT` keeps the invariant (60_exceptions.md R261). -/
theorem State.Inv.setResult {s : State} (h : s.Inv) (v : Byte) (st : Status) : (s.setResult v st).Inv := by
  refine h.of_same rfl h.memory rfl h.cursor ⟨rfl, rfl, rfl, rfl, rfl, rfl, rfl⟩ (.inl rfl) h.faults ?_ ⟨rfl, rfl, rfl⟩
    h.level
  rw [State.setResult_result, Status.code_setWidth]
  cases st <;> decide

/-- A drawing body keeps the invariant, the cursor within its bound. -/
theorem State.Inv.touched {s u : State} (h : s.Inv) (hu : Touched s u) (hc : u.cursorX.toNat ≤ max 255 s.cfg.w) :
    u.Inv := by
  have e := hu.rest
  refine h.of_same ?_ (hu.wf h.memory) ?_ ⟨hc, ?_⟩ ⟨?_, ?_, ?_, ?_, ?_, ?_, ?_⟩ (.inl ?_) ?_ ?_ ⟨?_, ?_, ?_⟩ ?_ <;> rw [e] <;>
    first | exact h.cursor.2 | exact h.faults | exact h.status | exact h.level

/-- The start of a transfer keeps the invariant (40_transfer_engine.md R122, R124). -/
theorem State.Inv.starts {s : State} (h : s.Inv) (hf : s.xferInFlight = false) (src len : Word) (addr : BitVec 7)
    (owner : Owner) (hl : len ≠ 0) (hsync : owner = .session → src = s.syncSource ∧ len.toNat = s.cfg.fbBytes) :
    ({ s with
      xferAddr := addr, xferSrc := src, xferLen := len, xferDone := 0, xferOwner := owner, xferInFlight := true
      xferChunk := BitVec.ofNat 8 (min 255 len.toNat)
      busPending := some ⟨.first, addr, src, BitVec.ofNat 8 (min 255 len.toNat), decide (len.toNat ≤ 255)⟩
      chunkLog := s.chunkLog ++ [⟨.first, addr, src, BitVec.ofNat 8 (min 255 len.toNat), decide (len.toNat ≤ 255)⟩]
      sstate := if owner = .session then .syncInFlight else s.sstate } : State).Inv := by
  have hs := h.noSync hf
  have hd : (min 255 len.toNat = len.toNat) = (len.toNat ≤ 255) := by rw [eq_iff_iff]; omega
  have hl0 : len.toNat ≠ 0 := fun h0 => hl (BitVec.eq_of_toNat_eq (by simpa using h0))
  have hid := h.idle hf
  have hst := h.started
  have hop := h.openBus
  refine ⟨h.memory, ?_, ?_, ?_, ?_, ?_, ?_, h.single, h.cursor, h.faults, h.status, h.level, ?_⟩
  · simp
  · intro _
    refine ⟨?_, ?_, ?_, ?_⟩
    · show (0 : Word).toNat < _; simp; omega
    · simp
    · rw [chunkLength_toNat]; simp
    · left
      simp [nextChunk, maxChunk, hid, hd]
  · simp
  · cases owner <;> simp [hs]
  · cases owner
    · simp [hs]
    · simp
      exact ⟨(hsync rfl).1.trans rfl, (hsync rfl).2⟩
  · cases owner <;> simp [hst]
  · simp [State.transactionOpen, hf, hid] at hop ⊢
    exact hop

/-- The start of a sync keeps the invariant (46_session.md R243, R246). -/
theorem State.Inv.syncBegun {s : State} (h : s.Inv) (hf : s.xferInFlight = false) : s.syncBegun.Inv := by
  obtain ⟨h1, h2⟩ := fbBytes_word s.cfg (fbBytes_bounds _)
  have hi := h.starts hf s.syncSource (BitVec.ofNat 32 s.cfg.fbBytes) s.cfg.devAddr .session h2 (fun _ => ⟨rfl, h1⟩)
  rw [syncSource_eq, h1] at hi
  exact hi

/-- The completion of a transfer keeps the invariant (40_transfer_engine.md R126, R127, 46_session.md R247, R248). -/
theorem State.Inv.completes {s : State} (h : s.Inv) (d : Word) (hd : d.toNat ≤ s.xferLen.toNat)
    (hp : s.busPending = none) (hopen : s.busOpen = false) (hf : s.xferInFlight = true) (ok : Bool) :
    (complete { s with busEvent := none, xferDone := d, xferChunk := 0, xferInFlight := false } s.xferOwner ok).Inv := by
  have hsync := h.sync
  cases ho : s.xferOwner
  · have hns : s.sstate ≠ .syncInFlight := by intro hs; have := (hsync.mp hs).2; simp_all
    refine ⟨h.memory, hd, ?_, ?_, ?_, ?_, h.started, h.single, h.cursor, h.faults, h.status, h.level, ?_⟩ <;>
      simp [complete, hp, hns, State.transactionOpen, hopen]
  · cases ok
    · refine ⟨h.memory, hd, ?_, ?_, ?_, ?_, ?_, h.single, h.cursor, h.faults, h.status, h.level, ?_⟩ <;>
        simp [complete, sessionCompletion, hp, State.transactionOpen, hopen]
    · refine ⟨h.memory, hd, ?_, ?_, ?_, ?_, ?_, ?_, h.cursor, h.faults, h.status, h.level, ?_⟩ <;>
        simp [complete, sessionCompletion, swap, hp, State.transactionOpen, hopen]
      intro h2; simp [h2]; exact h.single h2

/-- The next chunk issued keeps the invariant (40_transfer_engine.md R125). -/
theorem State.Inv.continues {s : State} (h : s.Inv) (hf : s.xferInFlight = true) (he : s.busEvent = some .chunkDone)
    (hlt : s.xferDone.toNat + s.xferChunk.toNat < s.xferLen.toNat) :
    ({ s with
      busEvent := none, xferDone := BitVec.ofNat 32 (s.xferDone.toNat + s.xferChunk.toNat)
      xferChunk := (s.laterChunk (s.xferDone.toNat + s.xferChunk.toNat)).len
      busPending := some (s.laterChunk (s.xferDone.toNat + s.xferChunk.toNat))
      chunkLog := s.chunkLog ++ [s.laterChunk (s.xferDone.toNat + s.xferChunk.toNat)] } : State).Inv := by
  obtain ⟨h1, h2, h3, h4⟩ := h.flight hf
  have hop := h.openBus
  have hlen := s.xferLen.isLt
  have hsum : (BitVec.ofNat 32 (s.xferDone.toNat + s.xferChunk.toNat)).toNat = s.xferDone.toNat + s.xferChunk.toNat := by
    rw [BitVec.toNat_ofNat]; omega
  have hne : BitVec.ofNat 32 (s.xferDone.toNat + s.xferChunk.toNat) ≠ (0 : Word) := by
    intro h0; rw [h0] at hsum; simp at hsum; omega
  refine ⟨h.memory, ?_, ?_, ?_, h.sync, h.source, h.started, h.single, h.cursor, h.faults, h.status, h.level, ?_⟩
  · simp only [hsum]; omega
  · intro _
    refine ⟨?_, ?_, ?_, .inl ⟨?_, rfl⟩⟩
    · simp only [hsum]; omega
    · simp only [hsum]; omega
    · simp only [hsum, State.laterChunk, chunkLength_toNat]
    · simp only [nextChunk, hsum, State.laterChunk, maxChunk, if_neg hne]
  · simp [hf]
  · have hpn : s.busPending = none := by
      rcases h4 with h4 | h4
      · rw [he] at h4; simp at h4
      · exact h4.1
    refine hop.trans ?_
    unfold State.transactionOpen
    simp [hf, he, hlt, hpn]
    exact fun _ => hne

/-- A delivered chunk keeps the invariant (41_bus_abstraction.md R144). -/
theorem State.Inv.delivers {s : State} {d : Chunk} (h : s.Inv) (hp : s.busPending = some d) (he : s.busEvent = none) :
    (deliverChunk s d).Inv := by
  obtain ⟨hf, rfl⟩ := h.pending hp he
  obtain ⟨h1, h2, h3, h4⟩ := h.flight hf
  refine ⟨h.memory, h.done, ?_, ?_, h.sync, h.source, h.started, h.single, h.cursor, h.faults, h.status, h.level, ?_⟩
  · intro _; exact ⟨h1, h2, h3, .inr ⟨rfl, by simp [deliverChunk]⟩⟩
  · simp [deliverChunk, hf]
  · have hop := h.openBus
    simp only [State.transactionOpen, deliverChunk, openAfter, hf, nextChunk, maxChunk, hp, he] at hop ⊢
    cases hb : s.cfg.bus <;> simp [hb] at hop ⊢
    · by_cases hfin : s.xferDone.toNat + min 255 (s.xferLen.toNat - s.xferDone.toNat) = s.xferLen.toNat
      · simp [hfin]; omega
      · simp [hfin]
        by_cases hd0 : s.xferDone = 0
        · rw [if_pos (show s.xferDone = 0#32 from hd0)]; simp; omega
        · rw [if_neg (show ¬ s.xferDone = 0#32 from hd0)]; simp only [hop]
          exact ⟨fun _ => by omega, fun _ => hd0⟩
    · exact hop

/-- A failed chunk keeps the invariant (41_bus_abstraction.md R145). -/
theorem State.Inv.fails {s : State} {d : Chunk} (k : Nat) (h : s.Inv) (hp : s.busPending = some d) (he : s.busEvent = none) :
    (failChunk s d k).Inv := by
  obtain ⟨hf, rfl⟩ := h.pending hp he
  obtain ⟨h1, h2, h3, h4⟩ := h.flight hf
  refine ⟨h.memory, h.done, ?_, ?_, h.sync, h.source, h.started, h.single, h.cursor, h.faults, h.status, h.level, ?_⟩
  · intro _; exact ⟨h1, h2, h3, .inr ⟨rfl, by simp [failChunk]⟩⟩
  · simp [failChunk, hf]
  · simp [failChunk, State.transactionOpen]

/-- The command path leaves the select line at `Data` (41_bus_abstraction.md R143, R151). -/
theorem commandLevel_data (c : Config) {l : DCLevel} (h : l = .data) : commandLevel c l = .data := by
  subst h
  unfold commandLevel
  cases c.bus <;> rfl

end Sys2Proof.Machine
end

