-- ==== Sys2Proof/Laws/PerInstr.lean ====
section
/-! SUPPORT. One lemma per command: the word of a well-formed command meets the row of its opcode in the opcode table
(spec/30_encoding.md R93, R94, R96; spec/opcode_table.json). -/

namespace Sys2Proof.Laws.EncodesLegal

/-- The word of a well-formed command meets the match and the mask of the row its opcode has. -/
def Statement (i : Instr) : Prop :=
  i.wellFormed = true → ∃ r, rowOf i.fields.op = some r ∧ encode i &&& r.mask = r.bits

/-- A row whose fields are met proves the statement. -/
theorem of_fields {i : Instr} (h : i.wellFormed = true → ∃ r, rowOf i.fields.op = some r ∧
    i.fields.and (fieldsOf r.mask) = fieldsOf r.bits) : Statement i := by
  intro hw
  obtain ⟨r, hr, hf⟩ := h hw
  exact ⟨r, hr, (meets_iff _ _ _).mpr (by rw [fieldsOf_encode]; exact hf)⟩

/-- A one-bit operand meets the mask of its unused bits (30_encoding.md R94). -/
theorem low_bit (v : Byte) (h : v.toNat < 2) : v &&& 0xFE = 0 := by
  revert v
  decide

/-- A device address meets the mask of its unused bit (30_encoding.md R94). -/
theorem low_seven (v : Byte) (h : v.toNat < 128) : v &&& 0x80 = 0 := by
  revert v
  decide

/-- A sweep meets the mask of its unused half (30_encoding.md R94). -/
theorem low_half (v : Word) (h : v.toNat < 65536) : v &&& 0xFFFF0000 = 0 := by
  apply BitVec.eq_of_getLsbD_eq
  intro i hi
  by_cases hlt : i < 16
  · have : (0xFFFF0000#32 : Word).getLsbD i = false := by interval_cases i <;> rfl
    simp [this]
  · have : v.getLsbD i = false := by
      rw [BitVec.getLsbD, Nat.testBit_lt_two_pow]
      exact lt_of_lt_of_le h (by
        calc 65536 = 2 ^ 16 := rfl
          _ ≤ 2 ^ i := Nat.pow_le_pow_right (by omega) (by omega))
    simp [this]

theorem init (mode : Byte) : Statement (.init mode) := of_fields fun h => by
  have hv := low_bit mode (by simpa [Instr.wellFormed] using h)
  refine ⟨_, rfl, ?_⟩
  simp [Fields.and, fieldsOf, Instr.fields, Fields.blank]
  exact hv

theorem setDisplayOn (on : Byte) : Statement (.setDisplayOn on) := of_fields fun h => by
  have hv := low_bit on (by simpa [Instr.wellFormed] using h)
  refine ⟨_, rfl, ?_⟩
  simp [Fields.and, fieldsOf, Instr.fields, Fields.blank]
  exact hv

theorem setContrast (v : Byte) : Statement (.setContrast v) := of_fields fun h => by
  refine ⟨_, rfl, ?_⟩
  simp [Fields.and, fieldsOf, Instr.fields, Fields.blank]

theorem updateScreen : Statement (.updateScreen) := of_fields fun h => by
  refine ⟨_, rfl, ?_⟩
  simp [Fields.and, fieldsOf, Instr.fields, Fields.blank]

theorem beginTransfer (addr : Byte) (buffer length : Word) : Statement (.beginTransfer addr buffer length) := of_fields fun h => by
  have hv := low_seven addr (by simpa [Instr.wellFormed] using h)
  refine ⟨_, rfl, ?_⟩
  simp [Fields.and, fieldsOf, Instr.fields, Fields.blank]
  exact hv

theorem drawPixel (x y : Byte) (col : Colour) : Statement (.drawPixel x y col) := of_fields fun h => by
  refine ⟨_, rfl, ?_⟩
  simp [Fields.and, fieldsOf, Instr.fields, Fields.blank]

theorem drawLine (x1 y1 x2 y2 : Byte) (col : Colour) : Statement (.drawLine x1 y1 x2 y2 col) := of_fields fun h => by
  refine ⟨_, rfl, ?_⟩
  simp [Fields.and, fieldsOf, Instr.fields, Fields.blank]

theorem drawCircle (x y r : Byte) (col : Colour) : Statement (.drawCircle x y r col) := of_fields fun h => by
  refine ⟨_, rfl, ?_⟩
  simp [Fields.and, fieldsOf, Instr.fields, Fields.blank]

theorem fillCircle (x y r : Byte) (col : Colour) : Statement (.fillCircle x y r col) := of_fields fun h => by
  refine ⟨_, rfl, ?_⟩
  simp [Fields.and, fieldsOf, Instr.fields, Fields.blank]

theorem drawArc (x y r seg : Byte) (start : Half) (sweep : Word) (col : Colour) (cap : Bool) : Statement (.drawArc x y r seg start sweep col cap) := of_fields fun h => by
  have hv := low_half sweep (by simpa [Instr.wellFormed] using h)
  refine ⟨_, rfl, ?_⟩
  simp [Fields.and, fieldsOf, Instr.fields, Fields.blank]
  exact hv

theorem drawPolyline (verts count : Word) (col : Colour) : Statement (.drawPolyline verts count col) := of_fields fun h => by
  refine ⟨_, rfl, ?_⟩
  simp [Fields.and, fieldsOf, Instr.fields, Fields.blank]

theorem drawRectangle (x1 y1 x2 y2 : Byte) (col : Colour) : Statement (.drawRectangle x1 y1 x2 y2 col) := of_fields fun h => by
  refine ⟨_, rfl, ?_⟩
  simp [Fields.and, fieldsOf, Instr.fields, Fields.blank]

theorem fillRectangle (x1 y1 x2 y2 : Byte) (col : Colour) : Statement (.fillRectangle x1 y1 x2 y2 col) := of_fields fun h => by
  refine ⟨_, rfl, ?_⟩
  simp [Fields.and, fieldsOf, Instr.fields, Fields.blank]

theorem invertRectangle (x1 y1 x2 y2 : Byte) : Statement (.invertRectangle x1 y1 x2 y2) := of_fields fun h => by
  refine ⟨_, rfl, ?_⟩
  simp [Fields.and, fieldsOf, Instr.fields, Fields.blank]

theorem drawBitmap (x y w h : Byte) (bitmap : Word) (col : Colour) : Statement (.drawBitmap x y w h bitmap col) := of_fields fun h => by
  refine ⟨_, rfl, ?_⟩
  simp [Fields.and, fieldsOf, Instr.fields, Fields.blank]

theorem writeChar (ch : Byte) (col : Colour) : Statement (.writeChar ch col) := of_fields fun h => by
  refine ⟨_, rfl, ?_⟩
  simp [Fields.and, fieldsOf, Instr.fields, Fields.blank]

theorem writeString (str : Word) (col : Colour) : Statement (.writeString str col) := of_fields fun h => by
  refine ⟨_, rfl, ?_⟩
  simp [Fields.and, fieldsOf, Instr.fields, Fields.blank]

theorem setCursor (x y : Byte) : Statement (.setCursor x y) := of_fields fun h => by
  refine ⟨_, rfl, ?_⟩
  simp [Fields.and, fieldsOf, Instr.fields, Fields.blank]

theorem fill (col : Colour) : Statement (.fill col) := of_fields fun h => by
  refine ⟨_, rfl, ?_⟩
  simp [Fields.and, fieldsOf, Instr.fields, Fields.blank]

theorem loadBuffer (src len : Word) : Statement (.loadBuffer src len) := of_fields fun h => by
  refine ⟨_, rfl, ?_⟩
  simp [Fields.and, fieldsOf, Instr.fields, Fields.blank]

end Sys2Proof.Laws.EncodesLegal
end

