-- ==== Sys2Proof/Laws/Shapes.lean ====
section
/-! SUPPORT. Laws of the raster walks: the line (spec/43_graphics_shapes.md R181, R183) and the circle (R184). -/

namespace Sys2Proof.Machine

/-! ### One iteration of the line walk -/

/-- The variables of the line walk, `u` and `v` steps away from the end, in an iteration that is not the last: its error is
`dx - dy + u * dy - v * dx` (43_graphics_shapes.md R181). -/
structure LineVars (x2 y2 dx dy sx sy x y err u v : Int) : Prop where
  hx : x2 = x + sx * u
  hy : y2 = y + sy * v
  hu : 0 ≤ u
  hv : 0 ≤ v
  herr : err = dx - dy + u * dy - v * dx
  hsx : sx = 1 ∨ sx = -1
  hsy : sy = 1 ∨ sy = -1

/-- The end is reached exactly when no step is left. -/
theorem LineVars.at_end {x2 y2 dx dy sx sy x y err u v : Int} (h : LineVars x2 y2 dx dy sx sy x y err u v) :
    (x = x2 ∧ y = y2) ↔ u = 0 ∧ v = 0 := by
  obtain ⟨hx, hy, _, _, _, hsx, hsy⟩ := h
  rcases hsx with rfl | rfl <;> rcases hsy with rfl | rfl <;> omega

/-- How two consecutive points of a walk relate whose `x` is its longer axis. -/
def NextX (sx : Int) (p q : Point) : Prop := q.1 = p.1 + sx ∧ (q.2 - p.2).natAbs ≤ 1

/-- A step keeps the form of the variables. -/
theorem LineVars.step {x2 y2 dx dy sx sy x y err u v : Int} (h : LineVars x2 y2 dx dy sx sy x y err u v) (a b : Bool)
    (ha : a = true → 1 ≤ u) (hb : b = true → 1 ≤ v) :
    LineVars x2 y2 dx dy sx sy (if a then x + sx else x) (if b then y + sy else y)
      (err - (if a then dy else 0) + (if b then dx else 0)) (if a then u - 1 else u) (if b then v - 1 else v) := by
  obtain ⟨hx, hy, hu, hv, herr, hsx, hsy⟩ := h
  refine ⟨?_, ?_, ?_, ?_, ?_, hsx, hsy⟩
  · cases a <;> simp only [Bool.false_eq_true, if_true, if_false] <;> linarith
  · cases b <;> simp only [Bool.false_eq_true, if_true, if_false] <;> linarith
  · cases a <;> simp at * <;> omega
  · cases b <;> simp at * <;> omega
  · subst herr
    cases a <;> cases b <;> simp only [Bool.false_eq_true, if_true, if_false] <;> ring

/-- With `dx >= dy` every iteration steps `x`, so that the walk takes `u` iterations. -/
theorem lineWalk_alongX {x2 y2 dx dy sx sy : Int} (hpos : 0 < dx) (hle : dy ≤ dx) (hdy : 0 ≤ dy) (fuel : Nat) :
    ∀ (x y err v : Int), LineVars x2 y2 dx dy sx sy x y err fuel v → -dy < 2 * err →
      (lineWalk x2 y2 dx dy sx sy fuel x y err).length = fuel ∧
      (lineWalk x2 y2 dx dy sx sy fuel x y err ++ [(x2, y2)])[0]? = some (x, y) ∧
      List.IsChain (NextX sx) (lineWalk x2 y2 dx dy sx sy fuel x y err ++ [(x2, y2)]) := by
  induction fuel with
  | zero =>
    intro x y err v h hlow
    have hv : v = 0 := by
      have := h.hv
      have herr := h.herr
      by_contra hne
      have : 1 ≤ v := by omega
      push_cast at herr
      nlinarith
    have := h.at_end.mpr ⟨rfl, hv⟩
    simp [lineWalk, this.1, this.2]
  | succ fuel ih =>
    intro x y err v h hlow
    have hne : ¬ (x = x2 ∧ y = y2) := by
      rw [h.at_end]; omega
    have herr := h.herr
    have hv0 := h.hv
    push_cast at herr
    have hb : decide (2 * err < dx) = true → 1 ≤ v := by
      intro hb
      simp only [decide_eq_true_eq] at hb
      by_contra hlt
      have : v = 0 := by omega
      subst this
      nlinarith
    have hs := h.step true (decide (2 * err < dx)) (by intro _; push_cast; omega) hb
    simp only [if_true] at hs
    rw [show ((fuel + 1 : Nat) : Int) - 1 = fuel by push_cast; ring] at hs
    have hlow' : -dy < 2 * (err - dy + if decide (2 * err < dx) = true then dx else 0) := by
      by_cases hc : 2 * err < dx
      · simp only [hc, decide_true, if_true]; linarith
      · simp only [hc, decide_false, Bool.false_eq_true, if_false]
        rcases Int.lt_or_eq_of_le hle with hl | he
        · linarith
        · subst he
          have e : err = dy * (fuel + 1 - v) := by rw [herr]; ring
          have : 1 ≤ (fuel : Int) + 1 - v := by
            by_contra hk
            have : (fuel : Int) + 1 - v ≤ 0 := by omega
            nlinarith
          nlinarith
    obtain ⟨h1, h2, h3⟩ := ih _ _ _ _ hs hlow'
    have hx : decide (2 * err > -dy) = true := by simpa using hlow
    simp only [lineWalk, if_neg hne, hx, if_true]
    refine ⟨by simpa using h1, by simp, ?_⟩
    rw [List.cons_append, List.isChain_cons]
    refine ⟨fun q hq => ?_, h3⟩
    rw [List.head?_eq_getElem?, h2] at hq
    cases hq
    refine ⟨rfl, ?_⟩
    have := h.hsy
    dsimp only
    split <;> omega

/-! ### The whole line -/

/-- The two coordinates of a point exchanged. -/
def Point.swap (p : Point) : Point := (p.2, p.1)

/-- The walk is the same with its axes exchanged (43_graphics_shapes.md R181). -/
theorem lineWalk_swap (x2 y2 dx dy sx sy : Int) (fuel : Nat) (x y err : Int) :
    lineWalk y2 x2 dy dx sy sx fuel y x (-err) = (lineWalk x2 y2 dx dy sx sy fuel x y err).map Point.swap := by
  induction fuel generalizing x y err with
  | zero => rfl
  | succ fuel ih =>
    have e1 : decide (2 * -err > -dx) = decide (2 * err < dx) := decide_eq_decide.mpr (by omega)
    have e2 : decide (2 * -err < dy) = decide (2 * err > -dy) := decide_eq_decide.mpr (by omega)
    simp only [lineWalk, e1, e2]
    by_cases h : x = x2 ∧ y = y2
    · rw [if_pos h, if_pos ⟨h.2, h.1⟩]; rfl
    · rw [if_neg h, if_neg fun h' => h ⟨h'.2, h'.1⟩, List.map_cons, ← ih]
      refine congrArg₂ _ rfl (congrArg _ ?_)
      split <;> split <;> omega

theorem linePoints_swap (x1 y1 x2 y2 : Int) : linePoints y1 x1 y2 x2 = (linePoints x1 y1 x2 y2).map Point.swap := by
  simp only [linePoints, List.map_cons, ← lineWalk_swap, neg_sub, max_comm (distance y1 y2)]
  rfl

theorem distance_nonneg (a b : Int) : 0 ≤ distance a b := Int.natCast_nonneg _

theorem direction_unit (a b : Int) : direction a b = 1 ∨ direction a b = -1 := by
  unfold direction
  split <;> simp

/-- The end is a distance away in the direction of the walk. -/
theorem direction_distance (a b : Int) : b = a + direction a b * distance a b := by
  unfold direction distance
  split <;> omega

/-- The variables at the start of a line. -/
theorem lineVars_start (x1 y1 x2 y2 : Int) :
    LineVars x2 y2 (distance x1 x2) (distance y1 y2) (direction x1 x2) (direction y1 y2) x1 y1
      (distance x1 x2 - distance y1 y2) (distance x1 x2) (distance y1 y2) where
  hx := direction_distance x1 x2
  hy := direction_distance y1 y2
  hu := distance_nonneg _ _
  hv := distance_nonneg _ _
  herr := by ring
  hsx := direction_unit _ _
  hsy := direction_unit _ _

/-- The walk from the start of a line to its end, in the order of the iterations (43_graphics_shapes.md R181). -/
def lineOrder (x1 y1 x2 y2 : Int) : List Point := (linePoints x1 y1 x2 y2).tail ++ [(x2, y2)]

/-- The points in the order of the walk are the points plotted. -/
theorem lineOrder_perm (x1 y1 x2 y2 : Int) : (lineOrder x1 y1 x2 y2).Perm (linePoints x1 y1 x2 y2) := by
  unfold lineOrder linePoints
  exact List.perm_append_comm

theorem lineOrder_swap (x1 y1 x2 y2 : Int) : lineOrder y1 x1 y2 x2 = (lineOrder x1 y1 x2 y2).map Point.swap := by
  unfold lineOrder
  rw [linePoints_swap, List.map_append, ← List.map_tail]
  rfl

/-- A line whose `x` is the longer axis: its length, its start, and how consecutive points relate. -/
theorem lineOrder_alongX {x1 y1 x2 y2 : Int} (hpos : 0 < distance x1 x2) (hle : distance y1 y2 ≤ distance x1 x2) :
    (lineOrder x1 y1 x2 y2).length = (distance x1 x2).toNat + 1 ∧ (lineOrder x1 y1 x2 y2)[0]? = some (x1, y1) ∧
      List.IsChain (NextX (direction x1 x2)) (lineOrder x1 y1 x2 y2) := by
  have hdy := distance_nonneg y1 y2
  have hv := lineVars_start x1 y1 x2 y2
  have hn : ((distance x1 x2).toNat : Int) = distance x1 x2 := by omega
  rw [← hn] at hv
  simp only [hn] at hv
  have hmax : max (distance x1 x2) (distance y1 y2) = distance x1 x2 := max_eq_left hle
  obtain ⟨h1, h2, h3⟩ := lineWalk_alongX hpos hle hdy (distance x1 x2).toNat x1 y1 _ (distance y1 y2) (by rw [hn]; exact hv)
    (by omega)
  simp only [lineOrder, linePoints, hmax, List.tail_cons]
  exact ⟨by simp [h1], h2, h3⟩

/-- Along a chain the longer axis strictly moves in its direction. -/
theorem NextX.pairwise {sx : Int} (hsx : sx = 1 ∨ sx = -1) {l : List Point} (h : List.IsChain (NextX sx) l) :
    l.Pairwise fun p q => 0 < sx * (q.1 - p.1) := by
  have : List.IsChain (fun p q : Point => 0 < sx * (q.1 - p.1)) l :=
    h.imp fun p q hpq => by rcases hsx with rfl | rfl <;> (have := hpq.1; omega)
  have ht : IsTrans Point fun p q => 0 < sx * (q.1 - p.1) :=
    ⟨fun p q r h1 h2 => by rcases hsx with rfl | rfl <;> omega⟩
  exact List.isChain_iff_pairwise.mp this

/-- A line of no length is its one point (43_graphics_shapes.md R183). -/
theorem lineOrder_point (x y : Int) : lineOrder x y x y = [(x, y)] := by
  simp [lineOrder, linePoints, distance, lineWalk]

/-- 43_graphics_shapes.md R183 (1) to (3), for every line: the number of points, none twice, the start first, and neighbours
in the order of the walk. -/
theorem lineOrder_laws (x1 y1 x2 y2 : Int) :
    (lineOrder x1 y1 x2 y2).length = max (x2 - x1).natAbs (y2 - y1).natAbs + 1 ∧ (lineOrder x1 y1 x2 y2).Nodup ∧
      (lineOrder x1 y1 x2 y2)[0]? = some (x1, y1) ∧
      List.IsChain (fun p q : Point => (q.1 - p.1).natAbs ≤ 1 ∧ (q.2 - p.2).natAbs ≤ 1) (lineOrder x1 y1 x2 y2) := by
  have along : ∀ a b c d : Int, 0 < distance a c → distance b d ≤ distance a c →
      (lineOrder a b c d).length = max (c - a).natAbs (d - b).natAbs + 1 ∧ (lineOrder a b c d).Nodup ∧
        (lineOrder a b c d)[0]? = some (a, b) ∧
        List.IsChain (fun p q : Point => (q.1 - p.1).natAbs ≤ 1 ∧ (q.2 - p.2).natAbs ≤ 1) (lineOrder a b c d) := by
    intro a b c d hpos hle
    obtain ⟨h1, h2, h3⟩ := lineOrder_alongX hpos hle
    have hs := direction_unit a c
    refine ⟨?_, ?_, h2, h3.imp fun p q h => ⟨?_, h.2⟩⟩
    · rw [h1]; unfold distance at *; omega
    · refine (NextX.pairwise hs h3).imp fun {p q} h => ?_
      rintro rfl
      simp at h
    · rw [h.1]; omega
  by_cases hle : distance y1 y2 ≤ distance x1 x2
  · by_cases hpos : 0 < distance x1 x2
    · exact along x1 y1 x2 y2 hpos hle
    · have hx : x1 = x2 := by unfold distance at *; omega
      have hy : y1 = y2 := by unfold distance at *; omega
      subst hx; subst hy
      rw [lineOrder_point]; simp
  · have hd := distance_nonneg x1 x2
    obtain ⟨h1, h2, h3, h4⟩ := along y1 x1 y2 x2 (by omega) (by omega)
    have e := lineOrder_swap y1 x1 y2 x2
    rw [e]
    refine ⟨by rw [List.length_map, h1, max_comm], ?_, ?_, ?_⟩
    · refine h2.map fun p q h => ?_
      simp only [Point.swap, Prod.mk.injEq] at h
      exact Prod.ext h.2 h.1
    · rw [List.getElem?_map, h3]; rfl
    · rw [List.isChain_map]
      exact h4.imp fun p q h => ⟨h.2, h.1⟩

/-! ### Straight lines -/

/-- A walk whose error does not change repeats one step. -/
theorem lineWalk_straight {x2 y2 dx dy sx sy err : Int} {a b : Bool} (ha : decide (2 * err > -dy) = a)
    (hb : decide (2 * err < dx) = b) (hab : a = true ∨ b = true)
    (he : err - (if a then dy else 0) + (if b then dx else 0) = err) (hsx : sx = 1 ∨ sx = -1) (hsy : sy = 1 ∨ sy = -1)
    (fuel : Nat) : ∀ x y : Int, x2 = x + fuel * (if a then sx else 0) → y2 = y + fuel * (if b then sy else 0) →
      lineWalk x2 y2 dx dy sx sy fuel x y err =
        (List.range fuel).map fun (i : Nat) => (x + i * (if a then sx else 0), y + i * (if b then sy else 0)) := by
  induction fuel with
  | zero => intros; rfl
  | succ fuel ih =>
    intro x y hx hy
    have hne : ¬ (x = x2 ∧ y = y2) := by
      rw [hx, hy]
      push_cast
      rcases hab with rfl | rfl
      · rcases hsx with rfl | rfl <;> simp only [if_true] <;> omega
      · rcases hsy with rfl | rfl <;> simp only [if_true] <;> omega
    simp only [lineWalk, if_neg hne, ha, hb, he]
    rw [List.range_succ_eq_map, List.map_cons, List.map_map]
    refine congrArg₂ _ (by simp) ?_
    rw [ih]
    · refine List.map_congr_left fun i _ => ?_
      simp only [Function.comp_apply, Prod.mk.injEq]
      push_cast
      constructor
      · cases a <;> simp only [Bool.false_eq_true, if_true, if_false] <;> ring
      · cases b <;> simp only [Bool.false_eq_true, if_true, if_false] <;> ring
    · rw [hx]; push_cast
      cases a <;> simp only [Bool.false_eq_true, if_true, if_false] <;> ring
    · rw [hy]; push_cast
      cases b <;> simp only [Bool.false_eq_true, if_true, if_false] <;> ring

/-- The points of a horizontal, vertical or exact diagonal line: evenly spaced, both ends included
(43_graphics_shapes.md R183 (4)). -/
theorem mem_linePoints_straight {x1 y1 x2 y2 : Int} (h : x1 = x2 ∨ y1 = y2 ∨ distance x1 x2 = distance y1 y2) (p : Point) :
    p ∈ linePoints x1 y1 x2 y2 ↔
      ∃ i : Nat, (i : Int) ≤ max (distance x1 x2) (distance y1 y2) ∧
        p = (x1 + i * (if x1 = x2 then 0 else direction x1 x2), y1 + i * (if y1 = y2 then 0 else direction y1 y2)) := by
  have hdx := distance_nonneg x1 x2
  have hdy := distance_nonneg y1 y2
  have ex : (distance x1 x2 = 0) = (x1 = x2) := by unfold distance; rw [eq_iff_iff]; omega
  have ey : (distance y1 y2 = 0) = (y1 = y2) := by unfold distance; rw [eq_iff_iff]; omega
  have hx2 := direction_distance x1 x2
  have hy2 := direction_distance y1 y2
  have hn : ((max (distance x1 x2) (distance y1 y2)).toNat : Int) = max (distance x1 x2) (distance y1 y2) := by omega
  by_cases h0 : x1 = x2 ∧ y1 = y2
  · obtain ⟨rfl, rfl⟩ := h0
    have e : linePoints x1 y1 x1 y1 = [(x1, y1)] := by simp [linePoints, distance, lineWalk]
    rw [e]
    simp only [List.mem_singleton, if_true, mul_zero, add_zero]
    exact ⟨fun hp => ⟨0, by simp [hdx], hp⟩, fun ⟨_, _, hp⟩ => hp⟩
  have key : max (distance x1 x2) (distance y1 y2) * (if x1 = x2 then 0 else direction x1 x2) = x2 - x1 ∧
      max (distance x1 x2) (distance y1 y2) * (if y1 = y2 then 0 else direction y1 y2) = y2 - y1 := by
    rcases h with h | h | h
    · have : distance x1 x2 = 0 := ex.symm ▸ h
      rw [if_pos h, this, max_eq_right hdy, if_neg (fun hy => h0 ⟨h, hy⟩), h]
      constructor <;> linarith
    · have : distance y1 y2 = 0 := ey.symm ▸ h
      rw [if_pos h, this, max_eq_left hdx, if_neg (fun hx => h0 ⟨hx, h⟩), h]
      constructor <;> linarith
    · have h1 : x1 ≠ x2 := fun hx => h0 ⟨hx, ey ▸ h ▸ ex.symm ▸ hx⟩
      have h2 : y1 ≠ y2 := fun hy => h0 ⟨ex ▸ h.symm ▸ ey.symm ▸ hy, hy⟩
      rw [if_neg h1, if_neg h2, ← h, max_self]
      rw [← h] at hy2
      constructor <;> linarith
  have hwalk := lineWalk_straight (x2 := x2) (y2 := y2) (dx := distance x1 x2) (dy := distance y1 y2)
    (sx := direction x1 x2) (sy := direction y1 y2) (err := distance x1 x2 - distance y1 y2) (a := !decide (x1 = x2))
    (b := !decide (y1 = y2)) (by rw [← decide_not]; exact decide_eq_decide.mpr (by rw [← ex]; rw [← ex, ← ey] at h h0; omega))
    (by rw [← decide_not]; exact decide_eq_decide.mpr (by rw [← ey]; rw [← ex, ← ey] at h h0; omega))
    (by simp only [Bool.not_eq_true', decide_eq_false_iff_not]; omega)
    (by simp only [Bool.not_eq_true', decide_eq_false_iff_not, ite_not, ← ex, ← ey]; rw [← ex, ← ey] at h h0; split <;> split <;> omega)
    (direction_unit _ _) (direction_unit _ _) (max (distance x1 x2) (distance y1 y2)).toNat x1 y1
    (by simp only [Bool.not_eq_true', decide_eq_false_iff_not, ite_not]; rw [hn, key.1]; ring)
    (by simp only [Bool.not_eq_true', decide_eq_false_iff_not, ite_not]; rw [hn, key.2]; ring)
  simp only [Bool.not_eq_true', decide_eq_false_iff_not, ite_not] at hwalk
  simp only [linePoints, hwalk, List.mem_cons, List.mem_map, List.mem_range]
  constructor
  · rintro (rfl | ⟨i, hi, rfl⟩)
    · refine ⟨(max (distance x1 x2) (distance y1 y2)).toNat, by omega, ?_⟩
      rw [hn, key.1, key.2]
      simp
    · exact ⟨i, by omega, rfl⟩
  · rintro ⟨i, hi, rfl⟩
    by_cases he : (i : Int) = max (distance x1 x2) (distance y1 y2)
    · left
      rw [he, key.1, key.2]
      simp
    · exact .inr ⟨i, by omega, rfl⟩

/-- A straight line plots the same points in both directions (43_graphics_shapes.md R183 (4)). -/
theorem linePoints_reverse {x1 y1 x2 y2 : Int} (h : x1 = x2 ∨ y1 = y2 ∨ distance x1 x2 = distance y1 y2) (p : Point) :
    p ∈ linePoints x1 y1 x2 y2 ↔ p ∈ linePoints x2 y2 x1 y1 := by
  have one : ∀ a b c d : Int, (a = c ∨ b = d ∨ distance a c = distance b d) → p ∈ linePoints a b c d →
      p ∈ linePoints c d a b := by
    intro a b c d h hp
    rw [mem_linePoints_straight h] at hp
    have hc1 : distance c a = distance a c := by unfold distance; omega
    have hc2 : distance d b = distance b d := by unfold distance; omega
    rw [mem_linePoints_straight (by rw [hc1, hc2]; omega), hc1, hc2]
    obtain ⟨i, hi, rfl⟩ := hp
    have hda := distance_nonneg a c
    have hdb := distance_nonneg b d
    refine ⟨(max (distance a c) (distance b d) - i).toNat, by omega, ?_⟩
    have hcast : (((max (distance a c) (distance b d) - i).toNat : Nat) : Int) = max (distance a c) (distance b d) - i := by omega
    have hac := direction_distance a c
    have hbd := direction_distance b d
    have zx : a = c → distance a c = 0 := by rintro rfl; simp [distance]
    have zy : b = d → distance b d = 0 := by rintro rfl; simp [distance]
    have nx : a ≠ c → direction c a = -direction a c := by intro hne; unfold direction; split <;> split <;> omega
    have ny : b ≠ d → direction d b = -direction b d := by intro hne; unfold direction; split <;> split <;> omega
    rw [hcast, Prod.mk.injEq]
    constructor
    · by_cases hx : a = c
      · simp [hx]
      · rw [if_neg hx, if_neg (Ne.symm hx), nx hx]
        have : max (distance a c) (distance b d) = distance a c := by
          rcases h with h | h | h
          · exact absurd h hx
          · rw [zy h]; exact max_eq_left hda
          · rw [← h]; exact max_self _
        rw [this]; linarith
    · by_cases hy : b = d
      · simp [hy]
      · rw [if_neg hy, if_neg (Ne.symm hy), ny hy]
        have : max (distance a c) (distance b d) = distance b d := by
          rcases h with h | h | h
          · rw [zx h]; exact max_eq_right hdb
          · exact absurd h hy
          · rw [h]; exact max_self _
        rw [this]; linarith
  have hd1 : distance x2 x1 = distance x1 x2 := by unfold distance; omega
  have hd2 : distance y2 y1 = distance y1 y2 := by unfold distance; omega
  exact ⟨one _ _ _ _ h, one _ _ _ _ (by rw [hd1, hd2]; omega)⟩

/-- The points of a horizontal line (43_graphics_shapes.md R183). -/
theorem mem_lineX {x1 x2 y : Int} (p : Point) :
    p ∈ linePoints x1 y x2 y ↔ min x1 x2 ≤ p.1 ∧ p.1 ≤ max x1 x2 ∧ p.2 = y := by
  rw [mem_linePoints_straight (.inr (.inl rfl))]
  have hd := distance_nonneg x1 x2
  have : max (distance x1 x2) (distance y y) = distance x1 x2 := by simp [distance]
  rw [this]
  obtain ⟨a, b⟩ := p
  simp only [if_true, mul_zero, add_zero, Prod.mk.injEq]
  have h2 := direction_distance x1 x2
  constructor
  · rintro ⟨i, hi, rfl, rfl⟩
    have h3 : distance x1 x2 = ((x2 - x1).natAbs : Int) := rfl
    refine ⟨?_, ?_, rfl⟩ <;> (unfold direction; split <;> [skip; split] <;> omega)
  · rintro ⟨h3, h4, rfl⟩
    refine ⟨(a - x1).natAbs, ?_, ?_, rfl⟩
    · unfold distance; omega
    · unfold direction
      split <;> [skip; split] <;> omega

/-- The points of a vertical line (43_graphics_shapes.md R183). -/
theorem mem_lineY {x y1 y2 : Int} (p : Point) :
    p ∈ linePoints x y1 x y2 ↔ min y1 y2 ≤ p.2 ∧ p.2 ≤ max y1 y2 ∧ p.1 = x := by
  rw [linePoints_swap, List.mem_map]
  constructor
  · rintro ⟨q, hq, rfl⟩
    exact (mem_lineX q).mp hq
  · intro h
    exact ⟨p.swap, (mem_lineX _).mpr h, rfl⟩

/-- Consecutive elements of a chain are related. -/
theorem chain_get {R : Point → Point → Prop} {l : List Point} (h : List.IsChain R l) (i : Nat) (p q : Point)
    (hp : l[i]? = some p) (hq : l[i + 1]? = some q) : R p q := by
  rw [List.getElem?_eq_some_iff] at hp hq
  obtain ⟨h1, rfl⟩ := hp
  obtain ⟨h2, rfl⟩ := hq
  exact List.isChain_iff_getElem.mp h i h2

/-! ### The circle -/

/-- What holds at every visit of the circle walk: the point is near the circle (43_graphics_shapes.md R184). -/
structure CircleInv (r : Nat) (c : CircleVars) : Prop where
  err : c.err = (c.x + 1) * (c.x + 1) + (c.y + 1) * (c.y + 1) - r * r
  left : -(r : Int) ≤ c.x
  right : c.x ≤ 0
  low : 0 ≤ c.y
  high : c.y ≤ r
  near : c.x - c.y ≤ c.x * c.x + c.y * c.y - r * r ∧ c.x * c.x + c.y * c.y - r * r ≤ c.y - c.x

/-- In the last column the walk is at the top of the circle. -/
theorem CircleInv.top {r : Nat} {c : CircleVars} (h : CircleInv r c) (h0 : c.x = 0) : c.y = r := by
  obtain ⟨_, _, _, hlo, hhi, hn, _⟩ := h
  rw [h0] at hn
  by_contra hne
  have : c.y + 1 ≤ r := by omega
  nlinarith

theorem circleStart_inv (r : Nat) : CircleInv r (circleStart r) where
  err := by simp only [circleStart]; ring
  left := by simp [circleStart]
  right := by simp [circleStart]
  low := by simp [circleStart]
  high := by simp [circleStart]
  near := by simp only [circleStart]; constructor <;> nlinarith

/-- One iteration of the circle walk: it goes on by at most one in each coordinate and by at least one in all, and ends only
in the last column (43_graphics_shapes.md R184). -/
theorem circleStep_laws {r : Nat} {c : CircleVars} (h : CircleInv r c) :
    (c.x ≤ (circleStep c).x ∧ (circleStep c).x ≤ c.x + 1 ∧ c.y ≤ (circleStep c).y ∧ (circleStep c).y ≤ c.y + 1) ∧
      c.x + c.y < (circleStep c).x + (circleStep c).y ∧ ((circleStep c).x > 0 → c.x = 0) ∧
      ((circleStep c).x ≤ 0 → CircleInv r (circleStep c)) := by
  obtain ⟨x, y, err⟩ := c
  obtain ⟨herr, hl, hr, hlo, hhi, hn1, hn2⟩ := h
  simp only at herr hl hr hlo hhi hn1 hn2
  simp only [circleStep]
  by_cases hy : err ≤ y
  · have hyr : y + 1 ≤ r := by
      by_contra hlt
      have : y = r := by omega
      nlinarith [mul_self_nonneg (x + 1)]
    simp only [hy, decide_true, if_true, Bool.true_and]
    have hboth : err > x ∨ (-x = y + 1 ∧ err ≤ x) → (if decide (-x = y + 1 ∧ err ≤ x) = true then 0 else err) > x := by
      rintro (h | h)
      · split <;> rename_i hs
        · simp only [decide_eq_true_eq] at hs; omega
        · exact h
      · simp only [h, and_self, decide_true, if_true]; omega
    have hone : ¬ (err > x ∨ (-x = y + 1 ∧ err ≤ x)) → ¬ (if decide (-x = y + 1 ∧ err ≤ x) = true then 0 else err) > x := by
      intro h
      split <;> rename_i hs
      · simp only [decide_eq_true_eq] at hs; omega
      · omega
    by_cases hx : err > x ∨ (-x = y + 1 ∧ err ≤ x)
    · simp only [hboth hx, if_true]
      refine ⟨by omega, by omega, fun h => by omega, fun h => ?_⟩
      refine ⟨by simp only; rw [herr]; ring, by simp only; omega, h, by simp only; omega, hyr, ?_⟩
      simp only
      rcases hx with hx | ⟨hx, hx'⟩
      · constructor <;> linarith
      · have : x = -(y + 1) := by omega
        subst this
        constructor <;> linarith
    · have hx' : err ≤ x := by omega
      simp only [hone hx, if_false]
      refine ⟨by omega, by omega, fun h => by omega, fun h => ?_⟩
      refine ⟨by simp only; rw [herr]; ring, hl, hr, by simp only; omega, hyr, ?_⟩
      simp only
      constructor <;> linarith
  · have hx : err > x := by omega
    simp only [hy, decide_false, Bool.false_and, Bool.false_eq_true, if_false, hx, if_true]
    refine ⟨by omega, by omega, fun h => by omega, fun h => ?_⟩
    refine ⟨by simp only; rw [herr]; ring, by simp only; omega, h, hlo, hhi, ?_⟩
    simp only
    constructor <;> linarith

/-- The walk from a visit on: where it starts and ends, what it visits, how consecutive points relate, and that a longer
bound changes nothing (43_graphics_shapes.md R184). -/
theorem circleWalkFrom_laws {r : Nat} (fuel : Nat) : ∀ {c : CircleVars}, CircleInv r c → r - c.x - c.y < fuel →
    (circleWalkFrom fuel c)[0]? = some (c.x, c.y) ∧ (circleWalkFrom fuel c).getLast? = some (0, (r : Int)) ∧
      (∀ p ∈ circleWalkFrom fuel c, -(r : Int) ≤ p.1 ∧ p.1 ≤ 0 ∧ 0 ≤ p.2 ∧ p.2 ≤ r) ∧
      List.IsChain (fun p q : Point => p.1 ≤ q.1 ∧ q.1 ≤ p.1 + 1 ∧ p.2 ≤ q.2 ∧ q.2 ≤ p.2 + 1) (circleWalkFrom fuel c) ∧
      ∀ more, fuel ≤ more → circleWalkFrom more c = circleWalkFrom fuel c := by
  induction fuel with
  | zero =>
    intro c h hlt
    have := h.right
    have := h.high
    push_cast at hlt
    omega
  | succ fuel ih =>
    intro c h hlt
    obtain ⟨hstep, hprog, hend, hinv⟩ := circleStep_laws h
    have hpoint : -(r : Int) ≤ c.x ∧ c.x ≤ 0 ∧ 0 ≤ c.y ∧ c.y ≤ r := ⟨h.left, h.right, h.low, h.high⟩
    by_cases hpos : (circleStep c).x > 0
    · have hx := hend hpos
      have hy := h.top hx
      simp only [circleWalkFrom, if_pos hpos]
      refine ⟨rfl, ?_, ?_, List.isChain_singleton _, ?_⟩
      · simp [hx, hy]
      · intro p hp
        rw [List.mem_singleton] at hp
        subst hp
        exact hpoint
      · intro more hm
        obtain ⟨k, rfl⟩ : ∃ k, more = k + 1 := ⟨more - 1, by omega⟩
        simp only [circleWalkFrom, if_pos hpos]
    · have hle : (circleStep c).x ≤ 0 := by omega
      obtain ⟨h1, h2, h3, h4, h5⟩ := ih (hinv hle) (by push_cast at hlt; omega)
      simp only [circleWalkFrom, if_neg hpos]
      refine ⟨rfl, ?_, ?_, ?_, ?_⟩
      · rw [List.getLast?_cons, h2]; rfl
      · intro p hp
        rcases List.mem_cons.mp hp with rfl | hp
        · exact hpoint
        · exact h3 p hp
      · rw [List.isChain_cons]
        refine ⟨fun q hq => ?_, h4⟩
        rw [List.head?_eq_getElem?, h1] at hq
        cases hq
        exact hstep
      · intro more hm
        obtain ⟨k, rfl⟩ : ∃ k, more = k + 1 := ⟨more - 1, by omega⟩
        simp only [circleWalkFrom, if_neg hpos]
        rw [h5 k (by omega)]

end Sys2Proof.Machine
end

