-- ==== Sys2Proof/Laws/Step.lean ====
section
/-! SUPPORT. What a step can do, said once (spec/00_scope.md R17): every step that answers a next state is one move of one
agent, on the state with its turn taken. -/

namespace Sys2Proof.Machine

/-- The moves of the agents, from a state whose turn has been taken; `head` is that turn, if there was one. -/
inductive Move (head : Option Turn) (s : State) : State → Prop
  /-- The host presents a legal word. -/
  | command (w : CommandWord) (i : Instr) {t : State} (hw : head = some (.command w)) (hd : decode w = .legal i)
      (h : exec i s = .next t) : Move head s t
  /-- The host presents an illegal word (30_encoding.md R97). -/
  | illegal (w : CommandWord) (hw : head = some (.command w)) : Move head s (raise .illegal s)
  /-- The deferred start (46_session.md R245). -/
  | session : Move head s (trySyncStart s)
  /-- The sequencer's step (40_transfer_engine.md R125 to R128). -/
  | sequencer : Move head s (sequencerStep s)
  /-- The bus agent delivers the chunk (41_bus_abstraction.md R144). -/
  | deliver (d : Chunk) (hp : s.busPending = some d) (he : s.busEvent = none)
      (hm : mapped s.cfg d.src.toNat d.len.toNat = true) : Move head s (deliverChunk s d)
  /-- The bus agent fails the chunk (41_bus_abstraction.md R145). -/
  | fail (d : Chunk) (k : Nat) (hp : s.busPending = some d) (he : s.busEvent = none) : Move head s (failChunk s d k)
  /-- The tick (46_session.md R244). -/
  | tick : Move head s (tickStep s)
  /-- A read through a port (10_state.md R38, 20_memory.md R84). -/
  | read (v : Word) (n : Nat) : Move head s { s with portData := v, draws := n }
  /-- The host places an asset byte (20_memory.md R83). -/
  | store (a : Word) (v : Byte) (hh : head = some (.storeAsset a v)) (hs : s.xferInFlight = true → ¬ s.inSource a.toNat)
      (ha : inAssets s.cfg a.toNat = true) : Move head s { s with mem := Memory.write s.mem a.toNat v }
  /-- Nothing is enabled. -/
  | idle : Move head s s

/-- The host's command of a step, as `State.presented` names it. -/
theorem presented_of_turn {s : State} {w : CommandWord} {i : Instr} (ht : s.turns.head? = some (.command w))
    (hd : decode w = .legal i) : s.presented = some i := by
  simp [State.presented, ht, hd]

theorem answerable_some {s : State} {d : Chunk} (h : answerable s = some d) : s.busPending = some d ∧ s.busEvent = none := by
  unfold answerable at h
  split at h
  · exact ⟨h, by assumption⟩
  · cases h

/-- The bus agent's free answer is one of its two answers, a free value drawn (41_bus_abstraction.md R144, R145). -/
theorem busFreeStep_move (s : State) : ∃ n, Move none { s with draws := n } (busFreeStep s) := by
  unfold busFreeStep
  split
  · rename_i d hd
    obtain ⟨hp, he⟩ := answerable_some hd
    refine ⟨s.draws + 1, ?_⟩
    dsimp only
    split
    · exact .fail d _ hp he
    · rename_i hm
      simp only [Bool.or_eq_true, Bool.not_eq_true', not_or, Bool.not_eq_false] at hm
      exact .deliver d hp he hm.2
  · exact ⟨s.draws, .idle⟩

/-- The fair default is one move (41_bus_abstraction.md R146, 46_session.md R245). -/
theorem fairStep_move (s : State) : ∃ n, Move none { s with draws := n } (fairStep s) := by
  unfold fairStep
  split
  · exact ⟨s.draws, .sequencer⟩
  · split
    · split
      · exact ⟨s.draws, .idle⟩
      · exact busFreeStep_move s
    · exact ⟨s.draws, .session⟩

/-- A turn that answers a next state is one move. -/
theorem takeTurn_move {turn : Turn} {s t : State} (h : takeTurn turn s = .next t) : Move (some turn) s t := by
  cases turn with
  | command w =>
    simp only [takeTurn, presentCommand] at h
    split at h
    · exact .command w _ rfl (by assumption) h
    · cases h; exact .illegal w rfl
  | session => cases h; exact .session
  | sequencer => cases h; exact .sequencer
  | busSuccess =>
    cases h
    unfold busSuccessStep
    split
    · rename_i d hd
      obtain ⟨hp, he⟩ := answerable_some hd
      split
      · exact .deliver d hp he (by assumption)
      · exact .idle
    · exact .idle
  | busError k =>
    cases h
    unfold busErrorStep
    split
    · rename_i d hd
      obtain ⟨hp, he⟩ := answerable_some hd
      exact .fail d k hp he
    · exact .idle
  | tick => cases h; exact .tick
  | readRegister n => cases h; exact .read _ _
  | readMemory a => cases h; exact .read _ _
  | storeAsset a v =>
    simp only [takeTurn, storeAssetTurn] at h
    split at h
    · split at h
      · cases h
      · rename_i hu
        cases h
        refine .store a v rfl (fun hf hs => hu ?_) (by assumption)
        simp only [State.underTransfer, hf, Bool.true_and, decide_eq_true_eq]
        exact hs
    · cases h

/-- Every step is one move, on the state with its turn taken and its free values drawn. -/
theorem step_cases {s t : State} (h : step s = .next t) :
    ∃ rest n, Move s.turns.head? { s with turns := rest, draws := n } t := by
  unfold step at h
  split at h
  · rename_i hs
    cases h
    obtain ⟨n, hm⟩ := fairStep_move s
    exact ⟨s.turns, n, by rw [show s.turns.head? = none from by rw [hs]; rfl]; exact hm⟩
  · rename_i turn rest hs
    exact ⟨rest, s.draws, by rw [hs]; exact takeTurn_move h⟩

/-- A run of one more step. -/
theorem run_succ {M : Host.Core} {u v : M.State} (k : Nat) (h : M.step u = .next v) : M.run (k + 1) u = M.run k v := by
  conv => lhs; unfold Host.Core.run
  rw [h]

end Sys2Proof.Machine
end

