-- ==== Sys2Proof/Tests/Slice0.lean ====
section
/-! SUPPORT. Tests: the check on operands, decoding of words written out from spec/30_encoding.md, one-step tests with the
vectors of spec/95_test_vectors.md, and for every statement with hypotheses a state and operands that meet them. -/

namespace Sys2Proof.Tests

open Sys2Proof Sys2Proof.Machine

/-! ### Helpers -/

/-- The word of 16 bytes, written as 95_test_vectors.md writes it, trailing zero bytes left out. -/
def word (bytes : List Byte) : CommandWord := wordOfBytes (bytes ++ List.replicate (16 - bytes.length) 0)

/-- The start of a vector: reset, then `fill black`. -/
def blank : State := { State.reset with dirty := true }

/-- One step of the host with a word: it answers a next state, of which `p` holds. -/
def ran (bytes : List Byte) (s : State) (p : State → Bool) : Bool :=
  match step { s with turns := [.command (word bytes)] } with
  | .next t => p t
  | _ => false

/-- One turn. -/
def turned (turn : Turn) (s : State) (p : State → Bool) : Bool :=
  match step { s with turns := [turn] } with
  | .next t => p t
  | _ => false

/-- `RESULT`, and the listed bytes of `FB[0]`, all others 0x00. -/
def left (result : Half) (bytes : List (Nat × Byte)) (t : State) : Bool :=
  decide (t.result = result ∧ t.mem = bytes.map fun b => (0x1000 + b.1, b.2))

/-- `RESULT`, and some bytes of `FB[0]`. -/
def reads (result : Half) (bytes : List (Nat × Byte)) (t : State) : Bool :=
  decide (t.result = result) && bytes.all fun b => decide (Memory.read t.mem (0x1000 + b.1) = b.2)

/-- REF on SPI. -/
def spiConfig : Config where
  toParams := { refParams with bus := .spi }
  ok := by decide

/-- REF with two buffers. -/
def doubleConfig : Config where
  toParams := { refParams with doubleBuffered := true }
  ok := by decide

/-- REF with `DIRTY_TRACKING` and `CONTINUOUS_REFRESH`. -/
def refreshConfig : Config where
  toParams := { refParams with dirtyTracking := true, continuousRefresh := true }
  ok := by decide

/-- `W = 1`, `H = 32` (T2.11). -/
def tinyConfig : Config where
  toParams := { refParams with w := 1, h := 32, rowMapAlt := smokeRowMap 32 }
  ok := by decide

/-- The largest panel, with two buffers that lie side by side. -/
def largeConfig : Config where
  toParams := { refParams with w := 256, h := 128, doubleBuffered := true, rowMapAlt := smokeRowMap 128 }
  ok := by decide +kernel

/-- REF with a bus that may stall. -/
def stallConfig : Config where
  toParams := { refParams with busMayStall := true }
  ok := by decide

/-- The font and the strings of 95_test_vectors.md section 2.6. -/
def fontMemory : Memory :=
  [(0x101CF, 0x70), (0x101D1, 0x88), (0x101D3, 0x88), (0x101D5, 0xF8), (0x101D7, 0x88), (0x101D9, 0x88), (0x101DB, 0x88),
    (0x10400, 0x41), (0x10401, 0x42), (0x10410, 0x41), (0x10411, 0x41)]

/-- Text at a cursor. -/
def text (x y : Half) : State := { blank with mem := fontMemory, cursorX := x, cursorY := y }

/-- After `init 0` and `fill black`. -/
def ready : State := { blank with sstate := .idle, displayOn := true, contrast := 0x7F }

/-! ### Well-formed operands (30_encoding.md R94) -/

theorem test_wellFormed_refuses_init : (Instr.init 2).wellFormed = false ∧ (Instr.init 1).wellFormed = true := by decide
theorem test_wellFormed_refuses_setDisplayOn :
    (Instr.setDisplayOn 0x80).wellFormed = false ∧ (Instr.setDisplayOn 1).wellFormed = true := by decide
theorem test_wellFormed_refuses_beginTransfer :
    (Instr.beginTransfer 0x80 0 0).wellFormed = false ∧ (Instr.beginTransfer 0x7F 0 0).wellFormed = true := by decide
theorem test_wellFormed_refuses_drawArc :
    (Instr.drawArc 0 0 0 0 0 0x10000 .white false).wellFormed = false ∧
      (Instr.drawArc 0 0 0 0 0 0xFFFF .white false).wellFormed = true := by decide

/-! ### Decoding: the words of 95_test_vectors.md -/

theorem test_decode_init : decode (word [0x01, 0x00, 0x01]) = .legal (.init 1) := by decide
theorem test_decode_setDisplayOn : decode (word [0x02, 0x00, 0x01]) = .legal (.setDisplayOn 1) := by decide
theorem test_decode_setContrast : decode (word [0x03, 0x00, 0xFF]) = .legal (.setContrast 0xFF) := by decide
theorem test_decode_updateScreen : decode (word [0x04]) = .legal .updateScreen := by decide
theorem test_decode_beginTransfer : decode (word [0x05, 0, 0x3C, 0, 0, 0, 0, 0, 0, 0, 1, 0, 0x58, 2, 0, 0]) =
    .legal (.beginTransfer 0x3C 0x00010000 600) := by decide
theorem test_decode_drawPixel : decode (word [0x10, 0x00, 0x0A, 0x14]) = .legal (.drawPixel 10 20 .black) := by decide
theorem test_decode_drawLine :
    decode (word [0x11, 0x01, 0x00, 0x01, 0x04, 0x02]) = .legal (.drawLine 0 1 4 2 .white) := by decide
theorem test_decode_drawCircle : decode (word [0x12, 0x01, 0x0A, 0x0B, 0x03]) = .legal (.drawCircle 10 11 3 .white) := by decide
theorem test_decode_fillCircle : decode (word [0x13, 0x01, 0x0A, 0x0B, 0x03]) = .legal (.fillCircle 10 11 3 .white) := by decide
theorem test_decode_drawArc : decode (word [0x14, 0x03, 0x40, 0x20, 0x0A, 0x24, 0xD0, 0x02, 0x68, 0x01]) =
    .legal (.drawArc 64 32 10 36 720 360 .white true) := by decide
theorem test_decode_drawPolyline : decode (word [0x15, 0x01, 0, 0, 0, 0, 0, 0, 0, 0, 1, 0, 3, 0, 0, 0]) =
    .legal (.drawPolyline 0x00010000 3 .white) := by decide
theorem test_decode_drawRectangle :
    decode (word [0x16, 0x01, 0x02, 0x03, 0x06, 0x05]) = .legal (.drawRectangle 2 3 6 5 .white) := by decide
theorem test_decode_fillRectangle :
    decode (word [0x17, 0x01, 0x0A, 0x0B, 0x14, 0x15]) = .legal (.fillRectangle 10 11 20 21 .white) := by decide
theorem test_decode_invertRectangle :
    decode (word [0x18, 0x00, 0x03, 0x05, 0x04, 0x1A]) = .legal (.invertRectangle 3 5 4 26) := by decide
theorem test_decode_drawBitmap : decode (word [0x19, 0x01, 0x0A, 0x08, 0x04, 0x05, 0, 0, 0x00, 0x01, 0x01]) =
    .legal (.drawBitmap 10 8 4 5 0x00010100 .white) := by decide
theorem test_decode_writeChar : decode (word [0x1A, 0x00, 0x41]) = .legal (.writeChar 65 .black) := by decide
theorem test_decode_writeString : decode (word [0x1B, 0x01, 0, 0, 0, 0, 0, 0, 0x00, 0x04, 0x01]) =
    .legal (.writeString 0x00010400 .white) := by decide
theorem test_decode_setCursor : decode (word [0x1C, 0x00, 0x0A, 0x14]) = .legal (.setCursor 10 20) := by decide
theorem test_decode_fill : decode (word [0x1D, 0x01]) = .legal (.fill .white) := by decide
theorem test_decode_loadBuffer : decode (word [0x1E, 0, 0, 0, 0, 0, 0, 0, 0xFE, 0xFF, 0x01, 0, 4, 0, 0, 0]) =
    .legal (.loadBuffer 0x0001FFFE 4) := by decide

/-- T8.1, T8.2: opcodes outside the table. -/
theorem test_decode_unassigned : [0x00, 0x06, 0x0F, 0x1F, 0xFF].all (fun op =>
    decide (decode (word [op]) = .illegal .unassignedOpcode)) = true := by decide

/-- T8.3 to T8.10: a bit of an unused field is 1. -/
theorem test_decode_unused_bits : [[0x10, 0x01, 0x01, 0x01, 0x01], [0x01, 0x00, 0x02], [0x04, 0x01],
    [0x11, 0x05, 0, 0, 4, 2], [0x11, 0x03, 0, 0, 4, 2], [0x05, 0x00, 0xBC],
    [0x14, 0x01, 0x40, 0x20, 0x0A, 0x24, 0, 0, 0x5A, 0, 0x01], [0x1C, 0x01, 0x0A, 0x14]].all (fun bytes =>
    decide (decode (word bytes) = .illegal .unusedBitSet)) = true := by decide

/-- 30_encoding.md R101, R102: lines and their words. -/
theorem test_assembleLine :
    assembleLine "draw_line 0, 0, 4, 2, white  # T3.1" = some 0x00000000000000000000020400000111 ∧
    assembleLine "begin_transfer 0x3C, 0x00010000, 600" = some 0x000002580001000000000000003C0005 ∧
    assembleLine "toggle_display 1" = some 0x00000000000000000000000000010002 ∧
    assembleLine "draw_arc 64, 32, 10, 36, 0, 90, white, cap" = some 0x000000000000005A0000240A20400314 ∧ assembleLine "draw_pixel 256, 0, white" = none := by decide

theorem test_decodeTableWord : decodeTableWord 128 0x0001040000000000000000000000011B = none ∧
    decodeTableWord 128 0x0000000000010400000000000000011B = some (.writeString 0x00010400 .white) := by decide

theorem test_withFetchWord : (match step (State.reset.withFetchWord 128 0x140A001C) with
    | .next t => decide (t.cursorRegister = 0x0014000A)
    | _ => false) = true := by decide

/-! ### One step of each command -/

/-- T7.2 on I2C. -/
theorem test_init_i2c : ran [0x01] State.reset (fun t => decide (t.statusRegister = 0x007F0214 ∧ t.cmdLog.length = 21 ∧
    t.busLog.length = 77 ∧ t.busLog.take 9 = [.start 0x3C, .data 0x00, .data 0xAE, .stop, .start 0x3C, .data 0x00, .data 0xD5,
      .data 0xA0, .stop])) = true := by decide
/-- T7.2 on SPI, `init 1`. -/
theorem test_init_spi : ran [0x01, 0x00, 0x01] { State.reset with cfg := spiConfig } (fun t =>
    decide (t.statusRegister = 0x007F0234 ∧ t.busLog.length = 60 ∧ t.busDC = .data)) = true := by decide
/-- T7.10. -/
theorem test_setDisplayOn : ran [0x02] State.reset (fun t => decide (t.statusRegister = 0x00000010 ∧
    t.busLog = [.start 0x3C, .data 0x00, .data 0xAE, .stop])) = true := by decide
/-- T7.10 on SPI. -/
theorem test_setContrast : ran [0x03, 0x00, 0xFF] { State.reset with cfg := spiConfig } (fun t =>
    decide (t.statusRegister = 0x00FF0010 ∧ t.cmdLog = [.cmd 0x81 (some 0xFF)] ∧
      t.busLog = [.dc .cmd, .data 0x81, .data 0xFF, .dc .data])) = true := by decide
/-- P1, step 4. -/
theorem test_updateScreen : ran [0x04] ready (fun t => decide (t.statusRegister = 0x007F0457 ∧
    t.busPending = some ⟨.first, 0x3C, 0x00001000, 255, false⟩ ∧ t.xferLen = 1024 ∧ t.result = 0)) = true := by decide
/-- T7.1. -/
theorem test_updateScreen_uninitialized : ran [0x04] State.reset (fun t =>
    decide (t.result = 0x0004 ∧ t.statusRegister = 0x00000010)) = true := by decide
/-- T1.12. -/
theorem test_beginTransfer : ran [0x05, 0, 0x3C, 0, 0, 0, 0, 0, 0, 0, 1, 0, 0x58, 2, 0, 0] State.reset (fun t =>
    decide (t.statusRegister = 0x00000011 ∧ t.xferLen = 600 ∧ t.xferDone = 0 ∧
      t.busPending = some ⟨.first, 0x3C, 0x00010000, 255, false⟩)) = true := by decide
/-- T2.3. -/
theorem test_drawPixel : ran [0x10, 0x01, 0x0A, 0x14] blank (left 0 [(266, 0x10)]) = true := by decide
/-- T2.13. -/
theorem test_drawPixel_alternate :
    ran [0x10, 0x01, 0x0A, 0x15] { blank with mapMode := true } (left 0 [(650, 0x04)]) = true := by decide
/-- T3.2. -/
theorem test_drawLine : ran [0x11, 0x01, 4, 2, 0, 0] blank
    (left 0 [(0, 0x01), (1, 0x02), (2, 0x02), (3, 0x04), (4, 0x04)]) = true := by decide
/-- T3.15. -/
theorem test_drawLine_clipped :
    ran [0x11, 0x01, 126, 62, 130, 66] blank (left 0 [(1022, 0x40), (1023, 0x80)]) = true := by decide
/-- T4.3. -/
theorem test_drawCircle : ran [0x12, 0x01, 10, 10, 2] blank
    (left 0 [(136, 0x0E), (137, 0x11), (138, 0x11), (139, 0x11), (140, 0x0E)]) = true := by decide +kernel
/-- T4.6. -/
theorem test_drawCircle_clipped : ran [0x12, 0x01, 127, 63, 3] blank
    (left 0 [(1020, 0xC0), (1021, 0x20), (1022, 0x10), (1023, 0x10)]) = true := by decide +kernel
/-- T4.11. -/
theorem test_fillCircle : ran [0x13, 0x01, 10, 10, 3] blank (left 0 [(9, 0x80), (10, 0x80), (11, 0x80), (135, 0x0E),
    (136, 0x1F), (137, 0x3F), (138, 0x3F), (139, 0x3F), (140, 0x1F), (141, 0x0E)]) = true := by decide +kernel
/-- T4.12. -/
theorem test_fillCircle_clipped :
    ran [0x13, 0x01, 0, 0, 2] blank (left 0 [(0, 0x07), (1, 0x07), (2, 0x03)]) = true := by decide +kernel
/-- T5.8. -/
theorem test_drawArc : ran [0x14, 0x01, 0x0A, 0x0A, 0x08, 0x04, 0, 0, 0x68, 0x01] blank (left 0 [(5, 0x80), (6, 0x40),
    (7, 0x20), (8, 0x10), (9, 0x08), (10, 0x04), (11, 0x08), (12, 0x10), (13, 0x20), (14, 0x40), (15, 0x80), (130, 0x04),
    (131, 0x0A), (132, 0x11), (133, 0x20), (134, 0x40), (135, 0x80), (141, 0x80), (142, 0x40), (143, 0x20), (144, 0x11),
    (145, 0x0A), (146, 0x04), (264, 0x01), (265, 0x02), (266, 0x04), (267, 0x02), (268, 0x01)]) = true := by decide +kernel
/-- T5.10: both caps are the points (64,32) to (64,42), in pages 4 and 5. -/
theorem test_drawArc_cap : ran [0x14, 0x03, 0x40, 0x20, 0x0A, 0x24] blank (left 0 [(576, 0xFF), (704, 0x07)]) = true := by
  decide +kernel
/-- T4.17. -/
theorem test_drawPolyline : ran [0x15, 0x01, 0, 0, 0, 0, 0, 0, 0, 0, 1, 0, 3, 0, 0, 0]
    { blank with mem := [(0x10002, 4), (0x10003, 2), (0x10004, 4), (0x10005, 6)] }
    (reads 0 [(0, 0x01), (1, 0x01), (2, 0x02), (3, 0x02), (4, 0x7C), (5, 0)]) = true := by decide +kernel
/-- T4.19. -/
theorem test_drawPolyline_memFault : ran [0x15, 0x01, 0, 0, 0, 0, 0, 0, 0xFC, 0xFF, 1, 0, 3, 0, 0, 0] blank (fun t =>
    left 0x0007 [(0, 0x01)] t && decide (t.faultBits = 0x10)) = true := by decide
/-- T4.14. -/
theorem test_drawRectangle : ran [0x16, 0x01, 6, 5, 2, 3] blank
    (left 0 [(2, 0x38), (3, 0x28), (4, 0x28), (5, 0x28), (6, 0x38)]) = true := by decide +kernel
/-- T4.16, four columns of it. -/
theorem test_fillRectangle_clipped : ran [0x17, 0x01, 124, 60, 140, 70] blank
    (left 0 [(1020, 0xF0), (1021, 0xF0), (1022, 0xF0), (1023, 0xF0)]) = true := by decide +kernel
/-- T2.16. -/
theorem test_invertRectangle : ran [0x18, 0x00, 3, 5, 4, 26] blank (left 0 [(3, 0xE0), (4, 0xE0), (131, 0xFF), (132, 0xFF),
    (259, 0xFF), (260, 0xFF), (387, 0x07), (388, 0x07)]) = true := by decide +kernel
/-- T2.23. -/
theorem test_invertRectangle_bounds : ran [0x18, 0x00, 0, 0, 128, 10] State.reset (fun t =>
    left 0x0001 [] t && !t.dirty) = true := by decide +kernel
/-- T6.2. -/
theorem test_drawBitmap : ran [0x19, 0x01, 0, 0, 10, 3, 0, 0, 0x00, 0x02, 0x01]
    { blank with mem := [(0x10200, 0xFF), (0x10201, 0xC0), (0x10202, 0x80), (0x10203, 0x40), (0x10204, 0xFF), (0x10205, 0xFF)] }
    (reads 0 [(0, 0x07), (1, 0x05), (8, 0x05), (9, 0x07), (10, 0)]) = true := by decide +kernel
/-- T6.6. -/
theorem test_drawBitmap_memFault : ran [0x19, 0x01, 0, 0, 8, 3, 0, 0, 0xFE, 0xFF, 0x01]
    { blank with mem := [(0x1FFFE, 0xFF), (0x1FFFF, 0xFF)] } (fun t =>
    reads 0x0007 [(0, 0x03), (7, 0x03), (8, 0)] t && decide (t.faultBits = 0x10)) = true := by decide +kernel
/-- T6.12: exact fit in both directions, letter black, cell white. -/
theorem test_writeChar : ran [0x1A, 0x00, 0x41] (text 123 57) (fun t =>
    reads 0x4100 [(1019, 0x02), (1020, 0xEC), (1021, 0xEC), (1022, 0xEC), (1023, 0x02)] t &&
      decide (t.cursorRegister = 0x00390080)) = true := by decide +kernel
/-- T6.11. -/
theorem test_writeChar_rejected : ran [0x1A, 0x01, 0x41] (text 0 58) (fun t =>
    decide (t.result = 0x0002 ∧ t.mem = fontMemory ∧ t.cursorX = 0)) = true := by decide +kernel
/-- T6.8. -/
theorem test_writeString : ran [0x1B, 0x01, 0, 0, 0, 0, 0, 0, 0x00, 0x04, 0x01] (text 120 0) (fun t =>
    reads 0x4202 [(119, 0), (120, 0x7E), (121, 0x09), (123, 0x09), (124, 0x7E), (125, 0)] t &&
      decide (t.cursorRegister = 0x0000007D)) = true := by decide +kernel
/-- T6.14. -/
theorem test_writeString_null : ran [0x1B, 0x01] (text 0 0) (fun t => decide (t.result = 0x0007 ∧ t.faultBits = 0x10)) = true := by
  decide
/-- T6.15. -/
theorem test_setCursor : ran [0x1C, 0x00, 0x0A, 0x14] State.reset (fun t =>
    decide (t.cursorRegister = 0x0014000A ∧ t.result = 0)) = true := by decide
/-- T2.14 on the instance of T2.11. -/
theorem test_fill : ran [0x1D, 0x01] { State.reset with cfg := tinyConfig } (fun t =>
    left 0 [(0, 0xFF), (1, 0xFF), (2, 0xFF), (3, 0xFF)] t && t.dirty) = true := by decide
/-- T2.30. -/
theorem test_loadBuffer_memFault : ran [0x1E, 0, 0, 0, 0, 0, 0, 0, 0xFE, 0xFF, 0x01, 0, 4, 0, 0, 0]
    { blank with mem := [(0x1002, 0xFF), (0x1FFFE, 0x11), (0x1FFFF, 0x22)] } (fun t =>
    reads 0x0007 [(0, 0x11), (1, 0x22), (2, 0xFF)] t && decide (t.faultBits = 0x10)) = true := by decide
/-- T2.28. -/
theorem test_loadBuffer_bounds : ran [0x1E, 0, 0, 0, 0, 0, 0, 0, 0, 0, 0x01, 0, 1, 4, 0, 0] State.reset (fun t =>
    left 0x0001 [] t && !t.dirty) = true := by decide

/-! ### The other agents, and whole tables -/

/-- P4, step 7: a chunk that fails after 3 bytes. -/
theorem test_busError : turned (.busError 3) { State.reset with
      mem := [(0x100FF, 0xFC), (0x10100, 0x03), (0x10101, 0x0A)]
      xferInFlight := true, xferLen := 600, xferDone := 255, xferChunk := 255, xferSrc := 0x10000, xferAddr := 0x3C, busOpen := true
      busPending := some ⟨.continued, 0x3C, 0x000100FF, 255, false⟩ } (fun t =>
    decide (t.busLog = [.restart 0x3C, .data 0xFC, .data 0x03, .data 0x0A, .abort] ∧ t.busEvent = some .xferError ∧
      t.busOpen = false)) = true := by decide
/-- 93_implementation_defined.md U4: the whole chunk gets out before the error. -/
theorem test_busError_whole : turned (.busError 3) { State.reset with
      mem := [(0x10000, 0xFC)], busPending := some ⟨.first, 0x3C, 0x10000, 2, true⟩ } (fun t =>
    decide (t.busLog = [.start 0x3C, .data 0xFC, .data 0x00, .abort] ∧ t.busEvent = some .xferError)) = true := by decide
/-- T7.4, the deferred start; T7.6, the tick. -/
theorem test_deferredStart_and_tick :
    turned .session { ready with dirty := false, sstate := .syncPending }
      (fun t => decide (t.statusRegister = 0x007F0455)) = true ∧
    turned .tick { ready with cfg := refreshConfig, dirty := false }
      (fun t => decide (t.statusRegister = 0x007F0314)) = true := by decide
/-- T5.1, T5.2. -/
theorem test_trig : (fxpSin 7, fxpCos 7) = (89, 1020) ∧ (fxpSin 45, fxpCos 45) = (724, 724) ∧
    (fxpSin 92, fxpCos 92) = (1024, 0) ∧ (fxpSin 359, fxpCos 359) = (-89, 1020) ∧ (fxpSin 450, fxpCos 450) = (1024, 0) ∧
    norm360 360 = 360 ∧ norm360 361 = 1 ∧ norm360 720 = 360 ∧ norm360 65535 = 15 := by decide
/-- T4.13. -/
theorem test_circleWalk : circleWalk 4 = [(-4, 0), (-4, 1), (-3, 2), (-2, 3), (-1, 4), (0, 4)] := by decide

/-! ### Witnesses

Each theorem `witness_<Name>` meets all the hypotheses of `Obligations.<Name>`, clause by clause, at boundary values. -/

/-- `begin_transfer 0x3C, 0x00010000, 2` after reset, its chunk outstanding. -/
def flying : State := { State.reset with
  xferAddr := 0x3C, xferSrc := 0x10000, xferLen := 2, xferInFlight := true, xferChunk := 2
  busPending := some ⟨.first, 0x3C, 0x10000, 2, true⟩, chunkLog := [⟨.first, 0x3C, 0x10000, 2, true⟩] }

/-- The same, its chunk delivered. -/
def delivered : State := { flying with
  busPending := none, busEvent := some .chunkDone, busLog := [.start 0x3C, .data 0, .data 0, .stop] }

/-- A sync just begun. -/
def syncing : State := ready.syncBegun

/-- A sync of the back buffer, its last chunk delivered. -/
def swapping : State := { ready with
  cfg := doubleConfig, sstate := .syncInFlight, xferAddr := 0x3C, xferSrc := 0x2000, xferLen := 1024, xferDone := 1020
  xferInFlight := true, xferChunk := 4, xferOwner := .session, busEvent := some .chunkDone }

/-- The next outcome of a command, with a property of it that is decided. -/
theorem next_of {i : Instr} {s : State} (P : State → Prop) [DecidablePred P]
    (h : (match exec i s with
      | .next t => decide (P t)
      | _ => false) = true) : ∃ t, exec i s = .next t ∧ P t := by
  split at h
  · exact ⟨_, by assumption, of_decide_eq_true h⟩
  · cases h

/-- The same for a step. -/
theorem stepped_of {s : State} (P : State → Prop) [DecidablePred P]
    (h : (match step s with
      | .next t => decide (P t)
      | _ => false) = true) : ∃ t, step s = .next t ∧ P t := by
  split at h
  · exact ⟨_, by assumption, of_decide_eq_true h⟩
  · cases h

theorem inv_reset : State.reset.Inv where
  memory := by decide
  done := by decide
  flight := nofun
  idle := fun _ => ⟨rfl, rfl, rfl⟩
  sync := by decide
  source := nofun
  started := nofun
  single := fun _ => rfl
  cursor := by decide
  faults := by decide
  status := by decide
  level := rfl
  openBus := by unfold State.transactionOpen; decide

theorem inv_flying : flying.Inv where
  memory := by decide
  done := by decide
  flight := fun _ => ⟨by decide, by decide, by decide, .inl ⟨by decide, rfl⟩⟩
  idle := nofun
  sync := by decide
  source := nofun
  started := nofun
  single := fun _ => rfl
  cursor := by decide
  faults := by decide
  status := by decide
  level := rfl
  openBus := by unfold State.transactionOpen; decide

theorem inv_delivered : delivered.Inv where
  memory := by decide
  done := by decide
  flight := fun _ => ⟨by decide, by decide, by decide, .inr ⟨rfl, nofun⟩⟩
  idle := nofun
  sync := by decide
  source := nofun
  started := nofun
  single := fun _ => rfl
  cursor := by decide
  faults := by decide
  status := by decide
  level := rfl
  openBus := by unfold State.transactionOpen; decide

theorem inv_syncing : syncing.Inv where
  memory := by decide
  done := by decide
  flight := fun _ => ⟨by decide, by decide, by decide, .inl ⟨by decide, rfl⟩⟩
  idle := nofun
  sync := by decide
  source := fun _ => by decide
  started := nofun
  single := fun _ => rfl
  cursor := by decide
  faults := by decide
  status := by decide
  level := rfl
  openBus := by unfold State.transactionOpen; decide

theorem inv_swapping : swapping.Inv where
  memory := by decide
  done := by decide
  flight := fun _ => ⟨by decide, by decide, by decide, .inr ⟨rfl, nofun⟩⟩
  idle := nofun
  sync := by decide
  source := fun _ => by decide
  started := nofun
  single := nofun
  cursor := by decide
  faults := by decide
  status := by decide
  level := rfl
  openBus := by unfold State.transactionOpen; decide

/-- Nothing in flight: drawing is not refused. -/
theorem drawable_of_idle {s : State} (h : s.xferInFlight = false) : s.drawable := by
  intro hf
  rw [h] at hf
  cases hf

/-- Asset bytes of REF can be read and lie aside of its front instance. -/
theorem aside_of_assets {s : State} (h : s.cfg = Config.ref) {a n : Nat} (hlo : 0x10000 ≤ a) (hhi : a + n ≤ 0x20000) :
    s.readableAside a n := by
  intro k hk
  constructor
  · rw [h]
    have hb : Config.ref.doubleBuffered = false ∧ Config.ref.assetSize = 0x10000 := ⟨rfl, rfl⟩
    simp [mapped, regions, Region.covers, hb.1, hb.2, assetBase]
    omega
  · have hb : s.frontBase = 0x1000 ∧ s.cfg.fbBytes = 1024 := by
      unfold State.frontBase State.frontIndex
      rw [h]
      exact ⟨rfl, rfl⟩
    rintro ⟨_, h2⟩
    rw [hb.1, hb.2] at h2
    omega

/-- What the statements about one drawing command assume, met by a state with a transfer in flight from assets, too. -/
theorem drawing_witness : (blank.drawable ∧ Memory.wf blank.mem = true) ∧ flying.drawable ∧ Memory.wf flying.mem = true := by
  refine ⟨⟨drawable_of_idle rfl, by decide⟩, ?_, by decide⟩
  rintro _ a ⟨⟨h1, _⟩, _, h4⟩
  have e1 : flying.xferSrc.toNat = 0x10000 := rfl
  have e2 : flying.frontBase + flying.cfg.fbBytes = 0x1400 := rfl
  omega

theorem witness_DecodeInvertsEncode : (Instr.init 1).wellFormed = true ∧ (Instr.setDisplayOn 1).wellFormed = true ∧
    (Instr.beginTransfer 0x7F 0xFFFFFFFF 0xFFFFFFFF).wellFormed = true ∧
    (Instr.drawArc 255 255 255 255 0xFFFF 0xFFFF .white true).wellFormed = true := by decide

theorem witness_WordLegalExactlyWhenItsRowIsMet : decode (word [0x1D, 0x01]) = .legal (.fill .white) := by decide

theorem witness_SerialFormIsLittleEndian : 15 < 16 ∧ (bytesOfWord (word [0x1D, 0x01]))[15]? = some 0 := by decide

theorem witness_LineAssemblesToItsCommand : (Instr.fill .white).wellFormed = true ∧
    commandOfTokens [.name "fill", .name "white"] = some (.fill .white) := by decide

/-- A command; a turn of each other agent; a store to the first and the last asset byte, beside the source of a transfer and
into it, and to the bytes on either side of asset memory. -/
theorem witness_StepRunsThePresentedCommand :
    { State.reset with turns := [.command (word [0x04])] }.turns = .command (word [0x04]) :: [] ∧
    decode (word [0x04]) = .legal .updateScreen ∧
    ([.session, .sequencer, .busSuccess, .busError 3, .tick] : List Turn).all (fun turn =>
      decide ({ flying with turns := [turn] }.turns = turn :: [])) = true ∧
    (let s := { flying with turns := [.storeAsset 0x10002 1] };
      s.turns = .storeAsset 0x10002 1 :: [] ∧ (0x10000 ≤ (0x10002 : Word).toNat ∧ (0x1FFFF : Word).toNat < 0x10000 + s.cfg.assetSize) ∧
        s.xferInFlight = true ∧ ¬ s.inSource (0x10002 : Word).toNat ∧ s.inSource (0x10001 : Word).toNat ∧
        s.inSource (0x10000 : Word).toNat ∧ Memory.wf s.mem = true) ∧
    ¬ 0x10000 ≤ (0xFFFF : Word).toNat ∧ ¬ (0x20000 : Word).toNat < 0x10000 + State.reset.cfg.assetSize := by
  refine ⟨rfl, by decide, by decide, ?_, by decide, by decide⟩
  unfold State.inSource
  decide

theorem witness_IllegalWordOnlyRaisesIllegal :
    { State.reset with turns := [.command (word [0xFF])] }.turns = .command (word [0xFF]) :: [] ∧
    (∀ i, decode (word [0xFF]) ≠ .legal i) ∧ ∀ r ∈ opcodeTable, (word [0xFF]).extractLsb' 0 8 ≠ r.op := by
  refine ⟨rfl, ?_, by decide⟩
  rw [show decode (word [0xFF]) = .illegal .unassignedOpcode by decide]
  exact nofun

theorem witness_EmptyScheduleIsFair :
    (delivered.turns = [] ∧ delivered.busEvent ≠ none) ∧
    (flying.turns = [] ∧ flying.busEvent = none ∧ flying.busPending ≠ none ∧ flying.cfg.busMayStall = false) ∧
    (let s := { flying with cfg := stallConfig };
      s.turns = [] ∧ s.busEvent = none ∧ s.busPending ≠ none ∧ s.cfg.busMayStall = true) ∧
    (ready.turns = [] ∧ ready.busEvent = none ∧ ready.busPending = none ∧ ready.quiescent = true) := by decide

theorem witness_InvariantAtReset : Memory.wf fontMemory = true := by decide

theorem witness_InvariantKeptByEveryStep : flying.Inv ∧ (∃ t, step flying = .next t) ∧
    swapping.Inv ∧ ∃ t, step swapping = .next t ∧ t.front = true ∧ t.sstate = .idle :=
  ⟨inv_flying, ⟨_, rfl⟩, inv_swapping, stepped_of (fun t => t.front = true ∧ t.sstate = .idle) (by decide)⟩

/-- After 0, 1, 2 and 3 steps of this run: nothing in flight, outstanding, answered, completed; and a sync in flight. -/
theorem witness_ReachableStatesMeetTransferClauses : Memory.wf fontMemory = true ∧
    (let run := fun (schedule : List Turn) k (p : State → Bool) =>
      match Host.Core.run core k { State.resetWith Config.ref fontMemory with turns := schedule } with
      | .next s => p s
      | _ => false
    let transfer : List Turn := [.command (word [0x05, 0, 0x3C, 0, 0, 0, 0, 0, 0, 0, 1, 0, 2]), .busSuccess, .sequencer]
    run transfer 0 (fun s => !s.xferInFlight) = true ∧ run transfer 1 (fun s => s.busPending.isSome) = true ∧
    run transfer 2 (fun s => decide (s.busEvent = some .chunkDone)) = true ∧
    run transfer 3 (fun s => !s.xferInFlight && decide (s.xferDone = 2)) = true ∧
    run [.command (word [0x01]), .command (word [0x04])] 2 (fun s => decide (s.sstate = .syncInFlight)) = true) := by
  decide

theorem witness_FaultBitsAreStickyAndTheHostsAlone :
    let s := { flying with faultBits := 0x10 }
    (∃ t, step s = .next t) ∧ s.faultBits.getLsbD 4 = true ∧ ∀ w, s.turns.head? ≠ some (.command w) :=
  ⟨⟨_, rfl⟩, by decide, nofun⟩

theorem witness_EveryCommandEndsWithAStatusOfItsRow :
    (∃ t, exec (.writeChar 65 .white) (text 2 1) = .next t ∧ t.result = 0x4100) ∧
    (∃ t, exec (.writeString 0x10400 .white) (text 120 0) = .next t ∧ t.result = 0x4202) ∧
    (∃ t, exec (.init 0) flying = .next t ∧ t.result = 0x0006 ∧ t.faultBits = 0x04) ∧
    ∃ t, exec (.loadBuffer 0 1) blank = .next t ∧ t.result = 0x0007 ∧ t.faultBits = 0x10 :=
  ⟨next_of (fun t => t.result = 0x4100) (by decide +kernel), next_of (fun t => t.result = 0x4202) (by decide +kernel),
    next_of (fun t => t.result = 0x0006 ∧ t.faultBits = 0x04) (by decide),
    next_of (fun t => t.result = 0x0007 ∧ t.faultBits = 0x10) (by decide)⟩

theorem witness_RefusedCommandsChangeNothingElse :
    (∃ t, exec (.setContrast 1) flying = .next t ∧ t.result.setWidth 8 = Status.errMisuse.code) ∧
    (∃ t, exec (.invertRectangle 0 0 128 0) blank = .next t ∧ t.result.setWidth 8 = Status.errBounds.code) ∧
    (∃ t, exec .updateScreen State.reset = .next t ∧ t.result.setWidth 8 = Status.errState.code) ∧
    (∃ t, exec .updateScreen syncing = .next t ∧ t.result.setWidth 8 = Status.errBusy.code) ∧
    ∃ t, exec (.writeChar 31 .white) blank = .next t ∧ t.result.setWidth 8 = Status.errReject.code ∧
      (Instr.writeChar 31 .white).isWriteChar = true :=
  ⟨next_of (fun t => t.result.setWidth 8 = Status.errMisuse.code) (by decide),
    next_of (fun t => t.result.setWidth 8 = Status.errBounds.code) (by decide),
    next_of (fun t => t.result.setWidth 8 = Status.errState.code) (by decide),
    next_of (fun t => t.result.setWidth 8 = Status.errBusy.code) (by decide),
    next_of (fun t => t.result.setWidth 8 = Status.errReject.code ∧ (Instr.writeChar 31 .white).isWriteChar = true) (by decide)⟩

/-- One step for each register: `FRONT`, the instance registers, the cursor, the context, `LAST_OK`; `XFER.IN_FLIGHT` and
`XFER.CHUNK` at a start, and `XFER.DONE` at an event. -/
theorem witness_EachRegisterHasItsNamedWriters :
    (swapping.Inv ∧ ∃ t, step swapping = .next t ∧ t.front ≠ swapping.front) ∧
    (let s := { State.reset with turns := [.command (word [0x01, 0x00, 0x01])] };
      s.Inv ∧ ∃ t, step s = .next t ∧ t.mapMode ≠ s.mapMode ∧ t.contrast ≠ s.contrast ∧ t.displayOn ≠ s.displayOn) ∧
    (let s := { State.reset with turns := [.command (word [0x1C, 0x00, 0x0A, 0x14])] };
      s.Inv ∧ ∃ t, step s = .next t ∧ t.cursorX ≠ s.cursorX ∧ t.cursorY ≠ s.cursorY) ∧
    (let s := { State.reset with turns := [.command (word [0x05, 0x00, 0x3C])] };
      s.Inv ∧ ∃ t, step s = .next t ∧ t.xferAddr ≠ s.xferAddr) ∧
    (let s := { State.reset with turns := [.command (word [0x05, 0, 0x3C, 0, 0, 0, 0, 0, 0, 0, 1, 0, 1])] };
      s.Inv ∧ ∃ t, step s = .next t ∧ t.xferInFlight ≠ s.xferInFlight ∧ t.xferChunk ≠ s.xferChunk) ∧
    (delivered.Inv ∧ ∃ t, step delivered = .next t ∧ t.xferDone ≠ delivered.xferDone) ∧
    let s := { delivered with lastOk := false }
    s.Inv ∧ ∃ t, step s = .next t ∧ t.lastOk ≠ s.lastOk := by
  refine ⟨⟨inv_swapping, stepped_of (fun t => t.front ≠ swapping.front) (by decide)⟩, ⟨inv_reset.turned _ _, ?_⟩,
    ⟨inv_reset.turned _ _, ?_⟩, ⟨inv_reset.turned _ _, ?_⟩, ⟨inv_reset.turned _ _, ?_⟩, ⟨inv_delivered, ?_⟩, ⟨?_, ?_⟩⟩
  · exact stepped_of (fun t => t.mapMode ≠ State.reset.mapMode ∧ t.contrast ≠ State.reset.contrast ∧
      t.displayOn ≠ State.reset.displayOn) (by decide)
  · exact stepped_of (fun t => t.cursorX ≠ State.reset.cursorX ∧ t.cursorY ≠ State.reset.cursorY) (by decide)
  · exact stepped_of (fun t => t.xferAddr ≠ State.reset.xferAddr) (by decide)
  · exact stepped_of (fun t => t.xferInFlight ≠ State.reset.xferInFlight ∧ t.xferChunk ≠ State.reset.xferChunk) (by decide)
  · exact stepped_of (fun t => t.xferDone ≠ delivered.xferDone) (by decide)
  · have h := inv_delivered
    exact ⟨h.memory, h.done, h.flight, h.idle, h.sync, h.source, h.started, h.single, h.cursor, h.faults, h.status, h.level,
      h.openBus⟩
  · exact stepped_of (fun t => t.lastOk ≠ false) (by decide)

theorem witness_DirtyIsSetByWritesAndClearedBySyncs :
    (swapping.Inv ∧ ∃ t, step swapping = .next t ∧ swapping.dirty = true ∧ t.dirty = false) ∧
    (let s := { State.reset with turns := [.command (word [0x10, 0x01])] };
      s.Inv ∧ ∃ t, step s = .next t ∧ s.dirty = false ∧ t.dirty = true) ∧
    let s := { State.reset with turns := [.storeAsset 0x10000 1] }
    s.Inv ∧ ∃ t, step s = .next t ∧ t.mem ≠ s.mem := by
  refine ⟨⟨inv_swapping, stepped_of (fun t => swapping.dirty = true ∧ t.dirty = false) (by decide)⟩,
    ⟨inv_reset.turned _ _, ?_⟩, ⟨inv_reset.turned _ _, ?_⟩⟩
  · exact stepped_of (fun t => State.reset.dirty = false ∧ t.dirty = true) (by decide)
  · exact stepped_of (fun t => t.mem ≠ State.reset.mem) (by decide)

/-- A byte of the front instance and an asset byte change. -/
theorem witness_OnlyDrawingAndTheHostWriteMemory :
    (let s := { State.reset with turns := [.command (word [0x10, 0x01])] };
      ∃ t, step s = .next t ∧ Memory.read t.mem 0x1000 ≠ Memory.read s.mem 0x1000) ∧
    let s := { State.reset with turns := [.storeAsset 0x1FFFF 1] }
    ∃ t, step s = .next t ∧ Memory.read t.mem 0x1FFFF ≠ Memory.read s.mem 0x1FFFF :=
  ⟨stepped_of (fun t => Memory.read t.mem 0x1000 ≠ Memory.read State.reset.mem 0x1000) (by decide),
    stepped_of (fun t => Memory.read t.mem 0x1FFFF ≠ Memory.read State.reset.mem 0x1FFFF) (by decide)⟩

/-- 20_memory.md R83: into the source of a transfer in flight the host has no store, beside it one. -/
theorem test_storeAsset : (match step { flying with turns := [.storeAsset 0x10001 1] } with
    | .refused .storeUnderTransfer => true
    | _ => false) = true ∧
    turned (.storeAsset 0x10002 1) flying (fun t => decide (t.mem = [(0x10002, 1)])) = true := by decide

theorem witness_SessionTransitionTable : State.reset.Inv ∧ (∃ t, exec (.init 0) State.reset = .next t) ∧
    (∃ t, exec .updateScreen State.reset = .next t) ∧
    ∃ t, exec (.fill .white) State.reset = .next t ∧ (∀ m, Instr.fill .white ≠ .init m) ∧ Instr.fill .white ≠ .updateScreen :=
  ⟨inv_reset, ⟨_, rfl⟩, ⟨_, rfl⟩, ⟨_, rfl, nofun, nofun⟩⟩

theorem witness_CommandsInFlightAreMisuse : flying.xferInFlight = true ∧ (Instr.init 1).usesCommandPath = true ∧
    (Instr.setDisplayOn 1).usesCommandPath = true ∧ (Instr.setContrast 1).usesCommandPath = true := by decide

/-- Drawable in flight from assets; not drawable into the source; a sync in flight with one buffer and with two. -/
theorem witness_DrawingIntoTheSourceIsMisuse :
    (Instr.fill .white).isDrawing = true ∧ flying.drawable ∧ ¬ syncing.drawable ∧
    (syncing.Inv ∧ syncing.sstate = .syncInFlight ∧ syncing.cfg.doubleBuffered = false) ∧
    swapping.Inv ∧ swapping.sstate = .syncInFlight ∧ swapping.cfg.doubleBuffered = true := by
  refine ⟨rfl, drawing_witness.2.1, fun h => ?_, ⟨inv_syncing, rfl, rfl⟩, inv_swapping, rfl, rfl⟩
  exact h rfl 0x1000 ⟨⟨by decide, by decide⟩, by decide, by decide⟩

/-- The last bytes of `FB[0]` and of the assets, the bytes around them, and a range that runs off the end. -/
theorem witness_AddressMapAndReads : 1024 ≤ 1024 ∧ mapped blank.cfg 0x1000 1024 = true ∧ mapped blank.cfg 0x13FF 1 = true ∧
    mapped blank.cfg 0x1FFFF 1 = true ∧ mapped blank.cfg 0xFFFFFFFF 0 = true ∧ mapped blank.cfg 0x1400 1 = false ∧
    mapped blank.cfg 0x0FFF 1 = false ∧ mapped blank.cfg 0x13F0 32 = false ∧ mapped blank.cfg 0x2000 1 = false ∧
    mapped doubleConfig 0x2000 1024 = true := by decide

theorem witness_TranslationIsInjective : 127 < blank.cfg.w ∧ 63 < blank.cfg.h ∧ 0 < blank.cfg.w ∧ 0 < blank.cfg.h ∧
    blank.mapMode = false ∧ { blank with mapMode := true }.mapMode = true ∧
    pixelAddr blank 127 63 = pixelAddr blank 127 63 := by decide

theorem witness_DrawingFrame : (Instr.drawPixel 0 0 .white).isDrawing = true ∧
    (Instr.drawPixel 0 0 .white).isWriteChar = false ∧ (Instr.drawPixel 0 0 .white).isWriteString = false ∧
    ¬ blank.inFront 0x1400 ∧ Memory.wf blank.mem = true ∧ (∃ t, exec (.drawPixel 0 0 .white) blank = .next t ∧ t.dirty = true) ∧
    ∃ t, exec (.drawPixel 128 0 .white) State.reset = .next t ∧ t.dirty = false :=
  ⟨rfl, rfl, rfl, fun h => absurd h.2 (by decide), by decide, next_of (fun t => t.dirty = true) (by decide),
    next_of (fun t => t.dirty = false) (by decide)⟩

theorem witness_DrawPixelPaintsOnePixel : blank.drawable ∧ Memory.wf blank.mem = true ∧
    blank.cfg.w ≤ (128 : Byte).toNat ∧ blank.cfg.h ≤ (64 : Byte).toNat := ⟨drawable_of_idle rfl, by decide⟩

theorem witness_SetPixelRoundTrip : Memory.wf blank.mem = true ∧ 127 < blank.cfg.w ∧ 63 < blank.cfg.h ∧
    (126, 63) ≠ (127, 63) ∧ (blank.cfg.w : Int) ≤ 128 := by decide

theorem witness_DrawLinePaintsItsWalk : blank.drawable ∧ Memory.wf blank.mem = true := drawing_witness.1

/-- A consecutive pair of the walk; one line of each kind of clause (4). -/
theorem witness_LineLaws : ((linePoints 0 0 4 2).tail ++ [(4, 2)])[0]? = some (0, 0) ∧
    ((linePoints 0 0 4 2).tail ++ [(4, 2)])[1]? = some (1, 0) ∧ (2 : Int) = 2 ∧ ((3 : Int) - 0).natAbs = ((0 : Int) - 3).natAbs := by
  decide

theorem witness_CirclesPaintTheirWalk : blank.drawable ∧ Memory.wf blank.mem = true := drawing_witness.1

theorem witness_CircleWalkLaws : (-2, 3) ∈ circleWalk 4 ∧ (circleWalk 4)[2]? = some (-3, 2) ∧ (circleWalk 4)[3]? = some (-2, 3) ∧
    2 * 4 + 2 ≤ 10 := by decide

theorem witness_RectanglesPaintBorderOrBox : blank.drawable ∧ Memory.wf blank.mem = true := drawing_witness.1

theorem witness_DrawArcPaintsSegmentsAndCaps : blank.drawable ∧ Memory.wf blank.mem = true := drawing_witness.1

theorem witness_TrigAndArcLaws : 1 ≤ 71 ∧ 71 ≤ 71 ∧ 35 < 36 ∧ 255 ≤ 255 ∧ 360 ≤ 360 ∧ segmentCount 255 360 ≠ 0 ∧
    254 < segmentCount 255 360 := by decide

/-- Bytes that can be read one by one, as the statements about lists want them. -/
theorem readable_of {s : State} {a n : Nat} (h : ∀ k, k < n → mapped s.cfg (a + k) 1 = true) : s.readable a n := h

/-- A list in assets and aside; one in the front instance up to its last byte; one whose vertex runs off its end. -/
theorem witness_DrawPolylineJoinsItsVertices : blank.drawable ∧ Memory.wf blank.mem = true ∧
    ((0x1FFFC : Word) ≠ 0 ∧ blank.readableAside (0x1FFFC : Word).toNat (2 * (2 : Word).toNat)) ∧
    ((0x13FC : Word) ≠ 0 ∧ 2 ≤ (2 : Word).toNat ∧ blank.readable (0x13FC : Word).toNat (2 * 2) ∧ blank.inFront 0x13FF) ∧
    (1 < (2 : Word).toNat ∧ blank.readable (0x13FD : Word).toNat (2 * 1) ∧ ¬ blank.readable ((0x13FD : Word).toNat + 2 * 1) 2) := by
  refine ⟨drawable_of_idle rfl, by decide, ⟨by decide, aside_of_assets rfl (by decide) (by decide)⟩, ⟨by decide, by decide,
    readable_of (by decide), by decide, by decide⟩, by decide, readable_of (by decide), fun h => ?_⟩
  exact absurd (h 1 (by decide)) (by decide)

/-- A bitmap in assets and aside; one in the front instance up to its last byte; one whose second row runs off its end. -/
theorem witness_DrawBitmapPaintsSetBits : blank.drawable ∧ Memory.wf blank.mem = true ∧
    blank.readableAside (0x1FFFA : Word).toNat ((3 : Byte).toNat * (((10 : Byte).toNat + 7) / 8)) ∧
    (8 * 2 ≤ (2 : Byte).toNat * (8 : Byte).toNat ∧ ∀ m, m < 8 * 2 → mapped blank.cfg ((0x13FE : Word).toNat +
      m / (8 : Byte).toNat * (((8 : Byte).toNat + 7) / 8) + m % (8 : Byte).toNat / 8) 1 = true) ∧
    (8 < (2 : Byte).toNat * (8 : Byte).toNat ∧ (∀ m, m < 8 → mapped blank.cfg ((0x13FF : Word).toNat +
      m / (8 : Byte).toNat * (((8 : Byte).toNat + 7) / 8) + m % (8 : Byte).toNat / 8) 1 = true) ∧
      mapped blank.cfg ((0x13FF : Word).toNat + 8 / (8 : Byte).toNat * (((8 : Byte).toNat + 7) / 8) +
        8 % (8 : Byte).toNat / 8) 1 = false) :=
  ⟨drawable_of_idle rfl, by decide, aside_of_assets rfl (by decide) (by decide), by decide, by decide⟩

/-- The whole panel; one column too far; corners out of order. -/
theorem witness_InvertRectangleFlipsTheBox : blank.drawable ∧ Memory.wf blank.mem = true ∧
    ((0 : Byte) ≤ 127 ∧ (0 : Byte) ≤ 63 ∧ (127 : Byte).toNat < blank.cfg.w ∧ (63 : Byte).toNat < blank.cfg.h) ∧
    ¬ (128 : Byte).toNat < blank.cfg.w ∧ ¬ (5 : Byte) ≤ 4 := ⟨drawable_of_idle rfl, by decide⟩

theorem witness_InvertRectanglePageForm : blank.drawable ∧ Memory.wf blank.mem = true ∧ blank.mapMode = false ∧
    (3 : Byte) ≤ 4 ∧ (5 : Byte) ≤ 26 ∧ (4 : Byte).toNat < blank.cfg.w ∧ (26 : Byte).toNat < blank.cfg.h ∧
    (∃ t, exec (.invertRectangle 3 5 4 26) blank = .next t) ∧ 7 < blank.cfg.pages ∧ 127 < blank.cfg.w :=
  ⟨drawable_of_idle rfl, by decide, rfl, by decide, by decide, by decide, by decide, ⟨_, rfl⟩, by decide, by decide⟩

theorem witness_InvertTwiceRestores : Memory.wf fontMemory = true := by decide

theorem witness_FillWritesEveryByte : (blank.drawable ∧ Memory.wf blank.mem = true) ∧ 1023 < blank.cfg.fbBytes :=
  ⟨drawing_witness.1, by decide⟩

/-- A source aside; and one that runs from the last byte of `FB[0]` into the front instance `FB[1]`, so that the copy reads
what it has written. -/
theorem witness_LoadBufferCopies : blank.drawable ∧ Memory.wf blank.mem = true ∧ blank.cfg.fbBytes < (1025 : Word).toNat ∧
    ((1024 : Word).toNat ≤ blank.cfg.fbBytes ∧ blank.readableAside (0x1FC00 : Word).toNat (1024 : Word).toNat) ∧
    let s := { blank with cfg := largeConfig, front := true }
    s.drawable ∧ (3 : Word).toNat ≤ s.cfg.fbBytes ∧ s.readable (0x1FFF : Word).toNat (3 : Word).toNat ∧
      s.frontBase ≤ (0x1FFF : Word).toNat + 2 ∧ (0x1FFF : Word).toNat + 2 < s.frontBase + 2 :=
  ⟨drawable_of_idle rfl, by decide, by decide, ⟨by decide, aside_of_assets rfl (by decide) (by decide)⟩, drawable_of_idle rfl,
    by decide, readable_of (by decide), by decide, by decide⟩

/-- The copy stops after two bytes; the polyline at an x byte and at a y byte; the bitmap at the start of a row and inside
one. -/
theorem witness_MemFaultKeepsTheWritesBeforeIt : blank.drawable ∧ Memory.wf blank.mem = true ∧
    ((4 : Word).toNat ≤ blank.cfg.fbBytes ∧ 2 < (4 : Word).toNat ∧ blank.readable (0x1FFFE : Word).toNat 2 ∧
      mapped blank.cfg ((0x1FFFE : Word).toNat + 2) 1 = false) ∧
    ((0x1FFFC : Word) ≠ 0 ∧ 2 < (3 : Word).toNat ∧ blank.readableAside (0x1FFFC : Word).toNat (2 * 2) ∧
      mapped blank.cfg ((0x1FFFC : Word).toNat + 2 * 2) 1 = false ∧ blank.readableAside (0x1FFFB : Word).toNat (2 * 2) ∧
      mapped blank.cfg ((0x1FFFB : Word).toNat + 2 * 2) 1 = true ∧
      mapped blank.cfg ((0x1FFFB : Word).toNat + 2 * 2 + 1) 1 = false) ∧
    (2 < (3 : Byte).toNat * (((8 : Byte).toNat + 7) / 8) ∧ blank.readableAside (0x1FFFE : Word).toNat 2 ∧
      mapped blank.cfg ((0x1FFFE : Word).toNat + 2) 1 = false) ∧
    3 < (2 : Byte).toNat * (((9 : Byte).toNat + 7) / 8) ∧ blank.readableAside (0x1FFFD : Word).toNat 3 ∧
      mapped blank.cfg ((0x1FFFD : Word).toNat + 3) 1 = false :=
  ⟨drawable_of_idle rfl, by decide, ⟨by decide, by decide, readable_of (by decide), by decide⟩,
    ⟨by decide, by decide, aside_of_assets rfl (by decide) (by decide), by decide, aside_of_assets rfl (by decide) (by decide),
      by decide, by decide⟩, ⟨by decide, aside_of_assets rfl (by decide) (by decide), by decide⟩, by decide,
    aside_of_assets rfl (by decide) (by decide), by decide⟩

/-- REF with a width table where nothing is mapped. -/
def badWidthsConfig : Config where
  toParams := { refParams with fontWidths := 0x800 }
  ok := by decide

/-- REF with a font where nothing is mapped. -/
def badFontConfig : Config where
  toParams := { refParams with fontBase := 0x20000 }
  ok := by decide

/-- REF with a font of which only the first row of the letter `A` can be read. -/
def lateFontConfig : Config where
  toParams := { refParams with fontBase := 0x1FE30 }
  ok := by decide

/-- REF with a font whose letter `A` lies in the front instance. -/
def frontFontConfig : Config where
  toParams := { refParams with fontBase := 0xE32 }
  ok := by decide

/-- REF with assets up to the last address. -/
def wideConfig : Config where
  toParams := { refParams with assetSize := 0xFFFF0000 }
  ok := by decide

/-- Below and above printable ASCII; one column too far; an unreadable width; an unreadable glyph; an unreadable second row. -/
theorem witness_WriteCharRejects : blank.drawable ∧ ((31 : Byte).toNat < 32 ∧ 126 < (127 : Byte).toNat) ∧
    (32 ≤ (32 : Byte).toNat ∧ (126 : Byte).toNat ≤ 126) ∧
    ((text 124 0).glyphWidthIs 65 5 ∧ ¬ (text 124 0).cellFits 5) ∧
    (badWidthsConfig.fontWidths ≠ 0 ∧ mapped badWidthsConfig (badWidthsConfig.fontWidths.toNat + ((126 : Byte).toNat - 32)) 1 = false) ∧
    (let s := { text 0 0 with cfg := badFontConfig };
      s.drawable ∧ s.glyphWidthIs 65 5 ∧ s.cellFits 5 ∧ mapped s.cfg (glyphRowAddr s.cfg ((65 : Byte).toNat - 32) 0) 2 = false) ∧
    let s := { text 0 0 with cfg := lateFontConfig }
    s.drawable ∧ Memory.wf s.mem = true ∧ s.glyphWidthIs 65 5 ∧ s.cellFits 5 ∧ 1 < s.cfg.fontH ∧
      (∀ i, i < 1 → mapped s.cfg (glyphRowAddr s.cfg ((65 : Byte).toNat - 32) i) 2 = true ∧
        ¬ s.inFront (glyphRowAddr s.cfg ((65 : Byte).toNat - 32) i) ∧
        ¬ s.inFront (glyphRowAddr s.cfg ((65 : Byte).toNat - 32) i + 1)) ∧
      mapped s.cfg (glyphRowAddr s.cfg ((65 : Byte).toNat - 32) 1) 2 = false := by
  refine ⟨drawable_of_idle rfl, by decide, by decide, ⟨rfl, by unfold State.cellFits; decide⟩, by decide,
    ⟨drawable_of_idle rfl, rfl, by unfold State.cellFits; decide, by decide⟩, drawable_of_idle rfl, by decide, rfl,
    by unfold State.cellFits; decide, by decide, ?_, by decide⟩
  unfold State.inFront
  decide

/-- T6.12: an exact fit in both directions, the glyph aside; a glyph in the front instance; one whose second row cannot be
read. -/
theorem witness_WriteCharDrawsItsCell : (let s := { text 0 0 with cfg := frontFontConfig };
      s.drawable ∧ s.glyphWidthIs 65 5 ∧ s.cellFits 5 ∧ s.inFront (glyphRowAddr s.cfg ((65 : Byte).toNat - 32) 0) ∧
        ∀ i, i < s.cfg.fontH → mapped s.cfg (glyphRowAddr s.cfg ((65 : Byte).toNat - 32) i) 2 = true) ∧
    (1 < lateFontConfig.fontH ∧ mapped lateFontConfig (glyphRowAddr lateFontConfig ((65 : Byte).toNat - 32) 0) 2 = true ∧
      mapped lateFontConfig (glyphRowAddr lateFontConfig ((65 : Byte).toNat - 32) 1) 2 = false) ∧
    let s := text 123 57
    s.drawable ∧ Memory.wf s.mem = true ∧ 32 ≤ (65 : Byte).toNat ∧ (65 : Byte).toNat ≤ 126 ∧ s.glyphWidthIs 65 5 ∧ s.cellFits 5 ∧
    ∀ i, i < s.cfg.fontH → mapped s.cfg (glyphRowAddr s.cfg ((65 : Byte).toNat - 32) i) 2 = true ∧
      ¬ s.inFront (glyphRowAddr s.cfg ((65 : Byte).toNat - 32) i) ∧
      ¬ s.inFront (glyphRowAddr s.cfg ((65 : Byte).toNat - 32) i + 1) := by
  unfold State.cellFits State.inFront
  exact ⟨⟨drawable_of_idle rfl, rfl, by decide, by decide, by decide⟩, by decide, drawable_of_idle rfl, by decide, by decide,
    by decide, rfl, by decide, by decide⟩

/-- The null string; the terminator; a character drawn, refused, unreadable; and one drawn at the last address. -/
theorem witness_WriteStringGoesByCharacters : (text 0 0).drawable ∧ mapped Config.ref 0 1 = false ∧
    (mapped Config.ref 0x10402 1 = true ∧ Memory.read fontMemory 0x10402 = 0) ∧
    (mapped Config.ref 0x10400 1 = true ∧ Memory.read fontMemory 0x10400 = 65 ∧
      (∃ u, exec (.writeChar 65 .white) (text 0 0) = .next u ∧ u.result.setWidth 8 = Status.ok.code) ∧
      (∃ u, exec (.writeChar 65 .white) (text 124 0) = .next u ∧ u.result.setWidth 8 = Status.errReject.code) ∧
      ∃ u, exec (.writeChar 65 .white) { text 0 0 with cfg := badFontConfig } = .next u ∧
        u.result.setWidth 8 = Status.errMem.code) ∧
    let s := { text 0 0 with cfg := wideConfig, mem := fontMemory ++ [(0xFFFFFFFF, 65)] }
    s.drawable ∧ mapped s.cfg (0xFFFFFFFF : Word).toNat 1 = true ∧ Memory.read s.mem (0xFFFFFFFF : Word).toNat = 65 ∧
      ∃ u, exec (.writeChar 65 .white) s = .next u ∧ u.result.setWidth 8 = Status.ok.code :=
  ⟨drawable_of_idle rfl, by decide, by decide, ⟨by decide, by decide,
    next_of (fun u => u.result.setWidth 8 = Status.ok.code) (by decide +kernel),
    next_of (fun u => u.result.setWidth 8 = Status.errReject.code) (by decide),
    next_of (fun u => u.result.setWidth 8 = Status.errMem.code) (by decide)⟩, drawable_of_idle rfl, by decide, by decide,
    next_of (fun u => u.result.setWidth 8 = Status.ok.code) (by decide +kernel)⟩

/-- T6.8: `A` is drawn and `B` is refused; the string after `A` has a terminator, too. -/
theorem witness_WriteStringIsItsCharacters : let s := text 120 0
    s.drawable ∧ s.readableAside (0x10400 : Word).toNat (1 + 1) ∧
    (∀ i ch, [(65 : Byte)][i]? = some ch → ch ≠ 0 ∧ Memory.read s.mem ((0x10400 : Word).toNat + i) = ch) ∧
    (∃ t, drawsEach .white [65] s t ∧ ∃ u, exec (.writeChar 66 .white) t = .next u ∧
      u.result.setWidth 8 = Status.errReject.code) ∧
    Memory.read s.mem ((0x10400 : Word).toNat + 1) = 66 ∧ Memory.read s.mem ((0x10411 : Word).toNat + 1) = 0 := by
  refine ⟨drawable_of_idle rfl, aside_of_assets rfl (by decide) (by decide), ?_, ?_, by decide, by decide⟩
  · rintro (_ | i) ch h
    · cases h
      decide
    · cases h
  · obtain ⟨t, ht, h8, u, hu, hr⟩ : ∃ t, exec (.writeChar 65 .white) (text 120 0) = .next t ∧ t.result.setWidth 8 = 0#8 ∧
        ∃ u, exec (.writeChar 66 .white) t = .next u ∧ u.result.setWidth 8 = Status.errReject.code := by
      refine ⟨_, rfl, by decide +kernel, _, rfl, by decide +kernel⟩
    exact ⟨t, ⟨t, ht, h8, rfl⟩, u, hu, hr⟩

theorem witness_TextKeepsTheCursorOnItsRow : (Instr.writeChar 65 .white).isWriteChar = true ∧
    (Instr.writeString 0x10400 .white).isWriteString = true ∧ (∃ t, exec (.writeChar 65 .white) (text 123 57) = .next t) ∧
    ∃ t, exec (.writeString 0x10400 .white) (text 120 0) = .next t := ⟨rfl, rfl, ⟨_, rfl⟩, ⟨_, rfl⟩⟩

theorem witness_BeginTransferStartsOrCompletes : State.reset.xferInFlight = false ∧ (1 : Word) ≠ 0 := by decide

/-- One more chunk to come; the last chunk of the host's transfer and of a sync. -/
theorem witness_ChunkDoneStep :
    (let s := { delivered with xferLen := 256, xferChunk := 255 };
      s.busEvent = some .chunkDone ∧ s.xferInFlight = true ∧ s.xferChunk ≠ 0 ∧
        s.xferDone.toNat + s.xferChunk.toNat < s.xferLen.toNat) ∧
    (delivered.busEvent = some .chunkDone ∧ delivered.xferInFlight = true ∧ delivered.xferChunk ≠ 0 ∧
      delivered.xferDone.toNat + delivered.xferChunk.toNat = delivered.xferLen.toNat ∧ delivered.xferOwner = .host) ∧
    swapping.busEvent = some .chunkDone ∧ swapping.xferInFlight = true ∧ swapping.xferChunk ≠ 0 ∧
      swapping.xferDone.toNat + swapping.xferChunk.toNat = swapping.xferLen.toNat ∧ swapping.xferOwner = .session := by
  decide

theorem witness_XferErrorStep :
    (let s := { delivered with busEvent := some .xferError };
      s.busEvent = some .xferError ∧ s.xferInFlight = true ∧ s.xferOwner = .host) ∧
    (let s := { swapping with busEvent := some .xferError };
      s.busEvent = some .xferError ∧ s.xferInFlight = true ∧ s.xferOwner = .session) ∧
    State.reset.xferInFlight = false ∧ State.reset.busEvent = none := by decide

theorem witness_BusDeliversAMappedChunk :
    (flying.busPending = some ⟨.first, 0x3C, 0x10000, 2, true⟩ ∧ flying.busEvent = none ∧
      mapped flying.cfg (0x10000 : Word).toNat (2 : Byte).toNat = true ∧ flying.cfg.bus = .i2c ∧ spiConfig.bus = .spi ∧
      mapped spiConfig (0x10000 : Word).toNat (2 : Byte).toNat = true) ∧
    (let s := { flying with busPending := some ⟨.first, 0x3C, 0x13FF, 2, true⟩ };
      s.busPending = some ⟨.first, 0x3C, 0x13FF, 2, true⟩ ∧ mapped s.cfg (0x13FF : Word).toNat (2 : Byte).toNat = false) ∧
    delivered.busPending = none ∧ delivered.busEvent ≠ none := by decide

/-- An error after the one byte that is mapped, and after all bytes of a chunk that is. -/
theorem witness_BusFailsAChunk :
    (let s := { flying with busPending := some ⟨.first, 0x3C, 0x13FF, 2, true⟩ };
      s.busPending = some ⟨.first, 0x3C, 0x13FF, 2, true⟩ ∧ s.busEvent = none ∧ 1 ≤ (2 : Byte).toNat ∧
        mapped s.cfg (0x13FF : Word).toNat 1 = true) ∧
    flying.busPending = some ⟨.first, 0x3C, 0x10000, 2, true⟩ ∧ flying.busEvent = none ∧ 2 ≤ (2 : Byte).toNat ∧
      mapped flying.cfg (0x10000 : Word).toNat 2 = true := by decide

/-- The transfer just started; it stays in flight in the bus agent's step, and ends with success in the sequencer's. -/
theorem witness_TransferProceedsChunkByChunk :
    (flying.Inv ∧ flying.xferInFlight = true ∧ flying.xferDone = 0 ∧ flying.busEvent = none) ∧
    (let s := { flying with turns := [.busSuccess] };
      s.Inv ∧ TransferProgress flying s ∧ ∃ t, step s = .next t ∧ t.xferInFlight = true) ∧
    delivered.Inv ∧ TransferProgress flying delivered ∧
      ∃ t, step delivered = .next t ∧ t.xferInFlight = false ∧ t.lastOk = true := by
  refine ⟨⟨inv_flying, rfl, rfl, rfl⟩, ⟨inv_flying.turned _ _, ⟨rfl, rfl, rfl, rfl, rfl, rfl, fun _ _ => rfl, by decide, ?_, ?_⟩, ?_⟩,
    inv_delivered, ⟨rfl, rfl, rfl, rfl, rfl, rfl, fun _ _ => rfl, by decide, ?_, ?_⟩, ?_⟩
  · intro j hj
    exact absurd hj (by simp [State.delivered, flying, State.reset, State.resetWith])
  · exact fun _ => by decide
  · exact stepped_of (fun t => t.xferInFlight = true) (by decide)
  · intro j hj
    have : j = 0 := by
      have : delivered.delivered = 1 := by decide
      omega
    subst this
    decide
  · exact fun _ => by decide
  · exact stepped_of (fun t => t.xferInFlight = false ∧ t.lastOk = true) (by decide)

theorem witness_ChunkSizesSumToTheLength : 4 < chunkCount 1024 ∧ 3 + 1 < chunkCount 1024 ∧ ¬ 4 + 1 < chunkCount 1024 := by decide

theorem witness_TransferEndsWhenTheBusMayNotStall : flying.Inv ∧ flying.cfg.busMayStall = false ∧ flying.turns = [] ∧
    flying.xferInFlight = true := ⟨inv_flying, rfl, rfl, rfl⟩

theorem witness_InitRunsTheBringUp : State.reset.xferInFlight = false := rfl

theorem witness_DisplayCommandsOnTheWire : State.reset.xferInFlight = false ∧ State.reset.cfg.bus = .i2c ∧ spiConfig.bus = .spi := by
  decide

/-- The five states of the session, the gate open and closed. -/
theorem witness_UpdateScreenByState : State.reset.sstate = .uninitialized ∧
    { State.reset with sstate := .initializing }.sstate = .initializing ∧ syncing.sstate = .syncInFlight ∧
    (ready.sstate = .idle ∧ ready.displayOn = true ∧ ready.xferInFlight = false ∧
      (ready.cfg.dirtyTracking = true → ready.dirty = true)) ∧
    let s := { ready with sstate := .syncPending, cfg := refreshConfig, dirty := false }
    s.sstate = .syncPending ∧
      ¬ (s.displayOn = true ∧ s.xferInFlight = false ∧ (s.cfg.dirtyTracking = true → s.dirty = true)) := by decide

/-- A tick that is a request and one that is not; a deferred start, one with nothing pending, and one with the gate closed. -/
theorem witness_TickAndDeferredStart : (refreshConfig.continuousRefresh = true ∧ ready.sstate = .idle) ∧
    ready.cfg.continuousRefresh = false ∧
    (let s := { ready with sstate := .syncPending };
      s.sstate = .syncPending ∧ s.displayOn = true ∧ s.xferInFlight = false ∧ (s.cfg.dirtyTracking = true → s.dirty = true)) ∧
    ready.sstate ≠ .syncPending ∧
    let s := { ready with sstate := .syncPending, displayOn := false }
    ¬ (s.displayOn = true ∧ s.xferInFlight = false ∧ (s.cfg.dirtyTracking = true → s.dirty = true)) := by decide

theorem witness_ReadPortsShowTheState : ready.xferInFlight = false ∧ flying.xferInFlight = true ∧ 8 ≤ 8 ∧
    { ready with turns := [.readRegister 0] }.turns = .readRegister 0 :: [] ∧
    { ready with turns := [.readMemory 0x13FF] }.turns = .readMemory 0x13FF :: [] ∧
    mapped ready.cfg (0x13FF : Word).toNat 1 = true := by decide

end Sys2Proof.Tests
end

section
/-! Proofs of the statements about the step and the agents (spec/00_scope.md R9, R17): a step runs the turn it takes, and each
register has its named writers. -/

namespace Sys2Proof.Machine

/-! ### One turn -/

/-- With a turn left, a step takes the oldest (00_scope.md R17). -/
theorem step_of_turn {s : State} {turn : Turn} {rest : List Turn} (h : s.turns = turn :: rest) :
    step s = takeTurn turn { s with turns := rest } := by
  rw [step, h]

/-- A legal word at the command port runs as its command (30_encoding.md R96). -/
theorem presentCommand_legal {w : CommandWord} {i : Instr} (h : decode w = .legal i) (s : State) :
    presentCommand w s = exec i s := by
  rw [presentCommand, h]

/-- The turn of the whole command word presents that word (30_encoding.md R90). -/
theorem commandTurn_toNat (w : CommandWord) : commandTurn 128 w.toNat = .command w := by
  rw [commandTurn, Nat.mod_eq_of_lt w.isLt, BitVec.ofNat_toNat, BitVec.setWidth_eq]

theorem inAssets_iff (c : Config) (a : Nat) : inAssets c a = true ↔ 0x10000 ≤ a ∧ a < 0x10000 + c.assetSize :=
  decide_eq_true_iff

theorem underTransfer_iff (s : State) (a : Nat) : s.underTransfer a = true ↔ s.xferInFlight = true ∧ s.inSource a := by
  simp only [State.underTransfer, State.inSource, Bool.and_eq_true, decide_eq_true_eq]

/-- The host's store of an asset byte that no transfer reads (20_memory.md R63). -/
theorem storeAssetTurn_stores {s : State} {p : Word} (v : Byte) (ha : inAssets s.cfg p.toNat = true)
    (hu : ¬ s.underTransfer p.toNat = true) :
    storeAssetTurn p v s = .next { s with mem := Memory.write s.mem p.toNat v } := by
  rw [storeAssetTurn, if_pos ha, if_neg hu]

/-- The host has no store into the source of a transfer in flight (20_memory.md R83). -/
theorem storeAssetTurn_refused {s : State} {p : Word} (v : Byte) (ha : inAssets s.cfg p.toNat = true)
    (hu : s.underTransfer p.toNat = true) : storeAssetTurn p v s = .refused .storeUnderTransfer := by
  rw [storeAssetTurn, if_pos ha, if_pos hu]

/-- The host has no store outside asset memory (20_memory.md R61, R63). -/
theorem storeAssetTurn_fault {s : State} {p : Word} (v : Byte) (ha : ¬ inAssets s.cfg p.toNat = true) :
    storeAssetTurn p v s = .fault .storeOutsideAssets := by
  rw [storeAssetTurn, if_neg ha]

/-- Settles O6: each turn's step is read off `takeTurn`, and the host's store off its three cases. -/
theorem stepRunsThePresentedCommand : Obligations.StepRunsThePresentedCommand := by
  refine ⟨fun s w rest i ht hd => ?_, fun s w i hd => ?_, fun s rest => ⟨step_of_turn, step_of_turn, step_of_turn,
    fun _ => step_of_turn, step_of_turn, fun p v ht => ⟨fun ha hu => ?_, fun ha hf hs => ?_, fun ha => ?_⟩⟩⟩
  · exact (step_of_turn ht).trans (presentCommand_legal hd _)
  · have ht : (s.withFetchWord 128 w.toNat).turns = .command w :: s.turns := by
      rw [State.withFetchWord, commandTurn_toNat]
    exact (step_of_turn ht).trans (presentCommand_legal hd s)
  · have hfree : ¬ s.underTransfer p.toNat = true := fun h =>
      have ⟨hf, hs⟩ := (underTransfer_iff _ _).mp h
      hu hf hs
    exact ⟨_, (step_of_turn ht).trans (storeAssetTurn_stores v ((inAssets_iff _ _).mpr ha) hfree),
      fun a hne => Memory.read_write_other _ _ hne,
      fun hm => ⟨Memory.write_wf hm _ _, Memory.read_write_same hm _ _⟩⟩
  · exact (step_of_turn ht).trans
      (storeAssetTurn_refused v ((inAssets_iff _ _).mpr ha) ((underTransfer_iff _ _).mpr ⟨hf, hs⟩))
  · exact (step_of_turn ht).trans (storeAssetTurn_fault v fun h => ha ((inAssets_iff _ _).mp h))

/-! ### The writers of each register -/

/-- The step starts a transfer: the host presents `BEGIN_TRANSFER`, or a sync begins (40_transfer_engine.md R121, 46_session.md
R243). -/
def Starts (p : Option Instr) (t : State) : Prop :=
  (∃ a b n, p = some (.beginTransfer a b n)) ∨ t.sstate = .syncInFlight

/-- Every register that differs between `s` and `t` has been written by the step that the spec names, where `p` is the command
that the host presents, if any. A register that the step leaves alone needs no argument: the fields' defaults give it. -/
structure NamedWriters (p : Option Instr) (s t : State) : Prop where
  cfg : t.cfg = s.cfg := by rfl
  front : t.front ≠ s.front → s.cfg.doubleBuffered = true ∧ s.busEvent = some .chunkDone ∧ s.sstate = .syncInFlight ∧
    t.sstate = .idle ∧ t.xferInFlight = false := by exact fun h => absurd rfl h
  mapMode : t.mapMode ≠ s.mapMode → ∃ m, p = some (.init m) := by exact fun h => absurd rfl h
  contrast : t.contrast ≠ s.contrast → (∃ m, p = some (.init m)) ∨ ∃ v, p = some (.setContrast v) := by
    exact fun h => absurd rfl h
  displayOn : t.displayOn ≠ s.displayOn → (∃ m, p = some (.init m)) ∨ ∃ v, p = some (.setDisplayOn v) := by
    exact fun h => absurd rfl h
  cursorY : t.cursorY ≠ s.cursorY → ∃ x y, p = some (.setCursor x y) := by exact fun h => absurd rfl h
  cursorX : t.cursorX ≠ s.cursorX → (∃ x y, p = some (.setCursor x y)) ∨ (∃ ch col, p = some (.writeChar ch col)) ∨
    ∃ a col, p = some (.writeString a col) := by exact fun h => absurd rfl h
  context : t.xferAddr ≠ s.xferAddr ∨ t.xferSrc ≠ s.xferSrc ∨ t.xferLen ≠ s.xferLen ∨ t.xferOwner ≠ s.xferOwner →
    s.xferInFlight = false ∧ Starts p t := by
      rintro (h | h | h | h) <;> exact absurd rfl h
  progress : t.xferDone ≠ s.xferDone ∨ t.xferInFlight ≠ s.xferInFlight ∨ t.xferChunk ≠ s.xferChunk →
    (s.xferInFlight = false ∧ t.xferDone = 0 ∧ Starts p t) ∨
      (s.xferInFlight = true ∧ s.busEvent ≠ none ∧ t = sequencerStep { s with turns := t.turns, draws := t.draws }) := by
      rintro (h | h | h) <;> exact absurd rfl h
  lastOk : t.lastOk ≠ s.lastOk → ∃ owner, t.cbLog = s.cbLog ++ [⟨owner, t.lastOk⟩] := by exact fun h => absurd rfl h
  busLog : ∃ l, t.busLog = s.busLog ++ l := by exact ⟨[], (List.append_nil _).symm⟩
  cmdLog : ∃ l, t.cmdLog = s.cmdLog ++ l := by exact ⟨[], (List.append_nil _).symm⟩
  cbLog : ∃ l, t.cbLog = s.cbLog ++ l := by exact ⟨[], (List.append_nil _).symm⟩
  chunkLog : ∃ l, t.chunkLog = s.chunkLog ++ l := by exact ⟨[], (List.append_nil _).symm⟩

/-- The start of a sync, by the host's command or by the session, writes the context, the progress and `CHUNKLOG`, and `RESULT`
when the host started it (46_session.md R241, R243). -/
theorem syncBegun_namedWriters (p : Option Instr) (r : Half) {s : State} (hg : s.gate = true) :
    NamedWriters p s { s.syncBegun with result := r } :=
  have hf := ((gate_iff s).mp hg).2.1
  { context := fun _ => ⟨hf, .inr rfl⟩
    progress := fun _ => .inl ⟨hf, rfl, .inr rfl⟩
    chunkLog := ⟨_, rfl⟩ }

/-- A drawing body moves the cursor's x at most, and only for the character commands (45_graphics_bitmap_text.md R218). -/
theorem Ended.namedWriters {i : Instr} {s t : State} (h : Ended i s t) : NamedWriters (some i) s t := by
  have hx : t.cursorX ≠ s.cursorX → (∃ ch col, i = .writeChar ch col) ∨ ∃ a col, i = .writeString a col := fun hc => by
    have := h.cursor hc
    cases i <;> simp_all [Instr.isWriteChar, Instr.isWriteString]
  obtain ⟨u, hu, htu⟩ := h.touched
  rw [hu.rest] at htu
  rw [htu] at hx ⊢
  exact { cursorX := fun hc => .inr (by simpa using hx hc) }

/-- Every command writes only the registers the spec lets it write. -/
theorem Ran.namedWriters {i : Instr} {s t : State} (h : Ran i s t) : NamedWriters (some i) s t := by
  cases h with
  | misuseDraw | misuseBus | misuseXfer | errState | errBusy | waits => exact {}
  | ended _ _ he => exact he.namedWriters
  | init mode hi =>
    subst hi
    exact {
      mapMode := fun _ => ⟨_, rfl⟩
      contrast := fun _ => .inl ⟨_, rfl⟩
      displayOn := fun _ => .inl ⟨_, rfl⟩
      busLog := ⟨_, rfl⟩
      cmdLog := ⟨_, List.append_assoc _ _ _⟩ }
  | displayOn v hi =>
    subst hi
    exact { displayOn := fun _ => .inr ⟨_, rfl⟩, busLog := ⟨_, rfl⟩, cmdLog := ⟨_, rfl⟩ }
  | contrast v hi =>
    subst hi
    exact { contrast := fun _ => .inr ⟨_, rfl⟩, busLog := ⟨_, rfl⟩, cmdLog := ⟨_, rfl⟩ }
  | started a b n hi hf =>
    have hs : Starts (some i) (s.transferBegun (a.setWidth 7) b n).done := .inl ⟨a, b, n, congrArg some hi⟩
    exact { context := fun _ => ⟨hf, hs⟩, progress := fun _ => .inl ⟨hf, rfl, hs⟩, chunkLog := ⟨_, rfl⟩ }
  | empty a b hi hf =>
    have hs : Starts (some i) (s.transferEmpty (a.setWidth 7) b).done := .inl ⟨a, b, 0, congrArg some hi⟩
    exact {
      context := fun _ => ⟨hf, hs⟩
      progress := fun _ => .inl ⟨hf, rfl, hs⟩
      lastOk := fun _ => ⟨_, rfl⟩
      cbLog := ⟨_, rfl⟩ }
  | cursor x y hi =>
    subst hi
    exact { cursorX := fun _ => .inl ⟨_, _, rfl⟩, cursorY := fun _ => ⟨_, _, rfl⟩ }
  | syncs _ _ hg => exact syncBegun_namedWriters (some i) _ hg

/-- A completion writes `LAST_OK` and `CBLOG`, and the session's own registers; only a successful sync of a double-buffered
instance flips `FRONT` (40_transfer_engine.md R129, 46_session.md R247, R248). -/
theorem complete_frame (s : State) (owner : Owner) (success : Bool) : ∃ f d st,
    complete s owner success = { s with
      lastOk := success, cbLog := s.cbLog ++ [⟨owner, success⟩], front := f, dirty := d, sstate := st } ∧
    (f ≠ s.front → s.cfg.doubleBuffered = true ∧ owner = .session ∧ success = true ∧ st = .idle) := by
  cases owner with
  | host => exact ⟨s.front, s.dirty, s.sstate, rfl, fun h => absurd rfl h⟩
  | session =>
    cases success with
    | false => exact ⟨s.front, s.dirty, .idle, rfl, fun h => absurd rfl h⟩
    | true =>
      refine ⟨_, false, .idle, rfl, fun h => ⟨?_, rfl, rfl, rfl⟩⟩
      by_contra hd
      exact h (if_neg hd)

/-- The end of a transfer writes the progress, and what its completion writes (40_transfer_engine.md R126, R127). -/
theorem complete_namedWriters (p : Option Instr) {s : State} {done : Word} {success : Bool} (hi : s.Inv)
    (hf : s.xferInFlight = true) (he : s.busEvent = some (if success then .chunkDone else .xferError))
    (ht : sequencerStep s =
      complete { s with busEvent := none, xferDone := done, xferChunk := 0, xferInFlight := false } s.xferOwner success) :
    NamedWriters p s (sequencerStep s) := by
  obtain ⟨f, d, st, hc, hfront⟩ := complete_frame
    { s with busEvent := none, xferDone := done, xferChunk := 0, xferInFlight := false } s.xferOwner success
  rw [hc] at ht
  rw [ht]
  exact {
    front := fun h => by
      obtain ⟨hd, ho, rfl, hst⟩ := hfront h
      exact ⟨hd, he, hi.sync.mpr ⟨hf, ho⟩, hst, rfl⟩
    progress := fun _ => .inr ⟨hf, by simp [he], ht.symm⟩
    lastOk := fun _ => ⟨_, rfl⟩
    cbLog := ⟨_, rfl⟩ }

/-- The sequencer's step writes the progress with the event it handles, and what a completion writes
(40_transfer_engine.md R125 to R128). -/
theorem sequencerStep_namedWriters (p : Option Instr) {s : State} (hi : s.Inv) : NamedWriters p s (sequencerStep s) := by
  have hs := hi.sequenced
  generalize ht : sequencerStep s = t at hs
  cases hs with
  | none | spurious => exact {}
  | next he hf => exact { progress := fun _ => .inr ⟨hf, by simp [he], ht.symm⟩, chunkLog := ⟨_, rfl⟩ }
  | success he hf => exact ht ▸ complete_namedWriters p hi hf (success := true) he ht
  | failure he hf => exact ht ▸ complete_namedWriters p hi hf (success := false) he ht

/-- Every move of every agent writes only the registers the spec names for it; `p` is the command of a legal word. -/
theorem Move.namedWriters {head : Option Turn} {p : Option Instr} {s t : State} (hi : s.Inv) (h : Move head s t)
    (hp : ∀ w i, head = some (.command w) → decode w = .legal i → p = some i) : NamedWriters p s t := by
  cases h with
  | command w i hw hd hx => exact hp w i hw hd ▸ (ran_of_exec hx).namedWriters
  | illegal | read | store | idle => exact {}
  | session =>
    rcases trySyncStart_cases s with ⟨_, hg, h⟩ | ⟨_, h⟩ <;> rw [h]
    · exact syncBegun_namedWriters p s.result hg
    · exact {}
  | sequencer => exact sequencerStep_namedWriters p hi
  | deliver d => exact { busLog := ⟨_, deliverChunk_busLog s d⟩ }
  | fail d k => exact { busLog := ⟨_, (List.append_assoc _ _ _).trans (List.append_assoc _ _ _)⟩ }
  | tick =>
    unfold tickStep
    split <;> exact {}

/-- Settles O16: a step is one move, and every move writes only the registers the spec names for it. -/
theorem eachRegisterHasItsNamedWriters : Obligations.EachRegisterHasItsNamedWriters := by
  intro s t hi hstep
  obtain ⟨rest, n, hm⟩ := step_cases hstep
  have h := hm.namedWriters (hi.turned rest n) (p := s.presented) fun w i hw hd => presented_of_turn hw hd
  exact ⟨h.cfg, h.front, h.mapMode, h.contrast, h.displayOn, h.cursorY, h.cursorX, h.context, h.progress, h.lastOk, h.busLog,
    h.cmdLog, h.cbLog, h.chunkLog⟩

end Sys2Proof.Machine
end

section
/-! Proofs of the statements about reset, the invariant and the transfer under every interleaving (spec/10_state.md R44, R45,
R50, R51). -/

namespace Sys2Proof.Machine

/-! ### Reset -/

/-- Settles O9: `State.resetWith` is written out by R51 and R53, register by register. -/
theorem resetValues : Obligations.ResetValues := by
  intro cfg mem
  simp [State.resetWith]

/-- The state right after reset meets the invariant: nothing is in flight, and no sync has been asked for (10_state.md R44,
R51, R53). -/
theorem resetWith_inv (cfg : Config) {mem : Memory} (hm : Memory.wf mem = true) : (State.resetWith cfg mem).Inv where
  memory := hm
  done := le_refl _
  flight := nofun
  idle := fun _ => ⟨rfl, rfl, rfl⟩
  sync := by simp [State.resetWith]
  source := nofun
  started := nofun
  single := fun _ => rfl
  cursor := ⟨Nat.zero_le _, Nat.zero_le _⟩
  faults := Nat.zero_lt_succ _
  status := Nat.zero_lt_succ _
  level := rfl
  openBus := by simp [State.resetWith, State.transactionOpen]

/-- Settles O10: clause by clause, since the reset state has nothing in flight. -/
theorem invariantAtReset : Obligations.InvariantAtReset := fun cfg _ => resetWith_inv cfg

/-! ### The frame of drawing and text -/

/-- A drawing command, refused or carried out, touches the machine as a drawing body may and then writes `RESULT` and `FAULT`;
only the character commands move the cursor (42_framebuffer.md R160, 45_graphics_bitmap_text.md R218). -/
theorem exec_drawing_touched {i : Instr} {s t : State} (hi : i.isDrawing = true) (h : exec i s = .next t) :
    ∃ u, Touched s u ∧ t = { u with result := t.result, faultBits := t.faultBits } ∧
      (t.cursorX ≠ s.cursorX → i.isWriteChar = true ∨ i.isWriteString = true) := by
  obtain ⟨hrefused, hran⟩ := exec_drawing i hi s
  by_cases hd : s.drawable
  · obtain ⟨t', ht, he⟩ := hran hd
    obtain ⟨u, hu, htu⟩ := he.touched
    cases ht.symm.trans h
    exact ⟨u, hu, htu, he.cursor⟩
  · cases (hrefused hd).symm.trans h
    exact ⟨s, .refl s, rfl, fun hc => absurd rfl hc⟩

/-- Settles O24: what a drawing body may touch is the frame, and its end writes `RESULT` and `FAULT` alone. -/
theorem drawingFrame : Obligations.DrawingFrame := by
  intro s t i hi h
  obtain ⟨u, hu, htu, hc⟩ := exec_drawing_touched hi h
  have hcursor : i.isWriteChar = false → i.isWriteString = false → t.cursorX = s.cursorX := fun h1 h2 => by
    by_contra hne
    simpa [h1, h2] using hc hne
  rw [htu] at hcursor ⊢
  exact ⟨by rw [hu.rest], hcursor, hu.aside, hu.dirty, hu.clean, hu.wf⟩

/-- The character commands are drawing commands (42_framebuffer.md R160). -/
theorem isDrawing_of_text {i : Instr} (hi : i.isWriteChar = true ∨ i.isWriteString = true) : i.isDrawing = true := by
  cases i with
  | writeChar | writeString => rfl
  | _ => simp [Instr.isWriteChar, Instr.isWriteString] at hi

/-- Settles O47: the cursor's bounds are `text_cursor`, and the frame of drawing keeps its row. -/
theorem textKeepsTheCursorOnItsRow : Obligations.TextKeepsTheCursorOnItsRow := by
  intro s t i hi h
  obtain ⟨hleft, hright⟩ := text_cursor hi h
  obtain ⟨hframe, -⟩ := drawingFrame s t i (isDrawing_of_text hi) h
  exact ⟨hright, hleft, by rw [hframe]⟩

/-! ### The invariant -/

/-- A drawing command keeps the cursor within the bound of the invariant (10_state.md R24). -/
theorem exec_drawing_cursorX {i : Instr} {s t : State} (hi : i.isDrawing = true) (h : exec i s = .next t)
    (hb : s.cursorX.toNat ≤ max 255 s.cfg.w) : t.cursorX.toNat ≤ max 255 s.cfg.w := by
  obtain ⟨-, -, -, hc⟩ := exec_drawing_touched hi h
  by_cases hx : t.cursorX = s.cursorX
  · rwa [hx]
  · have := (text_cursor (hc hx) h).2
    omega

/-- The end of a drawing body keeps the invariant, the cursor within its bound. -/
theorem State.Inv.ended {i : Instr} {s t : State} (hi : s.Inv) (h : Ended i s t)
    (hc : t.cursorX.toNat ≤ max 255 s.cfg.w) : t.Inv := by
  cases h with
  | status v st ht => exact (hi.touched ht hc).setResult v st
  | memFault a ht => exact (hi.touched ht hc).raise (.memFault a)

/-- With nothing in flight no transaction is open (10_state.md R37). -/
theorem State.Inv.closed {s : State} (hi : s.Inv) (hf : s.xferInFlight = false) : s.busOpen = false :=
  Bool.eq_false_iff.mpr fun h => by cases hf.symm.trans (hi.openBus.mp h).2.1

/-- A zero-length transfer, which completes at once, keeps the invariant (40_transfer_engine.md R123). -/
theorem State.Inv.transferEmpty {s : State} (hi : s.Inv) (hf : s.xferInFlight = false) (addr : BitVec 7) (src : Word) :
    (s.transferEmpty addr src).Inv where
  memory := hi.memory
  done := le_refl _
  flight := fun h => by cases hf.symm.trans h
  idle := fun _ => ⟨(hi.idle hf).1, (hi.idle hf).2.1, rfl⟩
  sync := iff_of_false (hi.noSync hf) nofun
  source := fun h => absurd h (hi.noSync hf)
  started := hi.started
  single := hi.single
  cursor := hi.cursor
  faults := hi.faults
  status := hi.status
  level := hi.level
  openBus := iff_of_false (ne_true_of_eq_false (hi.closed hf)) fun h => by cases hf.symm.trans h.2.1

/-- A change of the registers of the session and the display, and of the logs, keeps the invariant. -/
theorem State.Inv.display {s t : State} (hi : s.Inv)
    (ht : t = { s with
      mapMode := t.mapMode, contrast := t.contrast, displayOn := t.displayOn, sstate := t.sstate
      cursorX := t.cursorX, cursorY := t.cursorY, cmdLog := t.cmdLog, busLog := t.busLog, busDC := t.busDC })
    (hs : t.sstate = s.sstate ∨ s.sstate ≠ .syncInFlight ∧ t.sstate ≠ .syncInFlight ∧ t.sstate ≠ .initializing)
    (hc : t.cursorX.toNat ≤ max 255 s.cfg.w ∧ t.cursorY.toNat ≤ 255) (hl : t.busDC = .data) : t.Inv := by
  refine hi.of_same ?_ ?_ ?_ hc ⟨?_, ?_, ?_, ?_, ?_, ?_, ?_⟩ hs ?_ ?_ ⟨?_, ?_, ?_⟩ hl
  all_goals rw [ht]
  · exact hi.memory
  · exact hi.faults
  · exact hi.status

/-- Every command keeps the invariant, refused or carried out. -/
theorem State.Inv.exec {i : Instr} {s t : State} (hi : s.Inv) (h : exec i s = .next t) : t.Inv := by
  cases ran_of_exec h with
  | misuseDraw | misuseBus | misuseXfer => exact hi.raise _
  | ended hdraw _ he => exact hi.ended he (exec_drawing_cursorX hdraw h hi.cursor.1)
  | init mode _ hf =>
    exact (hi.display (t := s.broughtUp mode) rfl (.inr ⟨hi.noSync hf, nofun, nofun⟩) hi.cursor
      (commandLevel_data _ hi.level)).setResult 0 .ok
  | displayOn v =>
    exact (hi.display (t := { sendCommand s (bare (if lowBit v then 0xAF else 0xAE)) with displayOn := lowBit v }) rfl
      (.inl rfl) hi.cursor (commandLevel_data _ hi.level)).setResult 0 .ok
  | contrast v =>
    exact (hi.display (t := { sendCommand s (withParam 0x81 v) with contrast := v }) rfl
      (.inl rfl) hi.cursor (commandLevel_data _ hi.level)).setResult 0 .ok
  | started a b n _ hf hn => exact (hi.starts hf b n (a.setWidth 7) .host hn nofun).setResult 0 .ok
  | empty a b _ hf => exact (hi.transferEmpty hf (a.setWidth 7) b).setResult 0 .ok
  | cursor x y =>
    have hx := x.isLt
    have hy := y.isLt
    refine (hi.display (t := { s with cursorX := x.setWidth 16, cursorY := y.setWidth 16 }) rfl (.inl rfl) ?_
      hi.level).setResult 0 .ok
    simp only [BitVec.toNat_setWidth]
    omega
  | errState => exact hi.setResult 0 .errState
  | errBusy => exact hi.setResult 0 .errBusy
  | syncs _ _ hg => exact (hi.syncBegun ((gate_iff s).mp hg).2.1).setResult 0 .ok
  | waits _ hs =>
    have hne : s.sstate ≠ .syncInFlight := by rcases hs with hs | hs <;> rw [hs] <;> nofun
    exact (hi.display (t := { s with sstate := .syncPending }) rfl (.inr ⟨hne, nofun, nofun⟩) hi.cursor
      hi.level).setResult 0 .ok

/-- The sequencer's step keeps the invariant (40_transfer_engine.md R125 to R128). -/
theorem State.Inv.sequencerStep {s : State} (hi : s.Inv) : (sequencerStep s).Inv := by
  have hs := hi.sequenced
  generalize Machine.sequencerStep s = t at hs
  cases hs with
  | none => exact hi
  | spurious he hf => exact absurd (hi.idle hf).2.1 he
  | next he hf hlt => exact hi.continues hf he hlt
  | success he hf heq =>
    obtain ⟨hp, ho⟩ := hi.latched hf (by simp [he]) fun _ => by omega
    exact hi.completes _ (le_refl _) hp ho hf true
  | failure he hf =>
    obtain ⟨hp, ho⟩ := hi.latched hf (by simp [he]) (by simp [he])
    exact hi.completes _ hi.done hp ho hf false

/-- Every move of every agent keeps the invariant. -/
theorem Move.inv {head : Option Turn} {s t : State} (hi : s.Inv) (h : Move head s t) : t.Inv := by
  cases h with
  | command _ i _ _ hx => exact hi.exec hx
  | illegal => exact hi.raise _
  | session =>
    rcases trySyncStart_cases s with ⟨_, hg, h⟩ | ⟨_, h⟩ <;> rw [h]
    · exact hi.syncBegun ((gate_iff s).mp hg).2.1
    · exact hi
  | sequencer => exact hi.sequencerStep
  | deliver d hp he => exact hi.delivers hp he
  | fail d k hp he => exact hi.fails k hp he
  | tick =>
    unfold tickStep
    split
    · next h =>
      exact hi.display (t := { s with sstate := .syncPending }) rfl (.inr ⟨by simp [h.2], nofun, nofun⟩) hi.cursor hi.level
    · exact hi
  | read v n =>
    exact hi.of_same rfl hi.memory rfl hi.cursor ⟨rfl, rfl, rfl, rfl, rfl, rfl, rfl⟩ (.inl rfl) hi.faults hi.status
      ⟨rfl, rfl, rfl⟩ hi.level
  | store a v =>
    exact hi.of_same rfl (Memory.write_wf hi.memory _ v) rfl hi.cursor ⟨rfl, rfl, rfl, rfl, rfl, rfl, rfl⟩ (.inl rfl)
      hi.faults hi.status ⟨rfl, rfl, rfl⟩ hi.level
  | idle => exact hi

/-- Settles O11: a step is one move of one agent, and every move keeps the invariant. -/
theorem invariantKeptByEveryStep : Obligations.InvariantKeptByEveryStep := by
  intro s t hi hstep
  obtain ⟨rest, n, hm⟩ := step_cases hstep
  exact hm.inv (hi.turned rest n)

/-- A run of one more step that answers a next state takes a step and goes on. -/
theorem run_succ_next {M : Host.Core} {k : Nat} {u v : M.State} (h : M.run (k + 1) u = .next v) :
    ∃ w, M.step u = .next w ∧ M.run k w = .next v := by
  unfold Host.Core.run at h
  split at h
  · exact ⟨_, by assumption, h⟩
  · cases h
  · cases h

/-- A run keeps the invariant. -/
theorem run_inv (k : Nat) {s t : State} (hi : s.Inv) (h : Host.Core.run core k s = .next t) : t.Inv := by
  induction k generalizing s with
  | zero => cases h; exact hi
  | succ k ih =>
    obtain ⟨u, hu, hrun⟩ := run_succ_next h
    exact ih (invariantKeptByEveryStep s u hi hu) hrun

/-- The five clauses (a) to (e) of 10_state.md R44 are in the invariant. -/
theorem State.Inv.transferClauses {s : State} (hi : s.Inv) :
    s.xferDone.toNat ≤ s.xferLen.toNat ∧
    (s.xferInFlight = true →
      s.xferDone.toNat < s.xferLen.toNat ∧ s.xferChunk.toNat = min 255 (s.xferLen.toNat - s.xferDone.toNat) ∧
      1 ≤ s.xferChunk.toNat ∧
      ((∃ d, s.busPending = some d ∧ d.src = s.xferSrc + s.xferDone ∧ d.len = s.xferChunk ∧ s.busEvent = none) ∨
        (s.busPending = none ∧ (s.busEvent = some .chunkDone ∨ s.busEvent = some .xferError)))) ∧
    (s.xferInFlight = false → s.busPending = none ∧ s.busEvent = none ∧ s.xferChunk = 0) ∧
    (s.sstate = .syncInFlight → s.xferInFlight = true ∧ s.xferOwner = .session) ∧
    (s.xferInFlight = true → s.xferOwner = .session → s.sstate = .syncInFlight) := by
  refine ⟨hi.done, fun hf => ?_, hi.idle, hi.sync.mp, fun hf ho => hi.sync.mpr ⟨hf, ho⟩⟩
  obtain ⟨hlt, -, hchunk, hout⟩ := hi.flight hf
  refine ⟨hlt, hchunk, by omega, hout.imp (fun ⟨hp, he⟩ => ⟨_, hp, rfl, ?_, he⟩) fun ⟨hp, he⟩ => ⟨hp, ?_⟩⟩
  · exact BitVec.eq_of_toNat_eq ((chunkLength_toNat _).trans hchunk.symm)
  · cases hev : s.busEvent with
    | none => exact absurd hev he
    | some event => cases event <;> simp

/-- Settles O12: the reset state meets the invariant, a run keeps it, and it holds the five clauses. -/
theorem reachableStatesMeetTransferClauses : Obligations.ReachableStatesMeetTransferClauses := by
  intro cfg mem schedule k s hm hrun
  exact (run_inv k ((resetWith_inv cfg hm).turned schedule 0) hrun).transferClauses

end Sys2Proof.Machine
end

section
/-! Proofs of the statements about `DIRTY`, the transfer under every interleaving and the read ports (spec/10_state.md R31, R38 to
R42, R45, R50). -/

namespace Sys2Proof.Machine

/-! ### `DIRTY` -/

/-- What a move does to `DIRTY` and to memory (10_state.md R31, 20_memory.md R66, 46_session.md R249): `head` is the turn taken,
`p` the command of a legal word presented. A move that leaves both alone needs no argument: the fields' defaults give it. -/
structure DirtyKept (head : Option Turn) (p : Option Instr) (s t : State) : Prop where
  cleared : s.dirty = true → t.dirty = false →
    s.busEvent = some .chunkDone ∧ s.sstate = .syncInFlight ∧ t.sstate = .idle ∧ t.lastOk = true := by
      exact fun h h' => by cases h.symm.trans h'
  set : s.dirty = false → t.dirty = true → ∃ i, p = some i ∧ i.isDrawing = true := by
    exact fun h h' => by cases h.symm.trans h'
  written : t.mem ≠ s.mem → t.dirty = true ∨ ∃ a v, head = some (.storeAsset a v) := by exact fun h => absurd rfl h

/-- A command sets `DIRTY` only by drawing, and never clears it. -/
theorem exec_dirtyKept (head : Option Turn) {i : Instr} {s t : State} (h : exec i s = .next t) :
    DirtyKept head (some i) s t := by
  rcases exec_mem h with ⟨hi, -, he⟩ | ⟨hmem, hdirty⟩
  · obtain ⟨u, hu, htu⟩ := he.touched
    rw [htu]
    exact {
      cleared := fun h h' => by cases (hu.dirty h).symm.trans h'
      set := fun _ _ => ⟨i, rfl, hi⟩
      written := fun hw => .inl (Bool.eq_true_of_not_eq_false fun hd => hw (hu.clean hd)) }
  · exact {
      cleared := fun h h' => by cases h.symm.trans (hdirty.symm.trans h')
      set := fun h h' => by cases h.symm.trans (hdirty.symm.trans h')
      written := fun hw => absurd hmem hw }

/-- The sequencer's step clears `DIRTY` only where a sync ends with success (46_session.md R247, R248). -/
theorem sequencerStep_dirtyKept (head : Option Turn) (p : Option Instr) {s : State} (hi : s.Inv) :
    DirtyKept head p s (sequencerStep s) := by
  have hs := hi.sequenced
  generalize sequencerStep s = t at hs
  cases hs with
  | none | spurious | next => exact {}
  | success he hf =>
    cases ho : s.xferOwner with
    | host => exact {}
    | session =>
      exact {
        cleared := fun _ _ => ⟨he, hi.sync.mpr ⟨hf, ho⟩, rfl, rfl⟩
        set := fun _ => nofun }
  | failure => cases s.xferOwner <;> exact {}

/-- Every move keeps `DIRTY` as the spec says; `p` is the command of a legal word. -/
theorem Move.dirtyKept {head : Option Turn} {p : Option Instr} {s t : State} (hi : s.Inv) (h : Move head s t)
    (hp : ∀ w i, head = some (.command w) → decode w = .legal i → p = some i) : DirtyKept head p s t := by
  cases h with
  | command w i hw hd hx => exact hp w i hw hd ▸ exec_dirtyKept head hx
  | illegal | deliver | fail | read | idle => exact {}
  | session => rcases trySyncStart_cases s with ⟨-, -, h⟩ | ⟨-, h⟩ <;> rw [h] <;> exact {}
  | sequencer => exact sequencerStep_dirtyKept head p hi
  | tick =>
    unfold tickStep
    split <;> exact {}
  | store a v hh => exact { written := fun _ => .inr ⟨a, v, hh⟩ }

/-- Settles O17: a step is one move, and every move keeps `DIRTY` as the spec says. -/
theorem dirtyIsSetByWritesAndClearedBySyncs : Obligations.DirtyIsSetByWritesAndClearedBySyncs := by
  intro s t hi hstep
  obtain ⟨rest, n, hm⟩ := step_cases hstep
  have h := hm.dirtyKept (hi.turned rest n) (p := s.presented) fun w i hw hd => presented_of_turn hw hd
  exact ⟨h.cleared, h.set, h.written⟩

/-! ### A transfer under every interleaving -/

/-- What a step does to the transfer `start` began: while it is in flight it stays one, and the step that ends it with success has
issued every chunk, sent every byte and reported it (10_state.md R45, R50; 40_transfer_engine.md R132). -/
structure TransferStepped (start s t : State) : Prop where
  goes : t.xferInFlight = true → TransferProgress start t
  ends : t.xferInFlight = false → t.lastOk = true →
    t.xferDone = start.xferLen ∧
    t.chunkLog = start.chunkLog ++ (List.range (chunkCount start.xferLen - 1)).map (fun j =>
      chunkAt start.xferAddr start.xferSrc start.xferLen (j + 1)) ∧
    t.busLog = start.busLog ++ (List.range (chunkCount start.xferLen)).flatMap (fun j =>
      chunkWire start.cfg start.mem (chunkAt start.xferAddr start.xferSrc start.xferLen j)) ∧
    t.cbLog = s.cbLog ++ [⟨start.xferOwner, true⟩]

/-- A step after which the transfer is in flight. -/
theorem TransferProgress.stepped {start t : State} (s : State) (h : TransferProgress start t) : TransferStepped start s t where
  goes := fun _ => h
  ends := fun hf => by cases h.flight.symm.trans hf

/-- The state a transfer begins with is a state of it: no chunk is counted and none delivered (10_state.md R45). -/
theorem TransferProgress.refl {s : State} (hf : s.xferInFlight = true) (hd : s.xferDone = 0) (he : s.busEvent = none) :
    TransferProgress s s where
  flight := hf
  config := rfl
  addr := rfl
  src := rfl
  len := rfl
  owner := rfl
  source := fun _ _ => rfl
  chunks := by simp [hd]
  sent := by simp [State.delivered, hd, he]
  wire := by simp [State.delivered, hd, he]

/-- A step aside of the transfer and of its source keeps it going (10_state.md R45). -/
theorem TransferProgress.aside {start s t : State} (hp : TransferProgress start s)
    (ht : t = { s with
      mem := t.mem, dirty := t.dirty, sstate := t.sstate, cursorX := t.cursorX, cursorY := t.cursorY, result := t.result
      faultBits := t.faultBits, portData := t.portData, draws := t.draws })
    (hm : ∀ a, s.inSource a → Memory.read t.mem a = Memory.read s.mem a) : TransferProgress start t := by
  refine hp.congr ?_ ?_ ?_ ?_ ?_ ?_ ?_ ?_ ?_ ?_ fun a ha => hm a ?_
  case refine_11 =>
    unfold State.inSource at ha ⊢
    rwa [hp.src, hp.len]
  all_goals rw [ht]

/-- A command of the host leaves a transfer in flight alone: a drawing into its source is refused (42_framebuffer.md R160,
46_session.md R251). -/
theorem TransferProgress.command {start s t : State} {i : Instr} (hp : TransferProgress start s) (h : exec i s = .next t) :
    TransferProgress start t := by
  rcases exec_flight hp.flight h with ⟨u, hu, hd, htu⟩ | ht
  · refine hp.aside ?_ fun a ha => ?_
    · rw [htu, hu.rest]
    · rw [htu]
      exact hu.aside a fun hfront => hd hp.flight a ⟨ha, hfront⟩
  · exact hp.aside (by rw [ht]) fun a _ => by rw [ht]

/-! #### The sequencer -/

/-- The next chunk issued: one more chunk is counted, the one delivered before (40_transfer_engine.md R125). -/
theorem TransferProgress.next {start s : State} (hp : TransferProgress start s) (hi : s.Inv)
    (he : s.busEvent = some .chunkDone) (hlt : s.xferDone.toNat + s.xferChunk.toNat < s.xferLen.toNat) :
    TransferProgress start { s with
      busEvent := none, xferDone := BitVec.ofNat 32 (s.xferDone.toNat + s.xferChunk.toNat)
      xferChunk := (s.laterChunk (s.xferDone.toNat + s.xferChunk.toNat)).len
      busPending := some (s.laterChunk (s.xferDone.toNat + s.xferChunk.toNat))
      chunkLog := s.chunkLog ++ [s.laterChunk (s.xferDone.toNat + s.xferChunk.toNat)] } := by
  obtain ⟨hdone, hmod, hchunk, -⟩ := hi.flight hp.flight
  have hlen := s.xferLen.isLt
  have hcount : (BitVec.ofNat 32 (s.xferDone.toNat + s.xferChunk.toNat)).toNat / 255 = s.xferDone.toNat / 255 + 1 := by
    rw [BitVec.toNat_ofNat]; omega
  have hsame : State.delivered { s with
      busEvent := none, xferDone := BitVec.ofNat 32 (s.xferDone.toNat + s.xferChunk.toNat) } = s.delivered := by
    simp only [State.delivered, hcount, he]
    rfl
  exact {
    flight := hp.flight, config := hp.config, addr := hp.addr, src := hp.src, len := hp.len, owner := hp.owner
    source := hp.source
    chunks := by
      rw [hcount, List.range_succ, List.map_append, ← List.append_assoc, ← hp.chunks,
        laterChunk_at _ (s.xferDone.toNat / 255) (by omega) hlt, hp.addr, hp.src, hp.len]
      rfl
    sent := fun j hj => hp.sent j (hsame ▸ hj)
    wire := fun _ => (hp.wire (by simp [he])).trans (by rw [← hsame]; rfl) }

/-- The last chunk delivered: the transfer ends with success (40_transfer_engine.md R126, R129). -/
theorem TransferProgress.success {start s : State} (hp : TransferProgress start s) (hi : s.Inv)
    (he : s.busEvent = some .chunkDone) (heq : s.xferDone.toNat + s.xferChunk.toNat = s.xferLen.toNat) :
    TransferStepped start s (complete { s with busEvent := none, xferDone := s.xferLen, xferChunk := 0, xferInFlight := false }
      s.xferOwner true) := by
  obtain ⟨hdone, hmod, hchunk, -⟩ := hi.flight hp.flight
  have hcount : chunkCount start.xferLen = s.xferDone.toNat / 255 + 1 := by
    unfold chunkCount
    rw [← hp.len]
    omega
  have hdelivered : s.delivered = chunkCount start.xferLen := by simp [State.delivered, he, hcount]
  obtain ⟨f, d, st, hc, -⟩ := complete_frame
    { s with busEvent := none, xferDone := s.xferLen, xferChunk := 0, xferInFlight := false } s.xferOwner true
  rw [hc]
  exact {
    goes := nofun
    ends := fun _ _ => by
      refine ⟨hp.len, ?_, ?_, by rw [hp.owner]⟩
      · rw [hcount]
        exact hp.chunks
      · rw [← hdelivered]
        exact hp.wire (by simp [he]) }

/-- The sequencer's step goes on with the transfer, or ends it (40_transfer_engine.md R125 to R129). -/
theorem TransferProgress.sequencer {start s : State} (hp : TransferProgress start s) (hi : s.Inv) :
    TransferStepped start s (sequencerStep s) := by
  have hs := hi.sequenced
  generalize sequencerStep s = t at hs
  cases hs with
  | none => exact hp.stepped s
  | spurious _ hf => cases hp.flight.symm.trans hf
  | next he _ hlt => exact (hp.next hi he hlt).stepped s
  | success he _ heq => exact hp.success hi he heq
  | failure =>
    obtain ⟨f, d, st, hc, -⟩ := complete_frame { s with busEvent := none, xferChunk := 0, xferInFlight := false } s.xferOwner false
    rw [hc]
    exact ⟨nofun, nofun⟩

/-! #### The bus agent -/

/-- The bytes of chunks that are all mapped lie in the source range (10_state.md R45, 40_transfer_engine.md R132). -/
theorem chunkAt_inSource {start : State} {addr : BitVec 7} {n : Nat} (hn : 255 * n < start.xferLen.toNat + 255)
    (hm : ∀ j, j < n → mapped start.cfg (chunkAt addr start.xferSrc start.xferLen j).src.toNat
      (chunkAt addr start.xferSrc start.xferLen j).len.toNat = true) {j i : Nat} (hj : j < n)
    (hi : i < (chunkAt addr start.xferSrc start.xferLen j).len.toNat) :
    start.inSource ((chunkAt addr start.xferSrc start.xferLen j).src.toNat + i) := by
  have hlen : (chunkAt addr start.xferSrc start.xferLen j).len.toNat = min 255 (start.xferLen.toNat - 255 * j) :=
    chunkLength_toNat _
  have hsrc := (chunks_unwrapped n hm hn j hj).1
  unfold State.inSource
  omega

/-- A chunk delivered: one more chunk of the source as it stood at the start is on the wire (41_bus_abstraction.md R144). -/
theorem TransferProgress.deliver {start s : State} {d : Chunk} (hp : TransferProgress start s) (hi : s.Inv)
    (hb : s.busPending = some d) (he : s.busEvent = none) (hm : mapped s.cfg d.src.toNat d.len.toNat = true) :
    TransferProgress start (deliverChunk s d) := by
  obtain ⟨hlt, hmod, -, -⟩ := hi.flight hp.flight
  have hd : d = chunkAt start.xferAddr start.xferSrc start.xferLen (s.xferDone.toNat / 255) := by
    rw [(hi.pending hb he).2, nextChunk_at hlt hmod, hp.addr, hp.src, hp.len]
  have hbefore : s.delivered = s.xferDone.toNat / 255 := by simp [State.delivered, he]
  have hafter : (deliverChunk s d).delivered = s.xferDone.toNat / 255 + 1 := by simp [State.delivered, deliverChunk]
  have hsent : ∀ j, j < s.xferDone.toNat / 255 + 1 →
      mapped start.cfg (chunkAt start.xferAddr start.xferSrc start.xferLen j).src.toNat
        (chunkAt start.xferAddr start.xferSrc start.xferLen j).len.toNat = true := fun j hj => by
    rcases Nat.lt_succ_iff_lt_or_eq.mp hj with hj | rfl
    · exact hp.sent j (hbefore ▸ hj)
    · rwa [← hd, ← hp.config]
  have hwire : chunkWire s.cfg s.mem d = chunkWire start.cfg start.mem d := by
    rw [hp.config]
    refine chunkWire_congr _ _ _ d fun i hlen => hp.source _ ?_
    rw [hd] at hlen ⊢
    rw [hp.len] at hlt
    exact chunkAt_inSource (by omega) hsent (Nat.lt_succ_self _) hlen
  exact {
    flight := hp.flight, config := hp.config, addr := hp.addr, src := hp.src, len := hp.len, owner := hp.owner
    source := hp.source
    chunks := hp.chunks
    sent := by rwa [hafter]
    wire := fun _ => by
      rw [hafter, List.range_succ, List.flatMap_append, ← List.append_assoc, ← hbefore, ← hp.wire (by simp [he]), hbefore,
        deliverChunk_busLog, hwire, List.flatMap_singleton, ← hd] }

/-- A chunk failed: it is not counted, and the error is latched (41_bus_abstraction.md R145). -/
theorem TransferProgress.fail {start s : State} (d : Chunk) (k : Nat) (hp : TransferProgress start s)
    (he : s.busEvent = none) : TransferProgress start (failChunk s d k) where
  flight := hp.flight
  config := hp.config
  addr := hp.addr
  src := hp.src
  len := hp.len
  owner := hp.owner
  source := hp.source
  chunks := hp.chunks
  sent := fun j hj => hp.sent j (by simpa [State.delivered, failChunk, he] using hj)
  wire := fun h => absurd rfl h

/-! #### Every agent -/

/-- Every move of every agent goes on with the transfer, or ends it. -/
theorem Move.transferStepped {head : Option Turn} {start s t : State} (hi : s.Inv) (hp : TransferProgress start s)
    (h : Move head s t) : TransferStepped start s t := by
  cases h with
  | command _ i _ _ hx => exact (hp.command hx).stepped s
  | illegal | read | idle =>
    refine TransferProgress.stepped s ?_
    exact hp.aside rfl fun _ _ => rfl
  | session =>
    rcases trySyncStart_cases s with ⟨_, hg, _⟩ | ⟨_, h⟩
    · cases hp.flight.symm.trans ((gate_iff s).mp hg).2.1
    · rw [h]
      exact hp.stepped s
  | sequencer => exact hp.sequencer hi
  | deliver d hb he hm => exact (hp.deliver hi hb he hm).stepped s
  | fail d k _ he => exact (hp.fail d k he).stepped s
  | tick =>
    refine TransferProgress.stepped s ?_
    unfold tickStep
    split <;> exact hp.aside rfl fun _ _ => rfl
  | store a v _ hs =>
    refine (hp.aside rfl fun b hb => Memory.read_write_other _ v ?_).stepped s
    rintro rfl
    exact hs hp.flight hb

/-- Settles O53: the start is a state of the transfer, and a step is one move of one agent, which goes on with it or ends it. -/
theorem transferProceedsChunkByChunk : Obligations.TransferProceedsChunkByChunk := by
  refine ⟨fun s _ hf hd he => .refl hf hd he, fun start s t hi hp hstep => ?_⟩
  obtain ⟨rest, n, hm⟩ := step_cases hstep
  have hturned : TransferProgress start { s with turns := rest, draws := n } :=
    hp.congr rfl rfl rfl rfl rfl rfl rfl rfl rfl rfl fun _ _ => rfl
  have h := hm.transferStepped (hi.turned rest n) hturned
  exact ⟨h.goes, h.ends⟩

/-! ### The read ports -/

/-- A field of a word, given bit by bit. -/
theorem extractLsb'_eq_of_bits {w k n : Nat} {x : BitVec w} {f : BitVec n} (h : ∀ i, i < n → x.getLsbD (k + i) = f.getLsbD i) :
    x.extractLsb' k n = f :=
  BitVec.eq_of_getLsbD_eq fun i hi => by rw [BitVec.getLsbD_extractLsb', decide_eq_true hi, Bool.true_and, h i hi]

/-- The fields of `STATUS` above its flags: the number of the session state, the contrast, and zeros (10_state.md R29, R39). -/
theorem statusRegister_fields (s : State) :
    s.statusRegister.extractLsb' 8 3 = s.sstate.code ∧ s.statusRegister.extractLsb' 11 5 = 0 ∧
      s.statusRegister.extractLsb' 16 8 = s.contrast ∧ s.statusRegister.extractLsb' 24 8 = 0 := by
  refine ⟨extractLsb'_eq_of_bits fun i hi => ?_, extractLsb'_eq_of_bits fun i hi => ?_, extractLsb'_eq_of_bits fun i hi => ?_,
    extractLsb'_eq_of_bits fun i hi => ?_⟩ <;> rw [statusRegister_bit, if_neg (by omega)]
  · rw [if_pos (by omega), Nat.add_sub_cancel_left]
  · rw [if_neg (by omega), if_pos (by omega)]
    exact BitVec.getLsbD_zero.symm
  · rw [if_neg (by omega), if_neg (by omega), if_pos (by omega), Nat.add_sub_cancel_left]
  · rw [if_neg (by omega), if_neg (by omega), if_neg (by omega)]
    exact BitVec.getLsbD_zero.symm

/-- Settles O60: `STATUS` bit by bit, the other registers as packed, and each port's turn as it stands. -/
theorem readPortsShowTheState : Obligations.ReadPortsShowTheState := by
  refine ⟨fun s free => ?_, fun s rest => ⟨fun n ht => ⟨_, step_of_turn ht⟩,
    fun a ht => ⟨_, step_of_turn ht, fun hm => if_pos hm⟩⟩⟩
  have hbit := statusRegister_bit s
  obtain ⟨hsstate, hgap, hcontrast, htop⟩ := statusRegister_fields s
  refine ⟨⟨⟨hbit 0, hbit 1, hbit 2, hbit 3, hbit 4, hbit 5, (hbit 6).trans (by cases s.xferOwner <;> rfl), hbit 7⟩,
    (congrArg BitVec.toNat hsstate).trans (by cases s.sstate <;> rfl), hgap, hcontrast, htop⟩,
    (BitVec.setWidth_eq_append (by omega)).symm, (BitVec.setWidth_eq_append (by omega)).symm, rfl, fun hf => ?_,
    fun hf n h4 h7 => ?_, fun n h8 => ?_⟩
  · simp [State.readRegister, hf, State.controlRegister]
  · interval_cases n <;> simp [State.readRegister, hf]
  · obtain ⟨m, rfl⟩ := Nat.exists_eq_add_of_le' h8
    rfl

end Sys2Proof.Machine
end

section
/-! Proofs of the statements about memory (spec/20_memory.md R61 to R74) and the copy of `LOAD_BUFFER` (spec/42_framebuffer.md
R168). -/

namespace Sys2Proof.Machine

/-! ### The writers of memory -/

/-- A move changes a byte of the front instance, by a command that draws, or the asset byte that the host places (20_memory.md
R63, R74); `p` is the command of a legal word. -/
theorem Move.writes {head : Option Turn} {p : Option Instr} {s t : State} (h : Move head s t)
    (hp : ∀ w i, head = some (.command w) → decode w = .legal i → p = some i) {a : Nat}
    (ha : Memory.read t.mem a ≠ Memory.read s.mem a) :
    (s.inFront a ∧ ∃ i, p = some i ∧ i.isDrawing = true) ∨
      (inAssets s.cfg a = true ∧ (s.xferInFlight = true → ¬ s.inSource a) ∧
        ∃ q v, head = some (.storeAsset q v) ∧ q.toNat = a) := by
  have hmem : t.mem ≠ s.mem := fun h => ha (by rw [h])
  cases h with
  | command w i hw hd hx =>
    obtain ⟨hi, -, he⟩ := (exec_mem hx).resolve_right fun h => hmem h.1
    obtain ⟨u, hu, htu⟩ := he.touched
    rw [htu] at ha
    exact .inl ⟨by_contra fun hf => ha (hu.aside a hf), i, hp w i hw hd, hi⟩
  | illegal | deliver | fail | read | idle => exact absurd rfl hmem
  | session => exact absurd (trySyncStart_mem s) hmem
  | sequencer => exact absurd (sequencerStep_frame s).1 hmem
  | tick =>
    refine absurd ?_ hmem
    unfold tickStep
    split <;> rfl
  | store q v hh hs hin =>
    obtain rfl : a = q.toNat := by_contra fun hne => ha (Memory.read_write_other _ _ hne)
    exact .inr ⟨hin, hs, q, v, hh, rfl⟩

/-- Settles O18: a step is one move, and a move changes a front byte by drawing or the host's asset byte. -/
theorem onlyDrawingAndTheHostWriteMemory : Obligations.OnlyDrawingAndTheHostWriteMemory := by
  intro s t hstep a ha
  obtain ⟨rest, n, hm⟩ := step_cases hstep
  exact hm.writes (p := s.presented) (fun w i hw hd => presented_of_turn hw hd) ha

/-! ### Reads -/

@[simp] theorem bytesAt_length (m : Memory) (a n : Nat) : (bytesAt m a n).length = n := by
  rw [bytesAt, List.length_map, List.length_range]

/-- The value of a mapped range has the bytes of the range as its bytes, the lower address the less significant (20_memory.md
R64, R68). -/
theorem memRead_mapped {s : State} {a n : Nat} (h : mapped s.cfg a n = true) :
    ∃ v, memRead s a n = some v ∧ v < 256 ^ n ∧
      ∀ j, j < n → v / 256 ^ j % 256 = (Memory.read s.mem (a + j)).toNat := by
  refine ⟨leValue (bytesAt s.mem a n), if_pos h, ?_, fun j hj => ?_⟩
  · simpa using leValue_lt (bytesAt s.mem a n)
  · rw [leValue_byte _ _ (by simpa using hj)]
    simp [bytesAt]

/-- A range that is not mapped has no value (20_memory.md R64). -/
theorem memRead_unmapped {s : State} {a n : Nat} (h : mapped s.cfg a n = false) : memRead s a n = none :=
  if_neg (ne_true_of_eq_false h)

/-- Settles O22: the map region by region, the longest mapped start of a range, and the two answers of a read. -/
theorem addressMapAndReads : Obligations.AddressMapAndReads := by
  refine ⟨mapped_iff, fun c a k n hk => mappedPrefix_iff hk,
    fun s a n => ⟨memRead_mapped, fun h => ⟨memRead_unmapped h, ?_⟩⟩⟩
  rw [readMem_unmapped h]
  exact raise_memFault a s

/-! ### Copying -/

/-- `LOAD_BUFFER` of a length that fits runs its copy (42_framebuffer.md R168). -/
theorem exec_loadBuffer {s : State} (hd : s.drawable) {src len : Word} (hlen : len.toNat ≤ s.cfg.fbBytes) :
    exec (.loadBuffer src len) s =
      .next ((forCount len.toNat 0 (loadByte src.toNat) s).close fun _ u => u.done) := by
  rw [exec, execLoadBuffer, next_drawing hd, if_neg (by omega)]

/-- Settles O40: the copy is `load_part`, and no byte of a source aside has been written when it is read. -/
theorem loadBufferCopies : Obligations.LoadBufferCopies := by
  intro s src len hd hm
  refine ⟨fun hlen => ?_, fun hlen hr => ?_⟩
  · rw [exec, execLoadBuffer, next_drawing hd, if_pos hlen]
    rfl
  · obtain ⟨t, hrun, -, hcopy, hother, hrest⟩ := load_part hm src.toNat len.toNat hlen hr
    refine ⟨t.done, ?_, fun haside j hj => ?_, hcopy, hother, ?_⟩
    · rw [exec_loadBuffer hd hlen, hrun]
      rfl
    · have hnot := (haside j hj).2
      unfold State.inFront at hnot
      exact (hcopy j hj).trans (if_neg (by omega))
    · have hzero : decide (len ≠ 0) = decide (len.toNat ≠ 0) := by simp [← BitVec.toNat_inj]
      rw [hzero, hrest]
      rfl

end Sys2Proof.Machine
end

section
/-! Proofs of the statements about the commands that draw from a list in MEM: polylines, bitmaps and characters
(spec/43_graphics_shapes.md R187, spec/45_graphics_bitmap_text.md R215, R219 to R221, spec/60_exceptions.md R269). -/

namespace Sys2Proof.Machine

/-! ### Bodies that read MEM -/

theorem State.readableAside.readable {s : State} {a n : Nat} (h : s.readableAside a n) : s.readable a n :=
  fun k hk => (h k hk).1

/-- A body that stops at an unmapped read after its drawing: the state it reached, with the `MemFault` (60_exceptions.md R269). -/
theorem Touched.raise_memFault {s t : State} (h : Touched s t) (a : Nat) :
    raise (.memFault a) t = { t with result := 0x0007, faultBits := s.faultBits ||| 0x10 } := by
  rw [Machine.raise_memFault, h.faultBits]

/-! ### Polylines -/

/-- `DRAW_POLYLINE` of a list of at least one vertex runs its body (43_graphics_shapes.md R187). -/
theorem exec_drawPolyline {s : State} (hd : s.drawable) {verts count : Word} (col : Colour) (hv : verts ≠ 0)
    (hc : count.toNat ≠ 0) :
    exec (.drawPolyline verts count col) s = .next (((readVertex verts.toNat 0 s).andThen fun start t =>
      polylineFrom verts.toNat col (count.toNat - 1) 1 start t).close fun _ u => u.done) := by
  rw [exec, execDrawPolyline, next_drawing hd, if_neg (by rintro (h | rfl); exacts [hv h, hc rfl])]

/-- `DRAW_POLYLINE` of a null or an empty list draws nothing (43_graphics_shapes.md R187). -/
theorem exec_drawPolyline_empty {s : State} (hd : s.drawable) {verts count : Word} (col : Colour)
    (h : verts = 0 ∨ count = 0) : exec (.drawPolyline verts count col) s = .next s.done := by
  rw [exec, execDrawPolyline, next_drawing hd, if_pos h]

/-- The body of a polyline whose `n + 1` vertices can be read draws the segments between them (43_graphics_shapes.md R187). -/
theorem polyline_ends {s : State} {p n : Nat} {col : Colour} (hr : s.readable p (2 * (n + 1))) :
    ((readVertex p 0 s).andThen fun start t => polylineFrom p col n 1 start t) = .ok () (polyline p col s n).1 :=
  polyline_goes n 0 hr

/-- The body of a polyline of `count` vertices of which the first `k` can be read and the next cannot: it stops with the segments
between the vertices before it drawn (60_exceptions.md R269). -/
theorem polyline_stops {s : State} {p k count : Nat} {col : Colour} (hk : k < count) (hr : s.readable p (2 * k))
    (hu : ¬ s.readable (p + 2 * k) 2) :
    ∃ a, ((readVertex p 0 s).andThen fun start t => polylineFrom p col (count - 1) 1 start t) =
      .memFault a (polyline p col s (k - 1)).1 := by
  have hbyte : mapped s.cfg (p + 2 * k) 1 = false ∨ mapped s.cfg (p + 2 * k + 1) 1 = false := by
    by_contra h
    simp only [not_or, Bool.not_eq_false] at h
    exact hu fun j hj => by interval_cases j; exacts [h.1, h.2]
  cases k with
  | zero =>
    obtain ⟨a, ha⟩ := readVertex_stops hbyte
    exact ⟨a, by rw [ha]; rfl⟩
  | succ n =>
    rw [← (polyline_touched p col s n).cfg] at hbyte
    obtain ⟨a, ha⟩ := readVertex_stops hbyte
    obtain ⟨m, rfl⟩ : ∃ m, count = n + (m + 1) + 1 := ⟨count - n - 2, by omega⟩
    refine ⟨a, (polyline_goes n (m + 1) hr).trans ?_⟩
    rw [polylineFrom, ha]
    rfl

/-- The state after the segments to the first `n + 1` vertices of a list, each drawn by a `DRAW_LINE`, which writes `RESULT`
(43_graphics_shapes.md R187). -/
def segmentsDrawn (p : Nat) (col : Colour) (s : State) : Nat → State
  | 0 => s
  | n + 1 => (polyline p col s (n + 1)).1.done

/-- Apart from `RESULT` it is the state of the polyline. -/
theorem segmentsDrawn_done (p : Nat) (col : Colour) (s : State) (n : Nat) :
    (segmentsDrawn p col s n).done = (polyline p col s n).1.done := by
  cases n <;> rfl

/-- The fields of `segmentsDrawn` that drawing reads and writes are those of the polyline. -/
theorem segmentsDrawn_eq (p : Nat) (col : Colour) (s : State) (n : Nat) :
    segmentsDrawn p col s n = { (polyline p col s n).1 with result := (segmentsDrawn p col s n).result } := by
  cases n <;> rfl

/-- Vertex `n` of the polyline is the one that stands in memory after the segments before it (43_graphics_shapes.md R187). -/
theorem polyline_vertex (p : Nat) (col : Colour) (s : State) (n : Nat) :
    (polyline p col s n).2 = vertexAt (segmentsDrawn p col s (n - 1)) p n := by
  cases n with
  | zero => rfl
  | succ n =>
    rw [segmentsDrawn_eq]
    rfl

/-- Plotting does not look at `RESULT`. -/
theorem plot_done_congr {s t : State} (h : s.done = t.done) (points : List Point) (col : Colour) :
    (plot s points col).done = (plot t points col).done := by
  have hplot := congrArg (plot · points col) h
  simp only [State.done, plot_setResult] at hplot
  exact hplot

/-- `DRAW_LINE` from a vertex to the next, as it stands after the segments before it, draws the next segment
(43_graphics_shapes.md R182, R187). -/
theorem exec_drawLine_segment {s : State} (hd : s.drawable) (p : Nat) (col : Colour) (n : Nat) {x1 y1 x2 y2 : Byte}
    (h1 : (coord x1, coord y1) = vertexAt (segmentsDrawn p col s (n - 1)) p n)
    (h2 : (coord x2, coord y2) = vertexAt (segmentsDrawn p col s n) p (n + 1)) :
    exec (.drawLine x1 y1 x2 y2 col) (segmentsDrawn p col s n) = .next (segmentsDrawn p col s (n + 1)) := by
  have hdraw : (segmentsDrawn p col s n).drawable := by
    rw [segmentsDrawn_eq]
    exact (polyline_touched p col s n).drawable hd
  have hv1 := h1.trans (polyline_vertex p col s n).symm
  have hv2 := h2.trans (polyline_vertex p col s (n + 1)).symm
  simp only [Prod.ext_iff] at hv1 hv2
  rw [exec, execDrawLine, next_drawing hdraw, plot_done_congr (segmentsDrawn_done p col s n), hv1.1, hv1.2, hv2.1, hv2.2]
  rfl

/-- Settles O34: the segments are `segmentsDrawn`, the body ends or stops after them, and from a list aside the vertices are those
that stood before. -/
theorem drawPolylineJoinsItsVertices : Obligations.DrawPolylineJoinsItsVertices := by
  intro s verts count col hd hm
  refine ⟨exec_drawPolyline_empty hd col, fun hv k hk hr => ?_, fun hv hr => ?_⟩
  · refine ⟨segmentsDrawn verts.toNat col s, fun i =>
      (Memory.read (segmentsDrawn verts.toNat col s (i - 1)).mem (verts.toNat + 2 * i),
        Memory.read (segmentsDrawn verts.toNat col s (i - 1)).mem (verts.toNat + 2 * i + 1)),
      rfl, fun _ _ => rfl, fun i _ => exec_drawLine_segment hd verts.toNat col i rfl rfl, fun hlast => ?_, fun hlt hu => ?_⟩
    · by_cases hc : count = 0
      · subst hlast hc
        exact exec_drawPolyline_empty hd col (.inr rfl)
      · have hc' : count.toNat ≠ 0 := fun h => hc (BitVec.eq_of_toNat_eq h)
        rw [exec_drawPolyline hd col hv hc', polyline_ends fun j hj => hr j (by omega), hlast]
        exact congrArg Host.Outcome.next (segmentsDrawn_done _ _ _ _).symm
    · obtain ⟨a, ha⟩ := polyline_stops (col := col) hlt hr hu
      rw [exec_drawPolyline hd col hv (by omega), ha, segmentsDrawn_eq]
      exact congrArg Host.Outcome.next ((polyline_touched _ _ _ _).raise_memFault a)
  · by_cases hc : count.toNat = 0
    · refine ⟨s.done, exec_drawPolyline_empty hd col (.inr (BitVec.eq_of_toNat_eq hc)), ?_⟩
      exact ((Drawn.refl hm col).congr' fun a b => ⟨False.elim, fun ⟨i, hi, _⟩ => by omega⟩).painted
    · obtain ⟨n, hn⟩ := Nat.exists_eq_succ_of_ne_zero hc
      rw [hn] at hr
      refine ⟨(polyline verts.toNat col s n).1.done, ?_, ?_⟩
      · rw [exec_drawPolyline hd col hv hc, hn]
        exact congrArg (fun f => Host.Outcome.next (f.close fun _ u => u.done)) (polyline_ends hr.readable)
      · refine ((polyline_drawn hm n hr).2.congr' fun a b => ?_).painted
        simp only [hn, Nat.succ_eq_add_one, Nat.add_lt_add_iff_right]
        exact Iff.rfl

/-! ### Bitmaps -/

/-- Pixel number `m` of a bitmap of `h` rows of `w` columns lies in a byte of the bitmap (45_graphics_bitmap_text.md R215). -/
theorem bitmapByte_lt {w h m : Nat} (hm : m < h * w) :
    m / w * ((w + 7) / 8) + m % w / 8 < h * ((w + 7) / 8) := by
  have hw : 0 < w := Nat.pos_of_ne_zero (by rintro rfl; simp at hm)
  have hcol : m % w / 8 < (w + 7) / 8 := by have := Nat.mod_lt m hw; omega
  have hrow : m / w + 1 ≤ h := Nat.div_lt_of_lt_mul (by rwa [Nat.mul_comm])
  calc m / w * ((w + 7) / 8) + m % w / 8 < (m / w + 1) * ((w + 7) / 8) := by rw [Nat.add_mul]; omega
    _ ≤ h * ((w + 7) / 8) := Nat.mul_le_mul_right _ hrow

/-- Every pixel's byte of a bitmap aside can be read and is not drawn on. -/
theorem State.readableAside.pixelByte {s : State} {p w h m : Nat} (hr : s.readableAside p (h * ((w + 7) / 8))) (hm : m < h * w) :
    mapped s.cfg (p + m / w * ((w + 7) / 8) + m % w / 8) 1 = true ∧ ¬ s.inFront (p + m / w * ((w + 7) / 8) + m % w / 8) := by
  rw [Nat.add_assoc]
  exact hr _ (bitmapByte_lt hm)

/-- The pixels numbered row by row are the pairs of a column and a row. -/
theorem exists_pixelNumber {w h : Nat} {Q : Nat → Nat → Prop} :
    (∃ m, m < h * w ∧ Q (m % w) (m / w)) ↔ ∃ i j, i < w ∧ j < h ∧ Q i j := by
  constructor
  · rintro ⟨m, hm, hq⟩
    have hw : 0 < w := Nat.pos_of_ne_zero (by rintro rfl; simp at hm)
    exact ⟨_, _, Nat.mod_lt m hw, Nat.div_lt_of_lt_mul (by rwa [Nat.mul_comm]), hq⟩
  · rintro ⟨i, j, hi, hj, hq⟩
    refine ⟨i + w * j, ?_, ?_⟩
    · calc i + w * j < w * (j + 1) := by rw [Nat.mul_succ]; omega
        _ ≤ w * h := Nat.mul_le_mul_left _ hj
        _ = h * w := Nat.mul_comm _ _
    · rwa [Nat.add_mul_mod_self_left, Nat.mod_eq_of_lt hi, Nat.add_mul_div_left _ _ (by omega), Nat.div_eq_of_lt hi,
        Nat.zero_add]

/-- `DRAW_BITMAP` runs its body, row by row (45_graphics_bitmap_text.md R215). -/
theorem exec_drawBitmap {s : State} (hd : s.drawable) (x y w h : Byte) (bitmap : Word) (col : Colour) :
    exec (.drawBitmap x y w h bitmap col) s = .next ((forCount h.toNat 0 (fun j u =>
      forCount w.toNat 0 (blitPixel (coord x) (coord y) w.toNat bitmap.toNat col j) u) s).close fun _ u => u.done) :=
  next_drawing hd _

/-- `DRAW_BITMAP` of a bitmap that can be read draws its pixels in turn (45_graphics_bitmap_text.md R215). -/
theorem exec_drawBitmap_ok {s : State} (hd : s.drawable) {x y w h : Byte} {bitmap : Word} {col : Colour}
    (hr : ∀ m, m < h.toNat * w.toNat →
      mapped s.cfg (bitmap.toNat + m / w.toNat * ((w.toNat + 7) / 8) + m % w.toNat / 8) 1 = true) :
    exec (.drawBitmap x y w h bitmap col) s =
      .next (inTurn (blitNth (coord x) (coord y) w.toNat bitmap.toNat col) s (h.toNat * w.toNat)).done := by
  rw [exec_drawBitmap hd, blit_ok hr]
  rfl

/-- Settles O35: the body is the pixels in turn (`blit_ok`, `blit_stops`), and from a bitmap aside the bits are those that stood
before. -/
theorem drawBitmapPaintsSetBits : Obligations.DrawBitmapPaintsSetBits := by
  intro s x y w h bitmap col hd hm
  refine ⟨fun hr => ?_, fun n hn hr => ?_⟩
  · refine ⟨_, exec_drawBitmap_ok hd fun m hlt => (hr.pixelByte hlt).1, ?_⟩
    refine ((blit_drawn hm _ fun m hlt => (hr.pixelByte hlt).2).congr' fun a b => ?_).painted
    exact exists_pixelNumber (Q := fun i j => a = coord x + i ∧ b = coord y + j ∧ bitmapBit s bitmap.toNat w.toNat i j = true)
  · refine ⟨inTurn (blitNth (coord x) (coord y) w.toNat bitmap.toNat col) s, rfl, fun _ _ => rfl, fun hlast => ?_,
      fun hlt hu => ?_⟩
    · subst hlast
      exact exec_drawBitmap_ok hd hr
    · rw [exec_drawBitmap hd, blit_stops hlt hr hu]
      exact congrArg Host.Outcome.next ((blit_touched _ _ _ _ _ _ _).raise_memFault _)

/-! ### Characters -/

/-- `WRITE_CHAR` of a printable character whose cell fits draws the rows of its glyph, and then moves the cursor
(45_graphics_bitmap_text.md R221). -/
theorem exec_writeChar_fits {s : State} (hd : s.drawable) {ch : Byte} {col : Colour} {gw : Nat} (hlo : 32 ≤ ch.toNat)
    (hhi : ch.toNat ≤ 126) (hg : s.glyphWidthIs ch gw) (hfit : s.cellFits gw) :
    exec (.writeChar ch col) s = .next ((forCount s.cfg.fontH 0
      (glyphRow s.cursorX.toNat s.cursorY.toNat (ch.toNat - 32) gw col) s).close fun _ u => (advance u gw).setResult ch .ok) := by
  have hprint : printable ch = true := decide_eq_true ⟨hlo, hhi⟩
  have hover : overflows s gw = false := decide_eq_false fun h => by unfold State.cellFits at hfit; omega
  rw [exec, execWriteChar, next_drawing hd, putChar, if_pos hprint, glyphWidth_is hg]
  simp only [Flow.andThen, hover]
  cases forCount s.cfg.fontH 0 (glyphRow s.cursorX.toNat s.cursorY.toNat (ch.toNat - 32) gw col) s <;> rfl

/-- The cursor moved right by the width (45_graphics_bitmap_text.md R221). -/
theorem advance_eq {s u : State} (hx : u.cursorX = s.cursorX) (gw : Nat) :
    advance u gw = { u with cursorX := BitVec.ofNat 16 (s.cursorX.toNat + gw) } := by
  rw [advance, hx, BitVec.ofNat_add, BitVec.ofNat_toNat, BitVec.setWidth_eq]

/-- Two parts that change MEM and `DIRTY` alone, one after the other. -/
theorem drawing_frame_trans {s t u : State} (h : t = { s with mem := t.mem, dirty := t.dirty })
    (h' : u = { t with mem := u.mem, dirty := u.dirty }) : u = { s with mem := u.mem, dirty := u.dirty } := by
  rw [h', h]

/-- The states of a character's rows drawn in turn, each row's word read after the rows before it (45_graphics_bitmap_text.md
R221). -/
def glyphRowsDrawn (s : State) (ch : Byte) (col : Colour) (gw : Nat) : Nat → State :=
  inTurn (fun i t => t.glyphRowDrawn ch col gw i) s

/-- The rows change MEM and `DIRTY` alone. -/
theorem glyphRowsDrawn_frame (s : State) (ch : Byte) (col : Colour) (gw n : Nat) :
    glyphRowsDrawn s ch col gw n =
      { s with mem := (glyphRowsDrawn s ch col gw n).mem, dirty := (glyphRowsDrawn s ch col gw n).dirty } := by
  induction n with
  | zero => rfl
  | succ n ih => exact drawing_frame_trans ih (glyphRowDrawn_frame _ ch col n gw)

@[simp] theorem glyphRowsDrawn_cfg (s : State) (ch : Byte) (col : Colour) (gw n : Nat) :
    (glyphRowsDrawn s ch col gw n).cfg = s.cfg := by rw [glyphRowsDrawn_frame]

@[simp] theorem glyphRowsDrawn_cursorX (s : State) (ch : Byte) (col : Colour) (gw n : Nat) :
    (glyphRowsDrawn s ch col gw n).cursorX = s.cursorX := by rw [glyphRowsDrawn_frame]

@[simp] theorem glyphRowsDrawn_cursorY (s : State) (ch : Byte) (col : Colour) (gw n : Nat) :
    (glyphRowsDrawn s ch col gw n).cursorY = s.cursorY := by rw [glyphRowsDrawn_frame]

@[simp] theorem glyphRowsDrawn_faultBits (s : State) (ch : Byte) (col : Colour) (gw n : Nat) :
    (glyphRowsDrawn s ch col gw n).faultBits = s.faultBits := by rw [glyphRowsDrawn_frame]

/-- One row of a glyph at the cursor of the command, read and drawn after the rows before it (45_graphics_bitmap_text.md R219,
R221). -/
theorem glyphRow_drawn {s : State} {ch : Byte} {col : Colour} {gw i : Nat}
    (hm : mapped s.cfg (glyphRowAddr s.cfg (ch.toNat - 32) i) 2 = true) :
    glyphRow s.cursorX.toNat s.cursorY.toNat (ch.toNat - 32) gw col i (glyphRowsDrawn s ch col gw i) =
      .ok () (glyphRowsDrawn s ch col gw (i + 1)) := by
  have h := glyphRow_ok (s := glyphRowsDrawn s ch col gw i) (ch := ch) (col := col) (gw := gw) (i := i) (by simpa using hm)
  rw [glyphRowsDrawn_cursorX, glyphRowsDrawn_cursorY] at h
  exact h

/-- One row of a glyph that cannot be read (60_exceptions.md R269). -/
theorem glyphRow_unmapped {s : State} {x y : Int} {g gw : Nat} {col : Colour} {i : Nat}
    (hu : mapped s.cfg (glyphRowAddr s.cfg g i) 2 = false) :
    glyphRow x y g gw col i s = .memFault (glyphRowAddr s.cfg g i) s := by
  rw [glyphRow, readMem_unmapped hu]
  rfl

/-- The colours that the first `n` rows of a character's glyph give the pixels of its cell at the cursor
(45_graphics_bitmap_text.md R221). -/
def cellTint (s : State) (ch : Byte) (col : Colour) (gw n : Nat) (a b : Int) : Option Bool :=
  if (s.cursorX.toNat : Int) ≤ a ∧ a < s.cursorX.toNat + gw ∧ (s.cursorY.toNat : Int) ≤ b ∧ b < s.cursorY.toNat + n then
    tint s ch col (b - s.cursorY.toNat).toNat (a - s.cursorX.toNat).toNat
  else none

theorem cellTint_inside (s : State) (ch : Byte) (col : Colour) {gw n i j : Nat} (hi : i < n) (hj : j < gw) :
    cellTint s ch col gw n (s.cursorX.toNat + j : Nat) (s.cursorY.toNat + i : Nat) = tint s ch col i j := by
  rw [cellTint, if_pos (by omega)]
  congr 1 <;> omega

theorem cellTint_outside (s : State) (ch : Byte) (col : Colour) {gw n x y : Nat}
    (h : x < s.cursorX.toNat ∨ s.cursorX.toNat + gw ≤ x ∨ y < s.cursorY.toNat ∨ s.cursorY.toNat + n ≤ y) :
    cellTint s ch col gw n x y = none :=
  if_neg (by omega)

theorem tint_getD (s : State) (ch : Byte) (col : Colour) (i j : Nat) (old : Bool) :
    (tint s ch col i j).getD old =
      if s.glyphSet ch i j then col.bit else if s.cfg.glyphOpaque then col.other.bit else old := by
  unfold tint
  split
  · rfl
  · split <;> rfl

theorem tint_ne_none (s : State) (ch : Byte) (col : Colour) (i j : Nat) :
    tint s ch col i j ≠ none ↔ s.glyphSet ch i j = true ∨ s.cfg.glyphOpaque = true := by
  unfold tint
  split
  · simp [*]
  · split <;> simp [*]

/-- What the first `n` rows of a cell that fits show: each pixel of them, every other pixel, and `DIRTY`
(45_graphics_bitmap_text.md R221, R223 (3)). -/
theorem Tinted.cell {s t : State} {ch : Byte} {col : Colour} {gw n : Nat} (h : Tinted s t (cellTint s ch col gw n))
    (hfit : s.cellFits gw) (hn : n ≤ s.cfg.fontH) :
    (∀ i j, i < n → j < gw → t.pixel (s.cursorX.toNat + j) (s.cursorY.toNat + i) =
      if s.glyphSet ch i j then col.bit
      else if s.cfg.glyphOpaque then col.other.bit
      else s.pixel (s.cursorX.toNat + j) (s.cursorY.toNat + i)) ∧
    (∀ x y, x < s.cfg.w → y < s.cfg.h → (x < s.cursorX.toNat ∨ s.cursorX.toNat + gw ≤ x ∨ y < s.cursorY.toNat ∨
      s.cursorY.toNat + n ≤ y) → t.pixel x y = s.pixel x y) ∧
    (t.dirty = true ↔ s.dirty = true ∨
      ∃ i j, i < n ∧ j < gw ∧ (s.glyphSet ch i j = true ∨ s.cfg.glyphOpaque = true)) := by
  obtain ⟨hw, hh⟩ := hfit
  refine ⟨fun i j hi hj => ?_, fun x y hx hy hout => ?_, ?_⟩
  · rw [h.pix _ _ (by omega) (by omega), cellTint_inside s ch col hi hj, tint_getD]
  · rw [h.pix x y hx hy, cellTint_outside s ch col hout]
    rfl
  · rw [h.dirty]
    refine or_congr_right ⟨?_, ?_⟩
    · rintro ⟨x, y, -, -, hc⟩
      have hin : ¬ (x < s.cursorX.toNat ∨ s.cursorX.toNat + gw ≤ x ∨ y < s.cursorY.toNat ∨ s.cursorY.toNat + n ≤ y) :=
        fun hout => hc (cellTint_outside s ch col hout)
      obtain ⟨j, rfl⟩ : ∃ j, x = s.cursorX.toNat + j := Nat.exists_eq_add_of_le (by omega)
      obtain ⟨i, rfl⟩ : ∃ i, y = s.cursorY.toNat + i := Nat.exists_eq_add_of_le (by omega)
      have hi : i < n := by omega
      have hj : j < gw := by omega
      rw [cellTint_inside s ch col hi hj] at hc
      exact ⟨i, j, hi, hj, (tint_ne_none s ch col i j).mp hc⟩
    · rintro ⟨i, j, hi, hj, hset⟩
      refine ⟨s.cursorX.toNat + j, s.cursorY.toNat + i, by omega, by omega, ?_⟩
      rw [cellTint_inside s ch col hi hj]
      exact (tint_ne_none s ch col i j).mpr hset

/-- Settles O44: the rows are `glyphRowsDrawn`, after which the command ends or stops, and from a glyph aside they tint the
cell. -/
theorem writeCharDrawsItsCell : Obligations.WriteCharDrawsItsCell := by
  intro s ch col gw hd hm hlo hhi hg hfit
  have hexec := exec_writeChar_fits (col := col) hd hlo hhi hg hfit
  refine ⟨fun n hn hr => ?_, fun hr => ?_⟩
  · have hrow := fun i (hi : i < n) => glyphRow_drawn (col := col) (gw := gw) (hr i hi)
    refine ⟨glyphRowsDrawn s ch col gw, rfl, fun _ _ => rfl, fun hlast => ?_, fun hlt hu => ?_⟩
    · have hrun := forCount_ok (glyphRowsDrawn s ch col gw) n hrow
      rw [hlast] at hrun ⊢
      rw [hexec]
      refine (congrArg (fun f => Host.Outcome.next (Flow.close f _)) hrun).trans ?_
      rw [Flow.close, advance_eq (glyphRowsDrawn_cursorX s ch col gw _)]
      rfl
    · have hrun := forCount_stops (glyphRowsDrawn s ch col gw) hlt hrow (glyphRow_unmapped (by simpa using hu))
      rw [hexec]
      refine (congrArg (fun f => Host.Outcome.next (Flow.close f _)) hrun).trans ?_
      rw [Flow.close, raise_memFault, glyphRowsDrawn_faultBits]
  · obtain ⟨u, hrun, ht⟩ := glyphRows_tinted (col := col) (cx := s.cursorX.toNat) (cy := s.cursorY.toNat) (gw := gw) hm hr
    obtain ⟨hin, hout, hdirty⟩ := Tinted.cell ht hfit (le_refl _)
    refine ⟨(advance u gw).setResult ch .ok, by rw [hexec, hrun]; rfl, hin, hout, ht.aside, hdirty, ?_⟩
    rw [advance_eq (by rw [ht.rest]), ht.rest]
    rfl

end Sys2Proof.Machine
end

section
/-! Proofs of the statements about the encoding (spec/30_encoding.md): the command word, its serial form, the line of text, and
the words that are no command. -/

namespace Sys2Proof

/-! ### The command word -/

/-- The word of a well-formed command meets the row of its opcode, whichever of the twenty it is (30_encoding.md R93, R94). -/
theorem encode_meets_row : ∀ i : Instr, Laws.EncodesLegal.Statement i
  | .init mode => Laws.EncodesLegal.init mode
  | .setDisplayOn on => Laws.EncodesLegal.setDisplayOn on
  | .setContrast v => Laws.EncodesLegal.setContrast v
  | .updateScreen => Laws.EncodesLegal.updateScreen
  | .beginTransfer addr buffer length => Laws.EncodesLegal.beginTransfer addr buffer length
  | .drawPixel x y col => Laws.EncodesLegal.drawPixel x y col
  | .drawLine x1 y1 x2 y2 col => Laws.EncodesLegal.drawLine x1 y1 x2 y2 col
  | .drawCircle x y r col => Laws.EncodesLegal.drawCircle x y r col
  | .fillCircle x y r col => Laws.EncodesLegal.fillCircle x y r col
  | .drawArc x y r seg start sweep col cap => Laws.EncodesLegal.drawArc x y r seg start sweep col cap
  | .drawPolyline verts count col => Laws.EncodesLegal.drawPolyline verts count col
  | .drawRectangle x1 y1 x2 y2 col => Laws.EncodesLegal.drawRectangle x1 y1 x2 y2 col
  | .fillRectangle x1 y1 x2 y2 col => Laws.EncodesLegal.fillRectangle x1 y1 x2 y2 col
  | .invertRectangle x1 y1 x2 y2 => Laws.EncodesLegal.invertRectangle x1 y1 x2 y2
  | .drawBitmap x y w h bitmap col => Laws.EncodesLegal.drawBitmap x y w h bitmap col
  | .writeChar ch col => Laws.EncodesLegal.writeChar ch col
  | .writeString str col => Laws.EncodesLegal.writeString str col
  | .setCursor x y => Laws.EncodesLegal.setCursor x y
  | .fill col => Laws.EncodesLegal.fill col
  | .loadBuffer src len => Laws.EncodesLegal.loadBuffer src len

/-- Settles O1: the word of a well-formed command meets the row of its opcode, and its fields assemble to the command. -/
theorem decodeInvertsEncode : Obligations.DecodeInvertsEncode := by
  intro i hi
  obtain ⟨r, hr, hm⟩ := encode_meets_row i hi
  have hf := fieldsOf_encode i
  exact decode_of_row (by rw [hf]; exact hr) hm (by rw [hf]; exact assemble_fields i)

/-- The opcodes of the table differ, so that a row is the row of its opcode (30_encoding.md R93). -/
theorem rowOf_row : ∀ r ∈ opcodeTable, rowOf r.op = some r := by
  simp only [opcodeTable, List.forall_mem_cons]
  exact ⟨rfl, rfl, rfl, rfl, rfl, rfl, rfl, rfl, rfl, rfl, rfl, rfl, rfl, rfl, rfl, rfl, rfl, rfl, rfl, rfl, nofun⟩

/-- Settles O2: a legal word meets its row, a word that meets a row has the fields of one well-formed command, and these are the
fields of that command's own word. -/
theorem wordLegalExactlyWhenItsRowIsMet : Obligations.WordLegalExactlyWhenItsRowIsMet := by
  refine ⟨fun w => ⟨?_, ?_⟩, fun w i h => ?_⟩
  · rintro ⟨i, h⟩
    obtain ⟨r, hr, hm, -⟩ := decode_legal h
    obtain ⟨hmem, hop⟩ := rowOf_mem hr
    exact ⟨r, hmem, hop.symm, hm⟩
  · rintro ⟨r, hr, hop, hm⟩
    obtain ⟨i, hi, -, -⟩ := row_fields hr hop hm
    have hop' : (fieldsOf w).op = r.op := hop
    exact ⟨i, decode_of_row (by rw [hop']; exact rowOf_row r hr) hm hi⟩
  · obtain ⟨r, hr, hm, hi⟩ := decode_legal h
    obtain ⟨hmem, hop⟩ := rowOf_mem hr
    obtain ⟨j, hj, hwf, hf⟩ := row_fields hmem hop.symm hm
    obtain rfl : j = i := Option.some.inj (hj.symm.trans hi)
    exact ⟨hwf, fieldsOf_injective ((fieldsOf_encode j).trans hf)⟩

/-- Settles O3: each of the eight words is decoded as it stands. -/
theorem sampleWordsDecode : Obligations.SampleWordsDecode := by
  unfold Obligations.SampleWordsDecode
  decide

/-! ### The serial form -/

@[simp] theorem bytesOfWord_length (w : CommandWord) : (bytesOfWord w).length = 16 := leBytes_length 16 _

/-- Byte `j` of the serial form is `cmd[8j+7 : 8j]` (30_encoding.md R90). -/
theorem bytesOfWord_get (w : CommandWord) {j : Nat} (h : j < 16) :
    (bytesOfWord w)[j]? = some (w.extractLsb' (8 * j) 8) := by
  rw [bytesOfWord, leBytes_get _ _ _ h, BitVec.extractLsb', Nat.shiftRight_eq_div_pow, Nat.pow_mul]

/-- The word is read back from its serial form (30_encoding.md R90). -/
@[simp] theorem wordOfBytes_bytesOfWord (w : CommandWord) : wordOfBytes (bytesOfWord w) = w := by
  apply BitVec.eq_of_toNat_eq
  rw [wordOfBytes, bytesOfWord, leValue_leBytes, BitVec.toNat_ofNat]
  omega

/-- The decoder of byte strings takes the 16 bytes of the word and leaves what follows (30_encoding.md R90, R96). -/
theorem decodeBytes_bytesOfWord (w : CommandWord) (rest : List Byte) :
    decodeBytes (bytesOfWord w ++ rest) = (decode w, rest) := by
  have hlen := bytesOfWord_length w
  rw [decodeBytes, if_neg (by simp), List.take_left' hlen, List.drop_left' hlen, wordOfBytes_bytesOfWord]

/-- Settles O4: the four parts are the laws of the serial form. -/
theorem serialFormIsLittleEndian : Obligations.SerialFormIsLittleEndian := fun w rest =>
  ⟨bytesOfWord_length w, fun _ hj => bytesOfWord_get w hj, wordOfBytes_bytesOfWord w, decodeBytes_bytesOfWord w rest⟩

/-! ### The line of text -/

/-- The opcode and the operands of a well-formed command give it back (30_encoding.md R93, R95, R101). -/
theorem commandOf_operands {i : Instr} (h : i.wellFormed = true) : commandOf i.fields.op i.operands = some i := by
  cases i with
  | init mode =>
    simp [commandOf, Instr.fields, Fields.blank, Instr.operands, fit_toNat (bits := 1) mode (of_decide_eq_true h)]
  | setDisplayOn on =>
    simp [commandOf, Instr.fields, Fields.blank, Instr.operands, fit_toNat (bits := 1) on (of_decide_eq_true h)]
  | beginTransfer addr buffer length =>
    simp [commandOf, Instr.fields, Fields.blank, Instr.operands, fit_full, fit_toNat (bits := 7) addr (of_decide_eq_true h)]
  | drawArc x y r seg start sweep col cap =>
    cases cap <;> simp [commandOf, Instr.fields, Fields.blank, Instr.operands, fit_full, capWord,
      fit_toNat (bits := 16) sweep (of_decide_eq_true h)]
  | _ => simp [commandOf, Instr.fields, Fields.blank, Instr.operands, fit_full]

/-- A numeral that fits a field has no bit above the field (30_encoding.md R94, R95). -/
theorem fit_lt {bits w n : Nat} {v : BitVec w} (h : fit bits w n = some v) : v.toNat < 2 ^ bits := by
  obtain ⟨hn, hv⟩ := Option.ite_none_right_eq_some.mp h
  obtain rfl := Option.some.inj hv
  exact (BitVec.toNat_ofNat n w ▸ Nat.mod_le n _).trans_lt hn

/-- Operands that are read one after the other give a well-formed command when the last reading does. -/
theorem bind_wellFormed {α : Type} {o : Option α} {f : α → Option Instr}
    (h : ∀ x, o = some x → ∀ i ∈ f x, i.wellFormed = true) : ∀ i ∈ o >>= f, i.wellFormed = true := by
  intro i hi
  obtain ⟨x, hx, hf⟩ := Option.bind_eq_some_iff.mp hi
  exact h x hx i hf

theorem pure_wellFormed {i : Instr} (h : i.wellFormed = true) : ∀ j ∈ (pure i : Option Instr), j.wellFormed = true := by
  rintro _ ⟨⟩
  exact h

/-- An opcode and operands that give a command give a well-formed one: each numeral fits its field (30_encoding.md R94, R95). -/
theorem commandOf_wellFormed (op : BitVec 8) (operands : List Token) :
    ∀ i ∈ commandOf op operands, i.wellFormed = true := by
  -- The partly used fields are those of `INIT`, `SET_DISPLAY_ON`, `BEGIN_TRANSFER` and `DRAW_ARC`, rows 1, 2, 5 and 10 of the
  -- table; case 21 is no command.
  fun_cases commandOf op operands
  case case1 => exact bind_wellFormed fun _ hm => pure_wellFormed (decide_eq_true (fit_lt hm))
  case case2 => exact bind_wellFormed fun _ hv => pure_wellFormed (decide_eq_true (fit_lt hv))
  case case5 =>
    exact bind_wellFormed fun _ ha => bind_wellFormed fun _ _ => bind_wellFormed fun _ _ =>
      pure_wellFormed (decide_eq_true (fit_lt ha))
  case case10 =>
    iterate 5 refine bind_wellFormed fun _ _ => ?_
    exact bind_wellFormed fun _ hsweep => bind_wellFormed fun _ _ => bind_wellFormed fun _ _ =>
      pure_wellFormed (decide_eq_true (fit_lt hsweep))
  case case21 => nofun
  all_goals
    repeat refine bind_wellFormed fun _ _ => ?_
    exact pure_wellFormed rfl

/-- The line of a well-formed command assembles to it (30_encoding.md R101). -/
theorem commandOfTokens_line {i : Instr} (h : i.wellFormed = true) : commandOfTokens i.line = some i := by
  rw [Instr.line, commandOfTokens, opcode_name, operandsOf_withCommas _ (no_comma i)]
  exact commandOf_operands h

/-- A line that assembles gives a well-formed command (30_encoding.md R95, R101). -/
theorem commandOfTokens_wellFormed (ts : List Token) : ∀ i ∈ commandOfTokens ts, i.wellFormed = true := by
  fun_cases commandOfTokens ts
  · exact bind_wellFormed fun _ _ => bind_wellFormed fun _ _ => commandOf_wellFormed _ _
  · nofun

/-- A line looks at its first name for the opcode alone, so that names of one opcode are interchangeable (30_encoding.md R102). -/
theorem commandOfTokens_congr {v w : String} (h : opcodeOf v = opcodeOf w) (ts : List Token) :
    commandOfTokens (.name v :: ts) = commandOfTokens (.name w :: ts) := by
  rw [commandOfTokens, commandOfTokens, h]

/-- Settles O5: both directions between a command and its line, and the second names of R102 have the opcodes of the first. -/
theorem lineAssemblesToItsCommand : Obligations.LineAssemblesToItsCommand :=
  ⟨fun _ => commandOfTokens_line, commandOfTokens_wellFormed, fun ts =>
    ⟨commandOfTokens_congr rfl ts, commandOfTokens_congr rfl ts, commandOfTokens_congr rfl ts⟩⟩

/-! ### Words that are no command -/

/-- An opcode outside the table has no row (30_encoding.md R98). -/
theorem rowOf_unassigned {op : BitVec 8} (h : ∀ r ∈ opcodeTable, op ≠ r.op) : rowOf op = none :=
  List.find?_eq_none.mpr fun r hr hop => h r hr (of_decide_eq_true hop).symm

theorem decode_unassigned {w : CommandWord} (h : rowOf (fieldsOf w).op = none) : decode w = .illegal .unassignedOpcode := by
  rw [decode, h]

end Sys2Proof

namespace Sys2Proof.Machine

/-- A word that is no command raises `Illegal` at the command port (30_encoding.md R97). -/
theorem presentCommand_illegal {w : CommandWord} (h : ∀ i, decode w ≠ .legal i) (s : State) :
    presentCommand w s = .next (raise .illegal s) := by
  cases hd : decode w with
  | legal i => exact absurd hd (h i)
  | illegal why => rw [presentCommand, hd]

/-- Settles O7: the step takes the turn and raises `Illegal`; an opcode without a row, such as that of the all-zero word, is
illegal whatever the other bits are. -/
theorem illegalWordOnlyRaisesIllegal : Obligations.IllegalWordOnlyRaisesIllegal := by
  have hunassigned {w : CommandWord} (h : ∀ r ∈ opcodeTable, w.extractLsb' 0 8 ≠ r.op) :
      decode w = .illegal .unassignedOpcode := decode_unassigned (rowOf_unassigned h)
  refine ⟨fun s w rest ht h => (step_of_turn ht).trans (presentCommand_illegal h _), fun w => hunassigned, fun i => ?_⟩
  rw [hunassigned (by decide)]
  exact nofun

end Sys2Proof.Machine
end

section
/-! Proofs of the statements about the transfer engine (spec/40_transfer_engine.md): the chunks of a transfer, that a transfer
on a bus that may not stall ends, and the steps of `BEGIN_TRANSFER` and of the sequencer. -/

namespace Sys2Proof.Machine

/-! ### The chunks of a transfer -/

/-- The sizes of the first chunks sum to their offset, or to the whole length once it is reached (40_transfer_engine.md R132). -/
theorem sum_chunkAt_len (addr : BitVec 7) (src len : Word) (k : Nat) :
    ((List.range k).map fun j => (chunkAt addr src len j).len.toNat).sum = min len.toNat (255 * k) := by
  simp only [chunkAt, chunkLength_toNat, sum_chunks]

/-- Settles O54: the sizes are `min 255 (L - 255 * j)`, whose sum is known, and the rest is arithmetic on `ceil(L / 255)`. -/
theorem chunkSizesSumToTheLength : Obligations.ChunkSizesSumToTheLength := by
  intro addr src len
  have hcount : chunkCount len = (len.toNat + 254) / 255 := rfl
  refine ⟨?_, fun j hj => ?_⟩
  · rw [sum_chunkAt_len]
    omega
  · have hlen : (chunkAt addr src len j).len.toNat = min 255 (len.toNat - 255 * j) := chunkLength_toNat _
    refine ⟨by omega, by omega, by omega, ?_, ?_, rfl⟩
    · exact decide_eq_true_iff.trans (by omega)
    · by_cases h0 : j = 0 <;> simp [chunkAt, h0]

/-- A chunk counted is one chunk fewer to come (40_transfer_engine.md R125, R132). -/
theorem chunkCount_remaining {len done done' : Word} (hle : done'.toNat ≤ len.toNat) (h : done'.toNat = done.toNat + 255) :
    chunkCount (len - done) = chunkCount (len - done') + 1 := by
  rw [chunkCount, chunkCount, BitVec.toNat_sub_of_le (BitVec.le_def.mpr (by omega)),
    BitVec.toNat_sub_of_le (BitVec.le_def.mpr hle)]
  omega

/-- While bytes are to come, a chunk is (40_transfer_engine.md R132). -/
theorem chunkCount_pos {len done : Word} (h : done.toNat < len.toNat) : 0 < chunkCount (len - done) := by
  rw [chunkCount, BitVec.toNat_sub_of_le (BitVec.le_def.mpr h.le)]
  omega

/-! ### A transfer left alone -/

/-- The transfer in flight ends within `n` steps with success or failure, and the completion says which (40_transfer_engine.md
R126, R127, R130). -/
def State.EndsWithin (n : Nat) (s : State) : Prop :=
  ∃ k t, k ≤ n ∧ Host.Core.run core k s = .next t ∧ t.xferInFlight = false ∧
    ∃ ok, t.cbLog = s.cbLog ++ [⟨s.xferOwner, ok⟩] ∧ t.lastOk = ok

theorem State.EndsWithin.mono {m n : Nat} {s : State} (h : s.EndsWithin m) (hmn : m ≤ n) : s.EndsWithin n := by
  obtain ⟨k, t, hk, hrest⟩ := h
  exact ⟨k, t, hk.trans hmn, hrest⟩

/-- A step that completes nothing is one step more. -/
theorem State.EndsWithin.of_step {n : Nat} {s u : State} (h : u.EndsWithin n) (hstep : step s = .next u)
    (howner : u.xferOwner = s.xferOwner) (hlog : u.cbLog = s.cbLog) : s.EndsWithin (n + 1) := by
  obtain ⟨k, t, hk, hrun, hf, ok, hcb, hok⟩ := h
  exact ⟨k + 1, t, by omega, (run_succ k hstep).trans hrun, hf, ok, by rw [hcb, howner, hlog], hok⟩

/-- The step that completes the transfer ends it. -/
theorem State.EndsWithin.of_complete {s u : State} {ok : Bool} (hstep : step s = .next (complete u s.xferOwner ok))
    (hf : u.xferInFlight = false) (hlog : u.cbLog = s.cbLog) : s.EndsWithin 1 := by
  obtain ⟨f, d, st, hc, -⟩ := complete_frame u s.xferOwner ok
  rw [hc] at hstep
  exact ⟨1, _, le_rfl, run_succ 0 hstep, hf, ok, by rw [hlog], rfl⟩

/-- A transfer in flight on a bus that may not stall, with no turn of the host to come (41_bus_abstraction.md R146; log 8). -/
structure State.LeftAlone (s : State) : Prop where
  inv : s.Inv
  noStall : s.cfg.busMayStall = false
  noTurn : s.turns = []
  flight : s.xferInFlight = true

/-- With no turn left a step is the fair default (log 8). -/
theorem step_of_noTurn {s : State} (h : s.turns = []) : step s = .next (fairStep s) := by
  rw [step, h]

/-- A step that leaves the transfer in flight and the schedule empty leaves it alone. -/
theorem State.LeftAlone.stepped {s u : State} (h : s.LeftAlone) (hstep : step s = .next u) (hcfg : u.cfg = s.cfg)
    (hturns : u.turns = s.turns) (hf : u.xferInFlight = true) : u.LeftAlone where
  inv := invariantKeptByEveryStep s u h.inv hstep
  noStall := by rw [hcfg, h.noStall]
  noTurn := hturns.trans h.noTurn
  flight := hf

/-- The bus agent's free answer latches an event for the pending chunk and leaves the transfer as it is
(41_bus_abstraction.md R144, R145). -/
theorem busFreeStep_latches {s : State} {d : Chunk} (hp : s.busPending = some d) (he : s.busEvent = none) :
    ∃ event log isOpen n, busFreeStep s = { s with
      busLog := log, busOpen := isOpen, busPending := none, busEvent := some event, draws := n } := by
  have ha : answerable s = some d := by rw [answerable, he, hp]
  rw [busFreeStep, ha]
  dsimp only
  split
  · exact ⟨_, _, _, _, rfl⟩
  · exact ⟨_, _, _, _, rfl⟩

/-- With an event latched the fair default is the sequencer's step (log 8). -/
theorem fairStep_latched {s : State} (he : s.busEvent ≠ none) : fairStep s = sequencerStep s := by
  obtain ⟨event, he⟩ := Option.ne_none_iff_exists'.mp he
  rw [fairStep, he]

/-- With a chunk pending on a bus that may not stall the fair default is the bus agent's answer (41_bus_abstraction.md R146). -/
theorem fairStep_pending {s : State} {d : Chunk} (hs : s.cfg.busMayStall = false) (hp : s.busPending = some d)
    (he : s.busEvent = none) : fairStep s = busFreeStep s := by
  simp [fairStep, he, hp, hs]

/-- A pending chunk is answered by the next step, so the transfer ends one step after what holds of every answer. -/
theorem State.LeftAlone.endsWithin_of_pending {s : State} {n : Nat} (h : s.LeftAlone) (he : s.busEvent = none)
    (hlatched : ∀ u : State, u.LeftAlone → u.busEvent ≠ none → u.xferLen = s.xferLen → u.xferDone = s.xferDone →
      u.EndsWithin n) : s.EndsWithin (n + 1) := by
  obtain ⟨-, -, -, hout⟩ := h.inv.flight h.flight
  obtain ⟨hp, -⟩ | ⟨-, hne⟩ := hout
  · obtain ⟨event, log, isOpen, m, hu⟩ := busFreeStep_latches hp he
    have hstep := step_of_noTurn h.noTurn
    rw [fairStep_pending h.noStall hp he, hu] at hstep
    exact (hlatched _ (h.stepped hstep rfl rfl h.flight) nofun rfl rfl).of_step hstep rfl rfl
  · exact absurd he hne

/-- The sequencer's step on a latched event completes the transfer, or issues the next of the chunks to come
(40_transfer_engine.md R125 to R127). -/
theorem State.LeftAlone.latched_cases {s : State} (h : s.LeftAlone) (he : s.busEvent ≠ none) :
    s.EndsWithin 1 ∨ ∃ u, step s = .next u ∧ u.LeftAlone ∧ u.busEvent = none ∧ u.xferOwner = s.xferOwner ∧
      u.cbLog = s.cbLog ∧ chunkCount (s.xferLen - s.xferDone) = chunkCount (u.xferLen - u.xferDone) + 1 := by
  have hstep := step_of_noTurn h.noTurn
  rw [fairStep_latched he] at hstep
  have hs := h.inv.sequenced
  generalize sequencerStep s = t at hs hstep
  cases hs with
  | none hnone => exact absurd hnone he
  | spurious _ hf => cases h.flight.symm.trans hf
  | success | failure => exact .inl (.of_complete hstep rfl rfl)
  | next _ _ hlt =>
    obtain ⟨-, -, hchunk, -⟩ := h.inv.flight h.flight
    have hlen := s.xferLen.isLt
    have hfull : s.xferChunk.toNat = 255 := by omega
    have hdone : (BitVec.ofNat 32 (s.xferDone.toNat + s.xferChunk.toNat)).toNat = s.xferDone.toNat + s.xferChunk.toNat := by
      rw [BitVec.toNat_ofNat]; omega
    exact .inr ⟨_, hstep, h.stepped hstep rfl rfl h.flight, rfl, rfl, rfl,
      chunkCount_remaining (hdone.trans_le hlt.le) (hdone.trans (by rw [hfull]))⟩

/-- With an event latched the transfer ends within one step for the chunk answered and two for each of the `n` to come after it:
by induction on `n`, since the answer to the next chunk latches an event again. -/
theorem State.LeftAlone.endsWithin_of_latched {n : Nat} {s : State} (h : s.LeftAlone) (he : s.busEvent ≠ none)
    (hn : chunkCount (s.xferLen - s.xferDone) = n + 1) : s.EndsWithin (2 * n + 1) := by
  induction n generalizing s with
  | zero =>
    obtain hend | ⟨u, -, hu, -, -, -, hcount⟩ := h.latched_cases he
    · exact hend
    · have := chunkCount_pos (hu.inv.flight hu.flight).1
      omega
  | succ n ih =>
    obtain hend | ⟨u, hstep, hu, hue, howner, hlog, hcount⟩ := h.latched_cases he
    · exact hend.mono (by omega)
    · have hpending : u.EndsWithin (2 * n + 2) := hu.endsWithin_of_pending hue fun v hv hve hlen hdone =>
        ih hv hve (by rw [hlen, hdone]; omega)
      exact hpending.of_step hstep howner hlog

/-- Settles O55: a latched event is handled by the next step, a pending chunk answered by it, and each chunk takes both. -/
theorem transferEndsWhenTheBusMayNotStall : Obligations.TransferEndsWhenTheBusMayNotStall := by
  intro s hi hstall hturns hf
  have h : s.LeftAlone := ⟨hi, hstall, hturns, hf⟩
  obtain ⟨n, hn⟩ := Nat.exists_eq_add_one.mpr (chunkCount_pos (hi.flight hf).1)
  rw [hn]
  change s.EndsWithin (2 * (n + 1))
  by_cases he : s.busEvent = none
  · exact h.endsWithin_of_pending he fun u hu hue hlen hdone => hu.endsWithin_of_latched hue (by rw [hlen, hdone, hn])
  · exact (h.endsWithin_of_latched he hn).mono (by omega)

/-! ### The steps of the transfer engine -/

/-- `BEGIN_TRANSFER` with nothing in flight (40_transfer_engine.md R121, R122). -/
theorem exec_beginTransfer_free {s : State} (hf : s.xferInFlight = false) (a : Byte) (b n : Word) :
    exec (.beginTransfer a b n) s = .next (beginTransfer s b n (deviceAddress a) .host).done := by
  simp [exec, execBeginTransfer, hf]

/-- Settles O48: the two cases of `beginTransfer` with nothing in flight, `RESULT` written after them. -/
theorem beginTransferStartsOrCompletes : Obligations.BeginTransferStartsOrCompletes := by
  intro s a b n hf
  refine ⟨fun hn => ?_, ?_⟩
  · rw [exec_beginTransfer_free hf, beginTransfer_starts hf _ _ _ _ hn]
    rfl
  · rw [exec_beginTransfer_free hf, beginTransfer_empty hf]
    rfl

/-- On `ChunkDone` with more to send the sequencer counts the chunk and issues the next (40_transfer_engine.md R125). -/
theorem sequencerStep_next {s : State} (he : s.busEvent = some .chunkDone) (hf : s.xferInFlight = true)
    (hpos : 0 < s.xferChunk.toNat) (hlt : s.xferDone.toNat + s.xferChunk.toNat < s.xferLen.toNat) :
    sequencerStep s = { s with
      busEvent := none, xferDone := BitVec.ofNat 32 (s.xferDone.toNat + s.xferChunk.toNat)
      xferChunk := (s.laterChunk (s.xferDone.toNat + s.xferChunk.toNat)).len
      busPending := some (s.laterChunk (s.xferDone.toNat + s.xferChunk.toNat))
      chunkLog := s.chunkLog ++ [s.laterChunk (s.xferDone.toNat + s.xferChunk.toNat)] } := by
  have hs := sequencerStep_sequenced s fun _ _ => ⟨hpos, hlt.le⟩
  generalize sequencerStep s = t at hs
  cases hs with
  | none h | failure h => cases he.symm.trans h
  | spurious _ h => cases hf.symm.trans h
  | next => rfl
  | success _ _ heq => omega

/-- On `ChunkDone` with nothing more to send the sequencer completes the transfer with success (40_transfer_engine.md R126). -/
theorem sequencerStep_success {s : State} (he : s.busEvent = some .chunkDone) (hf : s.xferInFlight = true)
    (hpos : 0 < s.xferChunk.toNat) (heq : s.xferDone.toNat + s.xferChunk.toNat = s.xferLen.toNat) :
    sequencerStep s = complete { s with busEvent := none, xferDone := s.xferLen, xferChunk := 0, xferInFlight := false }
      s.xferOwner true := by
  have hs := sequencerStep_sequenced s fun _ _ => ⟨hpos, heq.le⟩
  generalize sequencerStep s = t at hs
  cases hs with
  | none h | failure h => cases he.symm.trans h
  | spurious _ h => cases hf.symm.trans h
  | next _ _ hlt => omega
  | success => rfl

/-- On `XferError` the sequencer completes the transfer with failure (40_transfer_engine.md R127). -/
theorem sequencerStep_failure {s : State} (he : s.busEvent = some .xferError) (hf : s.xferInFlight = true) :
    sequencerStep s = complete { s with busEvent := none, xferChunk := 0, xferInFlight := false } s.xferOwner false := by
  rw [sequencerStep, he]
  exact if_pos hf

/-- With no event latched a turn of the sequencer changes nothing (log 7). -/
theorem sequencerStep_idle {s : State} (he : s.busEvent = none) : sequencerStep s = s := by
  rw [sequencerStep, he]

/-- With nothing in flight the sequencer only clears the event (40_transfer_engine.md R128). -/
theorem sequencerStep_ignores {s : State} (hf : s.xferInFlight = false) : sequencerStep s = { s with busEvent := none } := by
  cases he : s.busEvent with
  | none => rw [sequencerStep_idle he, ← he]
  | some event =>
    rw [sequencerStep, he]
    exact if_neg (by simp [hf])

/-- Settles O49: the next chunk, or the completion with success for each owner. -/
theorem chunkDoneStep : Obligations.ChunkDoneStep := by
  intro s he hf hchunk
  have hpos : 0 < s.xferChunk.toNat := Nat.pos_of_ne_zero fun h0 => hchunk (BitVec.eq_of_toNat_eq h0)
  refine ⟨sequencerStep_next he hf hpos, fun heq => ⟨fun howner => ?_, fun howner => ?_⟩⟩
  · rw [sequencerStep_success he hf hpos heq, howner]
    rfl
  · rw [sequencerStep_success he hf hpos heq, howner]
    rfl

/-- Settles O50: the completion with failure for each owner, and the two turns that find nothing to do. -/
theorem xferErrorStep : Obligations.XferErrorStep := by
  refine fun s => ⟨fun he hf => ⟨fun howner => ?_, fun howner => ?_⟩, sequencerStep_ignores, sequencerStep_idle⟩
  · rw [sequencerStep_failure he hf, howner]
    rfl
  · rw [sequencerStep_failure he hf, howner]
    rfl

end Sys2Proof.Machine
end

section
/-! Proofs of the statements about the bus (spec/41_bus_abstraction.md): the bus agent's answers to the outstanding chunk, the
two run-time display commands on the wire, and what the weakly fair agents do with an empty schedule. -/

namespace Sys2Proof.Machine

/-! ### The rendering of a chunk -/

/-- On I2C a chunk opens with `Start` or `Restart` (41_bus_abstraction.md R142). -/
theorem chunkHead_i2c {c : Config} (hb : c.bus = .i2c) (d : Chunk) :
    chunkHead c d = [if d.kind = .first then .start d.addr else .restart d.addr] := by
  rw [chunkHead, hb]
  cases d.kind <;> rfl

/-- On SPI nothing opens a chunk (41_bus_abstraction.md R143). -/
theorem chunkHead_spi {c : Config} (hb : c.bus = .spi) (d : Chunk) : chunkHead c d = [] := by
  rw [chunkHead, hb]

/-- On I2C the final chunk ends with `Stop` (41_bus_abstraction.md R142). -/
theorem chunkTail_i2c {c : Config} (hb : c.bus = .i2c) (d : Chunk) :
    chunkTail c d = if d.isFinal then [.stop] else [] := by
  rw [chunkTail, hb]

/-- On SPI nothing ends a chunk (41_bus_abstraction.md R143). -/
theorem chunkTail_spi {c : Config} (hb : c.bus = .spi) (d : Chunk) : chunkTail c d = [] := by
  rw [chunkTail, hb]

/-- The bytes of a chunk, each read now (41_bus_abstraction.md R144). -/
theorem chunkData_eq (s : State) (d : Chunk) (n : Nat) :
    chunkData s d n = (List.range n).map fun j => .data (Memory.read s.mem (d.src.toNat + j)) := by
  rw [chunkData, bytesAt, List.map_map]
  rfl

/-- On I2C the final chunk closes the transaction, and the first one opens it (41_bus_abstraction.md R144). -/
theorem openAfter_i2c {s : State} (hb : s.cfg.bus = .i2c) (d : Chunk) :
    openAfter s d = if d.isFinal then false else if d.kind = .first then true else s.busOpen := by
  rw [openAfter, hb]
  cases d.isFinal <;> cases d.kind <;> rfl

/-- On SPI there is no transaction, and `BUS.OPEN` stays (41_bus_abstraction.md R144). -/
theorem openAfter_spi {s : State} (hb : s.cfg.bus = .spi) (d : Chunk) : openAfter s d = s.busOpen := by
  rw [openAfter, hb]

/-! ### The bus agent's answers -/

theorem answerable_pending {s : State} {d : Chunk} (hp : s.busPending = some d) (he : s.busEvent = none) :
    answerable s = some d := by
  rw [answerable, he, hp]

theorem answerable_none {s : State} (h : s.busPending = none ∨ s.busEvent ≠ none) : answerable s = none := by
  rw [answerable]
  cases he : s.busEvent with
  | none => exact h.resolve_right fun hne => hne he
  | some => rfl

/-- The answer with success delivers a mapped chunk (41_bus_abstraction.md R144). -/
theorem busSuccessStep_delivers {s : State} {d : Chunk} (hp : s.busPending = some d) (he : s.busEvent = none)
    (hm : mapped s.cfg d.src.toNat d.len.toNat = true) : busSuccessStep s = deliverChunk s d := by
  rw [busSuccessStep, answerable_pending hp he]
  exact if_pos hm

/-- There is nothing to answer: no chunk is pending, or an event is latched already (log 7). -/
theorem busSuccessStep_idle {s : State} (h : s.busPending = none ∨ s.busEvent ≠ none) : busSuccessStep s = s := by
  rw [busSuccessStep, answerable_none h]

/-- A chunk that is not mapped cannot be delivered (41_bus_abstraction.md R147; log 7). -/
theorem busSuccessStep_unmapped {s : State} {d : Chunk} (hp : s.busPending = some d)
    (hm : mapped s.cfg d.src.toNat d.len.toNat = false) : busSuccessStep s = s := by
  by_cases he : s.busEvent = none
  · rw [busSuccessStep, answerable_pending hp he]
    exact if_neg (by simp [hm])
  · exact busSuccessStep_idle (.inr he)

/-- The answer with an error fails the pending chunk (41_bus_abstraction.md R145). -/
theorem busErrorStep_fails {s : State} {d : Chunk} (hp : s.busPending = some d) (he : s.busEvent = none) (k : Nat) :
    busErrorStep k s = failChunk s d k := by
  rw [busErrorStep, answerable_pending hp he]

/-- However many mapped bytes of the chunk are chosen, all get out before the error (41_bus_abstraction.md R145, R147; log 12). -/
theorem sentBeforeError_mapped {c : Config} {d : Chunk} {k : Nat} (hk : k ≤ d.len.toNat)
    (hm : mapped c d.src.toNat k = true) : sentBeforeError c d k = k :=
  Nat.min_eq_left ((mappedPrefix_iff hk).mp hm)

/-- Settles O51: the chunk is delivered as its transport renders it, or there is nothing that can be delivered. -/
theorem busDeliversAMappedChunk : Obligations.BusDeliversAMappedChunk := by
  intro s kind addr src len isFinal
  refine ⟨fun hp he hm => ⟨fun hb => ?_, fun hb => ?_⟩, busSuccessStep_unmapped, busSuccessStep_idle⟩
  · rw [busSuccessStep_delivers hp he hm, deliverChunk, chunkHead_i2c hb, chunkData_eq, chunkTail_i2c hb, openAfter_i2c hb]
  · rw [busSuccessStep_delivers hp he hm, deliverChunk, chunkHead_spi hb, chunkData_eq, chunkTail_spi hb, openAfter_spi hb,
      List.append_nil, List.append_nil]

/-- Settles O52: the chosen bytes are mapped and get out whole, after what opens the chunk on its transport. -/
theorem busFailsAChunk : Obligations.BusFailsAChunk := by
  intro s kind addr src len isFinal k hp he hk hm
  rw [busErrorStep_fails hp he, failChunk, sentBeforeError_mapped hk hm, chunkData_eq]
  cases hb : s.cfg.bus with
  | i2c => rw [chunkHead_i2c hb]
  | spi => rw [chunkHead_spi hb]

/-! ### The display commands -/

/-- On I2C a display command is one transaction after the control byte 0x00; the select line does not exist
(41_bus_abstraction.md R150). -/
theorem sendCommand_i2c {s : State} (hb : s.cfg.bus = .i2c) (dc : DisplayCommand) :
    sendCommand s dc = { s with
      cmdLog := s.cmdLog ++ [.cmd dc.opcode dc.param]
      busLog := s.busLog ++ ([.start s.cfg.devAddr, .data 0x00] ++ dc.bytes.map .data ++ [.stop]) } := by
  rw [sendCommand, commandWire, commandLevel, hb]

/-- On SPI the bytes of a display command go between two moves of the select line, which is left at `Data`
(41_bus_abstraction.md R151). -/
theorem sendCommand_spi {s : State} (hb : s.cfg.bus = .spi) (dc : DisplayCommand) :
    sendCommand s dc = { s with
      cmdLog := s.cmdLog ++ [.cmd dc.opcode dc.param]
      busLog := s.busLog ++ ([.dc .cmd] ++ dc.bytes.map .data ++ [.dc .data])
      busDC := .data } := by
  rw [sendCommand, commandWire, commandLevel, hb]

/-- `SET_DISPLAY_ON` with nothing in flight (46_session.md R239). -/
theorem exec_setDisplayOn_free {s : State} (hf : s.xferInFlight = false) (v : Byte) :
    exec (.setDisplayOn v) s = .next
      { sendCommand s (bare (if lowBit v then 0xAF else 0xAE)) with displayOn := lowBit v }.done :=
  congrArg _ (onCommandPath_free hf _)

/-- `SET_CONTRAST` with nothing in flight (46_session.md R240). -/
theorem exec_setContrast_free {s : State} (hf : s.xferInFlight = false) (v : Byte) :
    exec (.setContrast v) s = .next { sendCommand s (withParam 0x81 v) with contrast := v }.done :=
  congrArg _ (onCommandPath_free hf _)

/-- Settles O57: each command sends its one display command as its transport renders it, then writes its register. -/
theorem displayCommandsOnTheWire : Obligations.DisplayCommandsOnTheWire := by
  intro s v hf
  refine ⟨fun hb => ?_, fun hb => ?_⟩
  · rw [exec_setDisplayOn_free hf, exec_setContrast_free hf, sendCommand_i2c hb, sendCommand_i2c hb]
    exact ⟨rfl, rfl⟩
  · rw [exec_setDisplayOn_free hf, exec_setContrast_free hf, sendCommand_spi hb, sendCommand_spi hb]
    exact ⟨rfl, rfl⟩

/-! ### The empty schedule -/

/-- With a chunk pending on a bus that may stall the fair default waits (41_bus_abstraction.md R146; log 8). -/
theorem fairStep_stalled {s : State} {d : Chunk} (hs : s.cfg.busMayStall = true) (hp : s.busPending = some d)
    (he : s.busEvent = none) : fairStep s = s := by
  simp [fairStep, he, hp, hs]

/-- With no event and no chunk the fair default is the deferred start (46_session.md R245; log 8). -/
theorem fairStep_free {s : State} (hp : s.busPending = none) (he : s.busEvent = none) : fairStep s = deferredStart s := by
  rw [fairStep, he, hp]

theorem quiescent_iff (s : State) : s.quiescent = true ↔
    s.busPending = none ∧ s.busEvent = none ∧ (s.sstate ≠ .syncPending ∨ s.gate = false) := by
  simp [State.quiescent, and_assoc]

/-- In a quiescent machine no agent is enabled (70_reset_and_hazards.md R307). -/
theorem fairStep_quiescent {s : State} (h : s.quiescent = true) : fairStep s = s := by
  obtain ⟨hp, he, hwaits⟩ := (quiescent_iff s).mp h
  exact (fairStep_free hp he).trans (trySyncStart_waits hwaits)

/-- Settles O8: with no turn left a step is `fairStep`, which goes by the latched event and then by the pending chunk; the
machine after reset is quiescent. -/
theorem emptyScheduleIsFair : Obligations.EmptyScheduleIsFair := by
  refine ⟨fun s ht => ?_, fun cfg mem => (step_of_noTurn rfl).trans (congrArg _ (fairStep_quiescent rfl))⟩
  rw [step_of_noTurn ht]
  refine ⟨fun he => ?_, fun he hp hs => ?_, fun he hp hs => ?_, fun he hp => ?_, fun hq => ?_⟩
  · rw [fairStep_latched he]
  · obtain ⟨d, hd⟩ := Option.ne_none_iff_exists'.mp hp
    rw [fairStep_pending hs hd he]
  · obtain ⟨d, hd⟩ := Option.ne_none_iff_exists'.mp hp
    rw [fairStep_stalled hs hd he]
  · rw [fairStep_free hp he]
  · rw [fairStep_quiescent hq]

end Sys2Proof.Machine
end

section
/-! Proofs of the statements about the pixel and the framebuffer commands: the translation, `SetPixel`, `DRAW_PIXEL`, `FILL` and
`INVERT_RECTANGLE` (spec/42_framebuffer.md R161 to R167, R170, R171). -/

namespace Sys2Proof.Machine

/-! ### The translation -/

/-- With `MAPMODE = 0` a row is stored as itself (42_framebuffer.md R161). -/
theorem storedRow_direct {s : State} (h : s.mapMode = false) (y : Nat) : storedRow s y = y :=
  if_neg (ne_true_of_eq_false h)

/-- With `MAPMODE = 1` a row of the panel is stored as its entry of `ROWMAP_ALT` (42_framebuffer.md R162). -/
theorem storedRow_alternate {s : State} (h : s.mapMode = true) {y : Nat} (hy : y < s.cfg.h) :
    s.cfg.rowMapAlt[y]? = some (storedRow s y) := by
  obtain ⟨-, -, ⟨hlen, -⟩, -⟩ := cfg_valid s.cfg
  have hy' : y < s.cfg.rowMapAlt.length := by omega
  rw [storedRow, if_pos h, List.getD_eq_getElem _ _ hy', List.getElem?_eq_getElem hy']

/-- Settles O23: both mappings are `storedRow`, whose value is a row of the panel and which is injective on the rows. -/
theorem translationIsInjective : Obligations.TranslationIsInjective := by
  intro s x y x' y' hx hy hx' hy'
  refine ⟨fun hmap => ?_, fun hmap => ?_, pixelIndex_lt s hx hy, pixelBit_lt s y, pixel_injective s hx hy hx' hy'⟩
  · rw [pixelAddr, pixelIndex, pixelBit, storedRow_direct hmap]
    exact ⟨rfl, rfl⟩
  · exact ⟨storedRow s y, storedRow_alternate hmap hy, storedRow_lt s hy, rfl, rfl⟩

/-! ### One pixel -/

theorem inPanel_eq_false {c : Config} {x y : Int} (h : x < 0 ∨ (c.w : Int) ≤ x ∨ y < 0 ∨ (c.h : Int) ≤ y) :
    inPanel c x y = false :=
  decide_eq_false (by omega)

/-- Settles O26: `SetPixel` is one store in the panel, read back bit by bit, and nothing outside it. -/
theorem setPixelRoundTrip : Obligations.SetPixelRoundTrip := by
  intro s col hm
  refine ⟨fun x y hx hy => ⟨?_, ?_, fun x' y' hx' hy' hne => ?_⟩, fun x y hout => setPixel_outside col (inPanel_eq_false hout)⟩
  · rw [setPixel_inside s col hx hy]
    cases col <;> rfl
  · rw [setPixel_pixel hm col hx hy hx hy, if_pos ⟨rfl, rfl⟩]
  · rw [setPixel_pixel hm col hx hy hx' hy', if_neg (by simpa using hne)]

/-- `DRAW_PIXEL` is one `SetPixel` (42_framebuffer.md R164). -/
theorem exec_drawPixel {s : State} (hd : s.drawable) (x y : Byte) (col : Colour) :
    exec (.drawPixel x y col) s = .next (setPixel s (coord x) (coord y) col).done :=
  next_drawing hd _

/-- Settles O25: the one `SetPixel` paints its point in the panel and does nothing out of it. -/
theorem drawPixelPaintsOnePixel : Obligations.DrawPixelPaintsOnePixel := by
  intro s x y col hd hm
  refine ⟨⟨_, exec_drawPixel hd x y col, (setPixel_drawn hm _ _ col).painted⟩, fun hout => ?_⟩
  rw [exec_drawPixel hd, setPixel_outside col (inPanel_eq_false (by simp only [coord]; omega))]
  rfl

/-! ### Fill -/

/-- `FILL` writes the byte of its colour over the front instance (42_framebuffer.md R165). -/
theorem exec_fill {s : State} (hd : s.drawable) (col : Colour) :
    exec (.fill col) s = .next (fillBuffer s s.frontIndex (fillByte col)).done :=
  next_drawing hd _

/-- Settles O39: the fill is `fill_part` over the whole instance, and an instance has a byte. -/
theorem fillWritesEveryByte : Obligations.FillWritesEveryByte := by
  intro s col hd hm
  obtain ⟨-, hin, -, hrest⟩ := fill_part hm (fillByte col) s.cfg.fbBytes le_rfl
  refine ⟨_, exec_fill hd col, fun k hk => (hin k hk).trans ?_, (fillBuffer_touched s _).aside, ?_⟩
  · cases col <;> rfl
  · rw [decide_eq_true (fbBytes_pos s.cfg).ne', Bool.or_true] at hrest
    exact congrArg State.done hrest

/-! ### Invert -/

/-- `INVERT_RECTANGLE` with its corners in order and on the panel flips its box (42_framebuffer.md R166). -/
theorem exec_invertRectangle {s : State} (hd : s.drawable) {x1 y1 x2 y2 : Byte}
    (h : invertInBounds s.cfg x1 y1 x2 y2 = true) :
    exec (.invertRectangle x1 y1 x2 y2) s = .next (invertBox s x1 y1 x2 y2).done := by
  rw [exec, execInvertRectangle, next_drawing hd, if_pos h]

/-- With its corners out of order or off the panel it reports `ERR_BOUNDS` (42_framebuffer.md R166, 60_exceptions.md R267). -/
theorem exec_invertRectangle_bounds {s : State} (hd : s.drawable) {x1 y1 x2 y2 : Byte}
    (h : ¬ invertInBounds s.cfg x1 y1 x2 y2 = true) :
    exec (.invertRectangle x1 y1 x2 y2) s = .next (s.setResult 0 .errBounds) := by
  rw [exec, execInvertRectangle, next_drawing hd, if_neg h]

/-- Settles O36: the box is `invertBox_laws`, and what lies aside of the front instance is not touched. -/
theorem invertRectangleFlipsTheBox : Obligations.InvertRectangleFlipsTheBox := by
  intro s x1 y1 x2 y2 hd hm
  have hbounds := invertInBounds_iff s.cfg x1 y1 x2 y2
  refine ⟨fun hout => exec_invertRectangle_bounds hd fun h => hout (hbounds.mp h), fun hin => ?_⟩
  have h := hbounds.mpr hin
  obtain ⟨hpixels, hrest⟩ := invertBox_laws hm h
  exact ⟨_, exec_invertRectangle hd h, hpixels, (invertBox_touched s h).aside, congrArg State.done hrest⟩

/-! ### The page form of the invert -/

/-- Bit `j` of the byte of a page and a column is, under the direct mapping, the pixel of row `8 * page + j`
(42_framebuffer.md R161). -/
theorem pageByte_bit {s : State} (h : s.mapMode = false) (page x : Nat) {j : Nat} (hj : j < 8) :
    (Memory.read s.mem (s.frontBase + (page * s.cfg.w + x))).getLsbD j = s.pixel x (8 * page + j) := by
  have hpage : (8 * page + j) / 8 = page := by omega
  have hbit : (8 * page + j) % 8 = j := by omega
  rw [State.pixel, pixelAddr, pixelIndex, pixelBit, storedRow_direct h, hpage, hbit]

theorem fullMask_bit {j : Nat} (hj : j < 8) : (0xFF#8).getLsbD j = true :=
  (BitVec.getLsbD_allOnes (v := 8)).trans (decide_eq_true hj)

/-- The top mask has the bits from the row's on (42_framebuffer.md R167). -/
theorem topMask_bit (k : Nat) {j : Nat} (hj : j < 8) : (0xFF#8 <<< k).getLsbD j = decide (k ≤ j) := by
  rw [BitVec.getLsbD_shiftLeft, fullMask_bit (by omega), Bool.and_true, decide_eq_true hj, Bool.true_and, ← decide_not]
  exact decide_eq_decide.mpr Nat.not_lt

/-- The bottom mask has the bits up to the row's (42_framebuffer.md R167). -/
theorem bottomMask_bit {k : Nat} (hk : k < 8) (j : Nat) : (0xFF#8 >>> (7 - k)).getLsbD j = decide (j ≤ k) := by
  rw [BitVec.getLsbD_ushiftRight]
  refine (BitVec.getLsbD_allOnes (v := 8)).trans (decide_eq_decide.mpr ?_)
  omega

/-- The bits that the page form of the invert flips in the byte of a page and a column (42_framebuffer.md R167). -/
def pageMask (x1 y1 x2 y2 page x : Nat) : Byte :=
  if x < x1 ∨ x2 < x ∨ page < y1 / 8 ∨ y2 / 8 < page then 0
  else (if page = y1 / 8 then 0xFF#8 <<< (y1 % 8) else 0xFF#8) &&& (if page = y2 / 8 then 0xFF#8 >>> (7 - y2 % 8) else 0xFF#8)

/-- They are the rows of the page that lie in the box, in a column of the box. -/
theorem pageMask_bit (x1 y1 x2 y2 page x : Nat) {j : Nat} (hj : j < 8) : (pageMask x1 y1 x2 y2 page x).getLsbD j =
    decide (x1 ≤ x ∧ x ≤ x2 ∧ y1 ≤ 8 * page + j ∧ 8 * page + j ≤ y2) := by
  unfold pageMask
  split
  · exact BitVec.getLsbD_zero.trans (decide_eq_false (by omega)).symm
  · have htop : (if page = y1 / 8 then 0xFF#8 <<< (y1 % 8) else 0xFF#8).getLsbD j = decide (y1 ≤ 8 * page + j) := by
      split
      · exact (topMask_bit _ hj).trans (decide_eq_decide.mpr (by omega))
      · exact (fullMask_bit hj).trans (decide_eq_true (by omega)).symm
    have hbottom : (if page = y2 / 8 then 0xFF#8 >>> (7 - y2 % 8) else 0xFF#8).getLsbD j = decide (8 * page + j ≤ y2) := by
      split
      · exact (bottomMask_bit (Nat.mod_lt _ (by omega)) j).trans (decide_eq_decide.mpr (by omega))
      · exact (fullMask_bit hj).trans (decide_eq_true (by omega)).symm
    rw [BitVec.getLsbD_and, htop, hbottom, ← Bool.decide_and]
    exact decide_eq_decide.mpr (by omega)

/-- Settles O37: bit by bit the byte's pixels are flipped as `InvertRectangleFlipsTheBox` says. -/
theorem invertRectanglePageForm : Obligations.InvertRectanglePageForm := by
  intro s t x1 y1 x2 y2 hd hm hmap hx hy hx2 hy2 ht top bot page x hpage hxw
  obtain ⟨t', ht', hpixels, -, hrest⟩ := (invertRectangleFlipsTheBox s x1 y1 x2 y2 hd hm).2 ⟨hx, hy, hx2, hy2⟩
  obtain rfl : t' = t := Host.Outcome.next.inj (ht'.symm.trans ht)
  change _ = _ ^^^ pageMask x1.toNat y1.toNat x2.toNat y2.toNat page x
  refine BitVec.eq_of_getLsbD_eq fun j hj => ?_
  have hrow : 8 * page + j < s.cfg.h := by unfold Config.pages at hpage; omega
  have hmap' : t'.mapMode = false := by rw [hrest]; exact hmap
  have hbyte : t'.frontBase + (page * t'.cfg.w + x) = s.frontBase + (page * s.cfg.w + x) := by rw [hrest]; rfl
  rw [BitVec.getLsbD_xor, pageByte_bit hmap _ _ hj, pageMask_bit _ _ _ _ _ _ hj, ← hpixels x _ hxw hrow,
    ← pageByte_bit hmap' _ _ hj, hbyte]

/-! ### Inverting twice -/

/-- Drawing does not move the pixels in the memory. -/
theorem Touched.flipMask {s t : State} (h : Touched s t) (a : Nat) (l : List Point) : flipMask t a l = flipMask s a l := by
  rw [h.rest]
  rfl

/-- The points that an invert flips (42_framebuffer.md R166). -/
def invertPoints (x1 y1 x2 y2 : Byte) : List Point :=
  boxPoints (coord x1) (coord y1) (x2.toNat - x1.toNat + 1) (y2.toNat - y1.toNat + 1)

/-- The bytes after an invert (42_framebuffer.md R166). -/
theorem invertBox_read {s : State} (hm : Memory.wf s.mem = true) (x1 y1 x2 y2 : Byte) (a : Nat) :
    Memory.read (invertBox s x1 y1 x2 y2).mem a = Memory.read s.mem a ^^^ flipMask s a (invertPoints x1 y1 x2 y2) :=
  (invert_fold (s := s) (invertPoints x1 y1 x2 y2) s hm rfl).2.1 a

/-- An invert leaves the corners in bounds. -/
theorem invertInBounds_again {s : State} {x1 y1 x2 y2 : Byte} (h : invertInBounds s.cfg x1 y1 x2 y2 = true) :
    invertInBounds (invertBox s x1 y1 x2 y2).done.cfg x1 y1 x2 y2 = true := by
  rw [State.done_cfg, (invertBox_touched s h).cfg]
  exact h

/-- The same box flipped once more is as it was before (42_framebuffer.md R171). -/
theorem invertBox_again_mem {s : State} (hm : Memory.wf s.mem = true) {x1 y1 x2 y2 : Byte}
    (h : invertInBounds s.cfg x1 y1 x2 y2 = true) :
    (invertBox (invertBox s x1 y1 x2 y2).done x1 y1 x2 y2).mem = s.mem := by
  have ht := invertBox_touched s h
  have hmt : Memory.wf (invertBox s x1 y1 x2 y2).done.mem = true := ht.wf hm
  have hmu := (invertBox_touched _ (invertInBounds_again h)).wf hmt
  have hflip : ∀ a l, flipMask (invertBox s x1 y1 x2 y2).done a l = flipMask s a l := ht.flipMask
  refine Memory.ext_of_read hmu hm fun a => ?_
  rw [invertBox_read hmt, hflip, State.done_mem, invertBox_read hm, BitVec.xor_assoc, BitVec.xor_self, BitVec.xor_zero]

/-- Settles O38: refused or out of bounds, neither command writes a byte; else the second flips the bits of the first. -/
theorem invertTwiceRestores : Obligations.InvertTwiceRestores := by
  intro s x1 y1 x2 y2 hm
  by_cases hd : s.drawable
  · by_cases h : invertInBounds s.cfg x1 y1 x2 y2 = true
    · have hd' : (invertBox s x1 y1 x2 y2).done.drawable := (invertBox_touched s h).drawable hd
      exact ⟨_, _, exec_invertRectangle hd h, exec_invertRectangle hd' (invertInBounds_again h), invertBox_again_mem hm h⟩
    · exact ⟨_, _, exec_invertRectangle_bounds hd h, exec_invertRectangle_bounds (s := s.setResult 0 .errBounds) hd h, rfl⟩
  · have hrefused := fun t : State => (exec_drawing (.invertRectangle x1 y1 x2 y2) rfl t).1
    exact ⟨_, _, hrefused s hd, hrefused (raise .misuseDraw s) hd, rfl⟩

end Sys2Proof.Machine
end

section
/-! Proof of the statement about a list that can be read up to a point: what was written before it stays (spec/60_exceptions.md
R269). -/

namespace Sys2Proof.Machine

/-! ### Copying -/

/-- The body of a copy whose byte `j` is the first that cannot be read: it stops with the bytes before it copied
(60_exceptions.md R269). -/
theorem load_stops {s t : State} {src j n : Nat} (hj : j < n) (hrun : forCount j 0 (loadByte src) s = .ok () t)
    (hu : mapped t.cfg (src + j) 1 = false) : forCount n 0 (loadByte src) s = .memFault (src + j) t := by
  obtain ⟨m, rfl⟩ : ∃ m, n = j + (m + 1) := ⟨n - j - 1, by omega⟩
  rw [forCount_add j (m + 1), hrun]
  simp only [Flow.andThen, forCount, loadByte, Nat.zero_add, readMem_unmapped hu]

/-- `LOAD_BUFFER` at a byte that cannot be read (42_framebuffer.md R168, 60_exceptions.md R269). -/
theorem loadBuffer_memFault {s : State} (hd : s.drawable) (hm : Memory.wf s.mem = true) {src len : Word} {j : Nat}
    (hlen : len.toNat ≤ s.cfg.fbBytes) (hj : j < len.toNat) (hr : s.readable src.toNat j)
    (hu : mapped s.cfg (src.toNat + j) 1 = false) :
    ∃ t, exec (.loadBuffer src len) s = .next t ∧
      (∀ i, i < j → Memory.read t.mem (s.frontBase + i) =
        if s.frontBase ≤ src.toNat + i ∧ src.toNat + i < s.frontBase + i then Memory.read t.mem (src.toNat + i)
        else Memory.read s.mem (src.toNat + i)) ∧
      (∀ a, (a < s.frontBase ∨ s.frontBase + j ≤ a) → Memory.read t.mem a = Memory.read s.mem a) ∧
      t = { s with
        mem := t.mem, dirty := s.dirty || decide (j ≠ 0), result := 0x0007, faultBits := s.faultBits ||| 0x10 } := by
  obtain ⟨t, hrun, -, hcopy, hother, hrest⟩ := load_part hm src.toNat j (by omega) hr
  have hut : mapped t.cfg (src.toNat + j) 1 = false := by rw [hrest]; exact hu
  refine ⟨raise (.memFault (src.toNat + j)) t, ?_, hcopy, hother, ?_⟩
  · rw [exec_loadBuffer hd hlen, load_stops hj hrun hut]
    rfl
  · rw [hrest]
    exact raise_memFault _ _

/-! ### Polylines -/

/-- `DRAW_POLYLINE` at a vertex that cannot be read (43_graphics_shapes.md R187, 60_exceptions.md R269). -/
theorem drawPolyline_memFault {s : State} (hd : s.drawable) {verts count : Word} {col : Colour} {k : Nat}
    (hv : verts ≠ 0) (hk : k < count.toNat) (hr : s.readable verts.toNat (2 * k))
    (hu : ¬ s.readable (verts.toNat + 2 * k) 2) :
    exec (.drawPolyline verts count col) s =
      .next { (polyline verts.toNat col s (k - 1)).1.done with result := 0x0007, faultBits := s.faultBits ||| 0x10 } := by
  obtain ⟨a, ha⟩ := polyline_stops (col := col) hk hr hu
  rw [exec_drawPolyline hd col hv (by omega), ha]
  exact congrArg Host.Outcome.next ((polyline_touched _ _ _ _).raise_memFault a)

/-- The segments between the first `k` vertices of a list that lies aside (43_graphics_shapes.md R187). -/
theorem polyline_painted {s : State} (hm : Memory.wf s.mem = true) {p k : Nat} (col : Colour)
    (hr : s.readableAside p (2 * k)) :
    Painted s (polyline p col s (k - 1)).1.done (fun a b => ∃ i, i + 1 < k ∧
      (a, b) ∈ linePoints (vertexAt s p i).1 (vertexAt s p i).2 (vertexAt s p (i + 1)).1 (vertexAt s p (i + 1)).2) col := by
  cases k with
  | zero => exact ((Drawn.refl hm col).congr' fun a b => ⟨False.elim, fun ⟨i, hi, _⟩ => by omega⟩).painted
  | succ n =>
    simp only [Nat.add_lt_add_iff_right]
    exact (polyline_drawn hm n hr).2.painted

theorem not_readable_two {s : State} {a : Nat} (h : mapped s.cfg a 1 = false ∨ mapped s.cfg (a + 1) 1 = false) :
    ¬ s.readable a 2 := by
  intro hr
  rcases h with h | h
  · exact Bool.false_ne_true (h.symm.trans (hr 0 (by omega)))
  · exact Bool.false_ne_true (h.symm.trans (hr 1 (by omega)))

/-! ### Bitmaps -/

/-- Cells numbered row by row are ordered by row, and within a row by column. -/
theorem rowMajor_lt_iff {w i j c r : Nat} (hi : i < w) (hc : c < w) :
    j * w + i < r * w + c ↔ j < r ∨ (j = r ∧ i < c) := by
  rcases Nat.lt_trichotomy j r with h | rfl | h
  · have := Nat.mul_le_mul_right w (Nat.succ_le_of_lt h)
    rw [Nat.succ_mul] at this
    omega
  · omega
  · have := Nat.mul_le_mul_right w (Nat.succ_le_of_lt h)
    rw [Nat.succ_mul] at this
    omega

/-- The number of the first pixel that lies in byte `n` of a bitmap `w` columns wide (45_graphics_bitmap_text.md R215). -/
def firstPixelOf (w n : Nat) : Nat := n / ((w + 7) / 8) * w + n % ((w + 7) / 8) * 8

/-- A bitmap with a byte has a column. -/
theorem columns_pos_of_byte {w h n : Nat} (hn : n < h * ((w + 7) / 8)) : 0 < w :=
  Nat.pos_of_ne_zero (by rintro rfl; simp at hn)

/-- The first column of a byte is a column of the bitmap. -/
theorem firstColumn_lt {w : Nat} (hw : 0 < w) (n : Nat) : n % ((w + 7) / 8) * 8 < w := by
  have := Nat.mod_lt n (show 0 < (w + 7) / 8 by omega)
  omega

/-- The first pixel of a byte lies in that byte (45_graphics_bitmap_text.md R215). -/
theorem firstPixelOf_byte {w : Nat} (hw : 0 < w) (n : Nat) :
    firstPixelOf w n / w * ((w + 7) / 8) + firstPixelOf w n % w / 8 = n := by
  have hcol := firstColumn_lt hw n
  rw [firstPixelOf, Nat.mul_add_mod_of_lt hcol, Nat.mul_comm _ w, Nat.mul_add_div hw, Nat.div_eq_of_lt hcol, Nat.add_zero,
    Nat.mul_div_cancel _ (by omega), Nat.div_add_mod']

/-- The first pixel of a byte of the bitmap is a pixel of the bitmap. -/
theorem firstPixelOf_lt {w h n : Nat} (hn : n < h * ((w + 7) / 8)) : firstPixelOf w n < h * w := by
  have hw := columns_pos_of_byte hn
  have hrow : n / ((w + 7) / 8) < h := Nat.div_lt_of_lt_mul (by rwa [Nat.mul_comm])
  exact (rowMajor_lt_iff (c := 0) (firstColumn_lt hw n) hw).mpr (.inl hrow)

/-- A pixel comes before the first of byte `n` exactly when its own byte comes before byte `n`. -/
theorem lt_firstPixelOf_iff {w : Nat} (hw : 0 < w) (m n : Nat) :
    m < firstPixelOf w n ↔ m / w * ((w + 7) / 8) + m % w / 8 < n := by
  have hcol := Nat.mod_lt m hw
  have hbyte := Nat.mod_lt n (show 0 < (w + 7) / 8 by omega)
  have hpixels := rowMajor_lt_iff (j := m / w) (r := n / ((w + 7) / 8)) hcol (firstColumn_lt hw n)
  have hbytes := rowMajor_lt_iff (i := m % w / 8) (j := m / w) (r := n / ((w + 7) / 8)) (by omega) hbyte
  rw [Nat.div_add_mod'] at hpixels hbytes
  rw [firstPixelOf, hpixels, hbytes]
  omega

/-- `DRAW_BITMAP` at a byte that cannot be read: it stops at the first pixel of the byte (45_graphics_bitmap_text.md R215,
60_exceptions.md R269). -/
theorem drawBitmap_memFault {s : State} (hd : s.drawable) {x y w h : Byte} {bitmap : Word} {col : Colour} {n : Nat}
    (hn : n < h.toNat * ((w.toNat + 7) / 8)) (hr : s.readable bitmap.toNat n)
    (hu : mapped s.cfg (bitmap.toNat + n) 1 = false) :
    exec (.drawBitmap x y w h bitmap col) s =
      .next { (inTurn (blitNth (coord x) (coord y) w.toNat bitmap.toNat col) s (firstPixelOf w.toNat n)).done with
        result := 0x0007, faultBits := s.faultBits ||| 0x10 } := by
  have hw := columns_pos_of_byte hn
  have hbefore : ∀ m, m < firstPixelOf w.toNat n →
      mapped s.cfg (bitmap.toNat + m / w.toNat * ((w.toNat + 7) / 8) + m % w.toNat / 8) 1 = true := fun m hm => by
    rw [Nat.add_assoc]
    exact hr _ ((lt_firstPixelOf_iff hw m n).mp hm)
  have hstop : mapped s.cfg (bitmap.toNat + firstPixelOf w.toNat n / w.toNat * ((w.toNat + 7) / 8) +
      firstPixelOf w.toNat n % w.toNat / 8) 1 = false := by
    rw [Nat.add_assoc, firstPixelOf_byte hw]
    exact hu
  rw [exec_drawBitmap hd, blit_stops (firstPixelOf_lt hn) hbefore hstop]
  exact congrArg Host.Outcome.next ((blit_touched _ _ _ _ _ _ _).raise_memFault _)

/-- The pixels of the first `n` bytes of a bitmap that lies aside (45_graphics_bitmap_text.md R215). -/
theorem blit_painted {s : State} (hm : Memory.wf s.mem = true) {x y : Int} {w h p n : Nat} (col : Colour)
    (hn : n < h * ((w + 7) / 8)) (hr : s.readableAside p n) :
    Painted s (inTurn (blitNth x y w p col) s (firstPixelOf w n)).done (fun a b => ∃ i j : Nat, i < w ∧ j < h ∧
      j * ((w + 7) / 8) + i / 8 < n ∧ a = x + i ∧ b = y + j ∧ bitmapBit s p w i j = true) col := by
  have hw := columns_pos_of_byte hn
  have haside : ∀ m, m < firstPixelOf w n → ¬ s.inFront (p + m / w * ((w + 7) / 8) + m % w / 8) := fun m hlt => by
    rw [Nat.add_assoc]
    exact (hr _ ((lt_firstPixelOf_iff hw m n).mp hlt)).2
  refine ((blit_drawn hm _ haside).congr' fun a b => ?_).painted
  rw [← exists_pixelNumber (Q := fun i j => j * ((w + 7) / 8) + i / 8 < n ∧ a = x + i ∧ b = y + j ∧ bitmapBit s p w i j = true)]
  refine exists_congr fun m => ?_
  rw [← lt_firstPixelOf_iff hw]
  exact (and_iff_right_of_imp fun hpixel => hpixel.1.trans (firstPixelOf_lt hn)).symm

/-- Settles O41: each command stops where its list does (`loadBuffer_memFault`, `drawPolyline_memFault`, `drawBitmap_memFault`),
and what it has painted by then is what the list before that point says. -/
theorem memFaultKeepsTheWritesBeforeIt : Obligations.MemFaultKeepsTheWritesBeforeIt := by
  intro s hd hm
  refine ⟨fun src len j => loadBuffer_memFault hd hm, fun verts count col k hv hk hr hu => ?_,
    fun x y w h bitmap col n hn hr hu => ?_⟩
  · exact ⟨_, polyline_painted hm col hr, drawPolyline_memFault hd hv hk hr.readable (not_readable_two hu)⟩
  · exact ⟨_, blit_painted hm col hn hr, drawBitmap_memFault hd hn hr.readable hu⟩

end Sys2Proof.Machine
end

section
/-! Proofs of the statements about lines, circles and rectangles (spec/43_graphics_shapes.md R181 to R189): each command paints
the points of its walk, and the laws of the line and the circle walk. -/

namespace Sys2Proof.Machine

/-! ### Painting -/

/-- A command that plots points and ends has painted them (43_graphics_shapes.md R180). -/
theorem paints_of_plots {s : State} (hd : s.drawable) (hm : Memory.wf s.mem = true) {i : Instr} {points : List Point}
    {col : Colour} {P : Int → Int → Prop}
    (hexec : exec i s = .next (drawing s fun t => (plot t points col).done)) (hP : ∀ a b, (a, b) ∈ points ↔ P a b) :
    ∃ t, exec i s = .next t ∧ Painted s t P col :=
  ⟨_, hexec.trans (next_drawing hd _), ((plot_drawn hm points col).congr' hP).painted⟩

/-! ### Lines -/

/-- Settles O27: the command plots the points of its line. -/
theorem drawLinePaintsItsWalk : Obligations.DrawLinePaintsItsWalk := fun _ _ _ _ _ _ hd hm =>
  paints_of_plots hd hm rfl fun _ _ => Iff.rfl

/-- The line walk has the points of the line (43_graphics_shapes.md R181). -/
theorem mem_lineOrder {x1 y1 x2 y2 : Int} {p : Point} : p ∈ lineOrder x1 y1 x2 y2 ↔ p ∈ linePoints x1 y1 x2 y2 :=
  (lineOrder_perm x1 y1 x2 y2).mem_iff

/-- Settles O28: laws (1) to (3) are those of `lineOrder`, which reorders the plotted points, and law (4) is
`linePoints_reverse`; the rule's oblique line is run. -/
theorem lineLaws : Obligations.LineLaws := by
  refine ⟨fun x1 y1 x2 y2 => ?_, by decide, by decide⟩
  obtain ⟨hlength, hnodup, hstart, hsteps⟩ := lineOrder_laws x1 y1 x2 y2
  have hperm := lineOrder_perm x1 y1 x2 y2
  refine ⟨mem_lineOrder.mp (List.mem_of_getElem? hstart), List.mem_cons_self, hperm.length_eq ▸ hlength,
    hperm.nodup_iff.mp hnodup, hstart, chain_get hsteps, fun hstraight => linePoints_reverse ?_⟩
  simpa only [distance, Int.natCast_inj] using hstraight

/-! ### Circles -/

/-- The points of an outline: of each step the four symmetric ones (43_graphics_shapes.md R185). -/
theorem mem_circlePoints {xc yc a b : Int} {r : Nat} : (a, b) ∈ circlePoints xc yc r ↔
    ∃ p ∈ circleWalk r, (a = xc - p.1 ∨ a = xc + p.1) ∧ (b = yc + p.2 ∨ b = yc - p.2) := by
  simp only [circlePoints, List.mem_flatMap, outlinePoints, List.mem_cons, List.not_mem_nil, or_false, Prod.mk.injEq]
  refine exists_congr fun p => and_congr_right fun _ => ?_
  tauto

/-- The two spans of a step (43_graphics_shapes.md R186). -/
theorem mem_rowSpans {xc yc a b : Int} {p : Point} : (a, b) ∈ rowSpans xc yc p ↔
    xc + p.1 ≤ a ∧ a ≤ xc - p.1 ∧ (b = yc + p.2 ∨ b = yc - p.2) := by
  simp only [rowSpans, List.mem_flatMap, List.mem_range, List.mem_cons, List.not_mem_nil, or_false, Prod.mk.injEq]
  constructor
  · rintro ⟨i, hi, hab⟩
    omega
  · rintro ⟨hleft, hright, hb⟩
    exact ⟨(a - (xc + p.1)).toNat, by omega, by omega⟩

/-- The points of a disc: of each step the two spans (43_graphics_shapes.md R186). -/
theorem mem_discPoints {xc yc a b : Int} {r : Nat} : (a, b) ∈ discPoints xc yc r ↔
    ∃ p ∈ circleWalk r, xc + p.1 ≤ a ∧ a ≤ xc - p.1 ∧ (b = yc + p.2 ∨ b = yc - p.2) := by
  simp only [discPoints, List.mem_flatMap, mem_rowSpans]

/-- Settles O29: the two commands plot `circlePoints` and `discPoints`. -/
theorem circlesPaintTheirWalk : Obligations.CirclesPaintTheirWalk := fun _ _ _ _ _ hd hm =>
  ⟨paints_of_plots hd hm rfl fun _ _ => mem_circlePoints, paints_of_plots hd hm rfl fun _ _ => mem_discPoints⟩

/-- Settles O30: `circleWalkFrom_laws` at the start of the walk, where `2r` steps are left. -/
theorem circleWalkLaws : Obligations.CircleWalkLaws := by
  intro r
  have hbound : (r : Int) - (circleStart r).x - (circleStart r).y < (2 * r + 2 : Nat) := by
    simp only [circleStart]
    omega
  obtain ⟨hfirst, hlast, hquadrant, hsteps, hlonger⟩ := circleWalkFrom_laws (2 * r + 2) (circleStart_inv r) hbound
  exact ⟨hfirst, hlast, hquadrant, chain_get hsteps, hlonger⟩

/-! ### Rectangles -/

/-- The four lines of an outline are the border of the box of its corners (43_graphics_shapes.md R188). -/
theorem mem_rectanglePoints {x1 y1 x2 y2 a b : Int} : (a, b) ∈ rectanglePoints x1 y1 x2 y2 ↔
    (min x1 x2 ≤ a ∧ a ≤ max x1 x2 ∧ min y1 y2 ≤ b ∧ b ≤ max y1 y2) ∧ (a = x1 ∨ a = x2 ∨ b = y1 ∨ b = y2) := by
  simp only [rectanglePoints, List.mem_append, mem_lineX, mem_lineY]
  omega

/-- A filled box is the box of its corners, in any order (43_graphics_shapes.md R189). -/
theorem mem_filledBox {x1 y1 x2 y2 a b : Int} : (a, b) ∈ filledBox x1 y1 x2 y2 ↔
    min x1 x2 ≤ a ∧ a ≤ max x1 x2 ∧ min y1 y2 ≤ b ∧ b ≤ max y1 y2 := by
  simp only [filledBox, mem_boxPoints, distance]
  omega

/-- Settles O31: the two commands plot `rectanglePoints` and `filledBox`. -/
theorem rectanglesPaintBorderOrBox : Obligations.RectanglesPaintBorderOrBox := fun _ _ _ _ _ _ hd hm =>
  ⟨paints_of_plots hd hm rfl fun _ _ => mem_rectanglePoints, paints_of_plots hd hm rfl fun _ _ => mem_filledBox⟩

end Sys2Proof.Machine
end

section
/-! Proofs of the statements about trigonometry and arcs (spec/44_graphics_arc.md R200 to R209): `DRAW_ARC` paints its segments
and caps; the laws of the cosine table, of normalised angles, of arc points and of segment angles. -/

namespace Sys2Proof.Machine

/-! ### The points of an arc -/

@[simp] theorem lowHalf_toNat (p : Word) : (lowHalf p).toNat = p.toNat % 65536 := BitVec.toNat_setWidth ..

/-- The segments join the arc points at consecutive segment angles (44_graphics_arc.md R207, R208). -/
theorem mem_arcSegments {xc yc r : Int} {seg s0 sw : Nat} {p : Point} : p ∈ arcSegments xc yc r seg s0 sw ↔
    ∃ k, k < segmentCount seg sw ∧ p ∈ chord (arcPoint xc yc r (segmentAngle s0 sw (segmentCount seg sw) k))
      (arcPoint xc yc r (segmentAngle s0 sw (segmentCount seg sw) (k + 1))) := by
  simp only [arcSegments, List.mem_flatMap, List.mem_range]

/-- The caps join the centre to the first and to the last arc point (44_graphics_arc.md R209). -/
theorem mem_arcCaps {xc yc r : Int} {s0 sw : Nat} {p : Point} : p ∈ arcCaps xc yc r s0 sw ↔
    p ∈ chord (xc, yc) (arcPoint xc yc r s0) ∨ p ∈ chord (xc, yc) (arcPoint xc yc r (s0 + sw)) :=
  List.mem_append

/-- The points of `DRAW_ARC`: the segments, and with `cap` the caps (44_graphics_arc.md R208). -/
theorem mem_arcPoints {x y r seg : Byte} {start : Half} {sweep : Word} {cap : Bool} {p : Point} :
    p ∈ arcPoints x y r seg start sweep cap ↔
      p ∈ arcSegments (coord x) (coord y) (coord r) seg.toNat (norm360 start.toNat) (norm360 (sweep.toNat % 65536)) ∨
      (cap = true ∧ p ∈ arcCaps (coord x) (coord y) (coord r) (norm360 start.toNat) (norm360 (sweep.toNat % 65536))) := by
  cases cap <;> simp [arcPoints]

/-- Settles O32: the command plots `arcPoints`, the points of its segments and caps. -/
theorem drawArcPaintsSegmentsAndCaps : Obligations.DrawArcPaintsSegmentsAndCaps := fun _ _ _ _ _ _ _ _ _ hd hm =>
  paints_of_plots hd hm rfl fun _ _ =>
    mem_arcPoints.trans (or_congr mem_arcSegments (and_congr_right fun _ => mem_arcCaps))

/-! ### Sine and cosine -/

theorem cos5_bounds : ∀ v ∈ cos5, v.natAbs ≤ 1024 := by decide

/-- Every cosine is an entry of the table (44_graphics_arc.md R201). -/
theorem fxpCos_mem (t : Nat) : fxpCos t ∈ cos5 := by
  have hlt : t % 360 / 5 < cos5.length := by
    have hlength : cos5.length = 72 := rfl
    omega
  rw [fxpCos, List.getD_eq_getElem _ _ hlt]
  exact List.getElem_mem hlt

theorem fxpCos_bounds (t : Nat) : (fxpCos t).natAbs ≤ 1024 := cos5_bounds _ (fxpCos_mem t)

/-- The sine is the cosine a quarter turn earlier (44_graphics_arc.md R202). -/
theorem fxpSin_eq_fxpCos (t : Nat) : fxpSin t = fxpCos (t + 270) := rfl

theorem fxpCos_turns (n t : Nat) : fxpCos (360 * n + t) = fxpCos t := by
  rw [fxpCos, Nat.mul_add_mod, fxpCos]

theorem fxpSin_turns (n t : Nat) : fxpSin (360 * n + t) = fxpSin t := by
  rw [fxpSin_eq_fxpCos, Nat.add_assoc, fxpCos_turns, fxpSin_eq_fxpCos]

/-- The cosine uses the next lower multiple of 5 (44_graphics_arc.md R201). -/
theorem fxpCos_floor (t : Nat) : fxpCos t = fxpCos (t / 5 * 5) := by
  have hindex : t / 5 * 5 % 360 / 5 = t % 360 / 5 := by omega
  rw [fxpCos, fxpCos, hindex]

/-- So does the sine, as its shift is a multiple of 5 (44_graphics_arc.md R202). -/
theorem fxpSin_floor (t : Nat) : fxpSin t = fxpSin (t / 5 * 5) := by
  have hshift : (t + 270) / 5 * 5 = t / 5 * 5 + 270 := by omega
  rw [fxpSin_eq_fxpCos, fxpCos_floor, hshift, fxpSin_eq_fxpCos]

theorem fxpSin_add_90 (t : Nat) : fxpSin (t + 90) = fxpCos t := by
  have hturn : t + 90 + 270 = 360 * 1 + t := by omega
  rw [fxpSin_eq_fxpCos, hturn, fxpCos_turns]

/-! ### Angles and arc points -/

/-- A normalised angle is at most a full turn, 0 only from 0, and the same modulo 360 (44_graphics_arc.md R204). -/
theorem norm360_laws (a : Nat) : norm360 a ≤ 360 ∧ (norm360 a = 0 ↔ a = 0) ∧ norm360 a % 360 = a % 360 := by
  unfold norm360
  split_ifs with hzero hturn
  · subst hzero
    decide
  · exact ⟨le_rfl, iff_of_false (by decide) hzero, hturn.symm⟩
  · exact ⟨by omega, iff_of_false hturn hzero, Nat.mod_mod a 360⟩

/-- A length scaled by a table value over 1024 does not grow (44_graphics_arc.md R205). -/
theorem scaled_natAbs_le {r : Nat} {v : Int} (hv : v.natAbs ≤ 1024) : (Int.tdiv (r * v) 1024).natAbs ≤ r := by
  rw [Int.natAbs_tdiv, Int.natAbs_mul, Int.natAbs_natCast]
  refine Nat.div_le_of_le_mul ?_
  rw [Nat.mul_comm]
  exact Nat.mul_le_mul_right r hv

theorem arcPoint_within (xc yc : Int) (r t : Nat) :
    ((arcPoint xc yc r t).1 - xc).natAbs ≤ r ∧ ((arcPoint xc yc r t).2 - yc).natAbs ≤ r := by
  simp only [arcPoint, add_sub_cancel_left]
  exact ⟨scaled_natAbs_le (fxpCos_bounds (t + 270)), scaled_natAbs_le (fxpCos_bounds t)⟩

/-! ### Segments -/

theorem segmentCount_le {seg sw : Nat} (hseg : seg ≤ 255) (hsw : sw ≤ 360) : segmentCount seg sw ≤ 255 :=
  Nat.div_le_of_le_mul ((Nat.mul_le_mul hseg hsw).trans_eq (Nat.mul_comm 255 360))

theorem segmentAngle_first (s0 sw nseg : Nat) : segmentAngle s0 sw nseg 0 = s0 := by
  simp [segmentAngle]

theorem segmentAngle_last (s0 sw : Nat) {nseg : Nat} (hnseg : nseg ≠ 0) : segmentAngle s0 sw nseg nseg = s0 + sw := by
  rw [segmentAngle, Nat.mul_div_cancel_left sw (Nat.pos_of_ne_zero hnseg)]

theorem segmentAngle_mono (s0 sw nseg : Nat) {j k : Nat} (hjk : j ≤ k) :
    segmentAngle s0 sw nseg j ≤ segmentAngle s0 sw nseg k :=
  Nat.add_le_add_left (Nat.div_le_div_right (Nat.mul_le_mul_right sw hjk)) s0

/-- Settles O33: the table is checked entry by entry; every angle is reduced to the first turn, where the cardinal values are
read; the segment angles never fall and end at `s0 + sw`, so they stay within two turns. -/
theorem trigAndArcLaws : Obligations.TrigAndArcLaws := by
  refine ⟨⟨rfl, rfl, ?symmetric, ?antisymmetric⟩, fun t => ?trig, fun n => ?cardinal, norm360_laws, arcPoint_within,
    fun seg s0 sw hseg hs0 hsw => ⟨segmentCount_le hseg hsw, fun hcount =>
      ⟨segmentAngle_first .., segmentAngle_last s0 sw hcount, fun k hk =>
        ⟨segmentAngle_mono _ _ _ k.le_succ, ?within⟩⟩⟩⟩
  case symmetric =>
    have htable : ∀ k ≤ 71, 1 ≤ k → cos5[k]? = cos5[72 - k]? := by decide
    exact fun k hlow hhigh => htable k hhigh hlow
  case antisymmetric =>
    have htable : ∀ k < 36, cos5[k + 36]? = cos5[k]?.map (- ·) := by decide
    intro k hk
    have hlt : k < cos5.length := hk.trans (by decide)
    exact ⟨cos5[k], List.getElem?_eq_getElem hlt, by rw [htable k hk, List.getElem?_eq_getElem hlt, Option.map_some]⟩
  case trig =>
    have hbounds := fxpCos_bounds t
    exact ⟨by omega, by omega, fxpCos_floor t, fxpSin_floor t, fxpSin_add_90 t⟩
  case cardinal =>
    have hsin : fxpSin (360 * n) = fxpSin 0 := fxpSin_turns n 0
    have hcos : fxpCos (360 * n) = fxpCos 0 := fxpCos_turns n 0
    simp only [hsin, hcos, fxpSin_turns, fxpCos_turns]
    decide
  case within =>
    calc segmentAngle s0 sw (segmentCount seg sw) (k + 1)
        ≤ segmentAngle s0 sw (segmentCount seg sw) (segmentCount seg sw) := segmentAngle_mono _ _ _ hk
      _ = s0 + sw := segmentAngle_last s0 sw hcount
      _ ≤ 720 := by omega

end Sys2Proof.Machine
end

section
/-! Proofs of the statements about text (spec/45_graphics_bitmap_text.md R217 to R223) and about the status a command ends with
(spec/60_exceptions.md R261, R263). -/

namespace Sys2Proof.Machine

/-! ### How `WRITE_CHAR` ends -/

/-- A status is told by its code (60_exceptions.md R261). -/
theorem Status.code_injective : Function.Injective Status.code :=
  Function.LeftInverse.injective (g := fun code => Status.ofNat code.toNat) fun st => by cases st <;> rfl

/-- `WRITE_CHAR` runs `PutChar`, drawn or not (45_graphics_bitmap_text.md R221). -/
theorem exec_writeChar {s : State} (hd : s.drawable) (ch : Byte) (col : Colour) :
    exec (.writeChar ch col) s = .next ((putChar ch col s).close fun drawn u =>
      if drawn then u.setResult ch .ok else u.setResult 0 .errReject) :=
  next_drawing hd _

/-- How `WRITE_CHAR` ends, by what `PutChar` did: the state and the status (45_graphics_bitmap_text.md R221). -/
inductive CharEnd (ch : Byte) (col : Colour) (s : State) : State → Status → Prop
  | drawn {w : State} (h : putChar ch col s = .ok true w) : CharEnd ch col s (w.setResult ch .ok) .ok
  | rejected (h : putChar ch col s = .ok false s) : CharEnd ch col s (s.setResult 0 .errReject) .errReject
  | stopped {a : Nat} {w : State} (h : putChar ch col s = .memFault a w) : CharEnd ch col s (raise (.memFault a) w) .errMem

/-- The status in `RESULT` tells which end it was. -/
theorem charEnd_of_exec {s u : State} {ch : Byte} {col : Colour} {st : Status} (hd : s.drawable)
    (hx : exec (.writeChar ch col) s = .next u) (hst : u.result.setWidth 8 = st.code) : CharEnd ch col s u st := by
  rw [exec_writeChar hd] at hx
  cases hx
  cases hput : putChar ch col s with
  | memFault a w =>
    rw [hput] at hst
    cases Status.code_injective ((Status.code_setWidth 0 .errMem).symm.trans hst)
    exact .stopped hput
  | ok drawn w =>
    rw [hput] at hst
    cases drawn with
    | true =>
      cases Status.code_injective ((Status.code_setWidth ch .ok).symm.trans hst)
      exact .drawn hput
    | false =>
      cases Status.code_injective ((Status.code_setWidth 0 .errReject).symm.trans hst)
      cases putChar_rejected hput
      exact .rejected hput

/-- A character that is not drawn writes `RESULT` alone (45_graphics_bitmap_text.md R221, R223 (1)). -/
theorem exec_writeChar_rejected {s : State} (hd : s.drawable) {ch : Byte} {col : Colour}
    (h : putChar ch col s = .ok false s) : exec (.writeChar ch col) s = .next { s with result := 0x0002 } := by
  rw [exec_writeChar hd, h]
  rfl

/-- Only printable ASCII is drawn (45_graphics_bitmap_text.md R221). -/
theorem putChar_unprintable {ch : Byte} (h : ch.toNat < 32 ∨ 126 < ch.toNat) (col : Colour) (s : State) :
    putChar ch col s = .ok false s := by
  have hprint : ¬ printable ch = true := fun hp => by
    have := of_decide_eq_true hp
    omega
  rw [putChar, if_neg hprint]

/-- A printable character reads its width first (45_graphics_bitmap_text.md R220, R221). -/
theorem putChar_printable {ch : Byte} (hlo : 32 ≤ ch.toNat) (hhi : ch.toNat ≤ 126) (col : Colour) (s : State) :
    putChar ch col s = (glyphWidth (ch.toNat - 32) s).andThen fun gw t =>
      if overflows t gw then .ok false t
      else (forCount t.cfg.fontH 0
        (glyphRow (t.cursorX.toNat : Int) (t.cursorY.toNat : Int) (ch.toNat - 32) gw col) t).andThen
          fun _ u => .ok true (advance u gw) :=
  if_pos (decide_eq_true ⟨hlo, hhi⟩)

/-- A width in the table that cannot be read (45_graphics_bitmap_text.md R220). -/
theorem glyphWidth_unmapped {s : State} {g : Nat} (hw : s.cfg.fontWidths ≠ 0)
    (hu : mapped s.cfg (s.cfg.fontWidths.toNat + g) 1 = false) :
    glyphWidth g s = .memFault (s.cfg.fontWidths.toNat + g) s := by
  rw [glyphWidth, if_neg hw, readMem_unmapped hu]

/-- The overflow check is that of the cell (45_graphics_bitmap_text.md R221). -/
theorem overflows_iff (s : State) (gw : Nat) : overflows s gw = true ↔ ¬ s.cellFits gw := by
  simp only [overflows, State.cellFits, decide_eq_true_eq]
  omega

/-- A cell that crosses an edge is not drawn (45_graphics_bitmap_text.md R221). -/
theorem putChar_overflows {s : State} {ch : Byte} {gw : Nat} (hlo : 32 ≤ ch.toNat) (hhi : ch.toNat ≤ 126) (col : Colour)
    (hg : s.glyphWidthIs ch gw) (hfit : ¬ s.cellFits gw) : putChar ch col s = .ok false s := by
  rw [putChar_printable hlo hhi, glyphWidth_is hg, Flow.andThen, if_pos ((overflows_iff s gw).mpr hfit)]

/-- A counted loop that stops at its part `n` (60_exceptions.md R269). -/
theorem forCount_stops_after {body : Nat → State → Flow Unit} {n count a : Nat} {s u : State} (hn : n < count)
    (hrun : forCount n 0 body s = .ok () u) (hstop : body n u = .memFault a u) : forCount count 0 body s = .memFault a u := by
  obtain ⟨m, rfl⟩ : ∃ m, count = n + (m + 1) := ⟨count - n - 1, by omega⟩
  rw [forCount_add, hrun]
  simp only [Flow.andThen, forCount, Nat.zero_add, hstop]

/-- `WRITE_CHAR` of a glyph whose row `n` cannot be read stops with the rows before it drawn (45_graphics_bitmap_text.md R221,
60_exceptions.md R269). -/
theorem exec_writeChar_stops {s u : State} (hd : s.drawable) {ch : Byte} {col : Colour} {gw n : Nat} (hlo : 32 ≤ ch.toNat)
    (hhi : ch.toNat ≤ 126) (hg : s.glyphWidthIs ch gw) (hfit : s.cellFits gw) (hn : n < s.cfg.fontH)
    (hrun : forCount n 0 (glyphRow s.cursorX.toNat s.cursorY.toNat (ch.toNat - 32) gw col) s = .ok () u)
    (hcfg : u.cfg = s.cfg) (hu : mapped s.cfg (glyphRowAddr s.cfg (ch.toNat - 32) n) 2 = false) :
    exec (.writeChar ch col) s = .next { u with result := 0x0007, faultBits := u.faultBits ||| 0x10 } := by
  rw [← hcfg] at hu
  rw [exec_writeChar_fits hd hlo hhi hg hfit, forCount_stops_after hn hrun (glyphRow_unmapped hu), Flow.close, raise_memFault]

/-- Settles O43: the two ways to be rejected leave the state of `PutChar`, the width stops it before the cell, and the rows
before one that cannot be read tint the upper part of the cell. -/
theorem writeCharRejects : Obligations.WriteCharRejects := by
  intro s ch col hd
  refine ⟨fun h => exec_writeChar_rejected hd (putChar_unprintable h col s), fun hlo hhi =>
    ⟨fun gw hg hfit => exec_writeChar_rejected hd (putChar_overflows hlo hhi col hg hfit), fun hw hu => ?width,
      fun gw hg hfit hu => ?firstRow, fun gw n hm hg hfit hn hr hu => ?laterRow⟩⟩
  case width =>
    rw [exec_writeChar hd, putChar_printable hlo hhi, glyphWidth_unmapped hw hu, Flow.andThen, Flow.close, raise_memFault]
  case firstRow =>
    obtain ⟨-, -, -, -, ⟨hpos, -⟩, -⟩ := cfg_valid s.cfg
    exact exec_writeChar_stops hd hlo hhi hg hfit hpos rfl rfl hu
  case laterRow =>
    obtain ⟨u, hrun, ht⟩ := glyphRows_tinted (col := col) (cx := s.cursorX.toNat) (cy := s.cursorY.toNat) (gw := gw) hm hr
    obtain ⟨hin, hout, hdirty⟩ := Tinted.cell ht hfit hn.le
    refine ⟨_, exec_writeChar_stops hd hlo hhi hg hfit hn hrun (by rw [ht.rest]) hu, hin, hout, ht.aside, hdirty, ?_⟩
    rw [ht.rest]

/-! ### One character of `WRITE_STRING` -/

/-- `WRITE_STRING` puts the characters from its address to the end of the address space (45_graphics_bitmap_text.md R222). -/
theorem exec_writeString {s : State} (hd : s.drawable) (p : Word) (col : Colour) :
    exec (.writeString p col) s = .next ((putString col (memSize - p.toNat) p.toNat s).close fun report u =>
      u.setResult report.1 report.2) :=
  next_drawing hd _

/-- At a byte that is not the terminator the string puts the character, and goes on if it was drawn
(45_graphics_bitmap_text.md R222). -/
theorem putString_character {s : State} {addr : Nat} (col : Colour) (left : Nat) (hm : mapped s.cfg addr 1 = true)
    (h0 : Memory.read s.mem addr ≠ 0) :
    putString col (left + 1) addr s = (putChar (Memory.read s.mem addr) col s).andThen fun drawn u =>
      if drawn then putString col left (addr + 1) u else .ok (Memory.read s.mem addr, .errReject) u := by
  have hne : (Memory.read s.mem addr).toNat ≠ 0 := fun h => h0 (BitVec.eq_of_toNat_eq h)
  simp only [putString, readMem_byte hm, Flow.andThen, if_neg hne, BitVec.ofNat_toNat, BitVec.setWidth_eq]

/-- From an address to the end of the address space there is one address at least (20_memory.md R60). -/
theorem memSize_sub (p : Word) : memSize - p.toNat = memSize - (p.toNat + 1) + 1 := by
  have := p.isLt
  unfold memSize
  omega

/-- `WRITE_STRING` writes both halves of `RESULT` at its end, over what stood there (45_graphics_bitmap_text.md R222). -/
theorem close_setResult (v : Byte) (st : Status) (f : Flow (Byte × Status)) :
    ((f.mapState (·.setResult v st)).close fun report u => u.setResult report.1 report.2) =
      f.close fun report u => u.setResult report.1 report.2 := by
  cases f <;> rfl

/-- Below the last address the next one is computed without wrap (45_graphics_bitmap_text.md R222). -/
theorem toNat_next {p : Word} (h : p ≠ 0xFFFFFFFF) : (p + 1).toNat = p.toNat + 1 := by
  bv_omega

/-- A drawing command does not change whether drawing is refused. -/
theorem drawable_of_exec {i : Instr} {s u : State} (hi : i.isDrawing = true) (hd : s.drawable) (hx : exec i s = .next u) :
    u.drawable := by
  obtain ⟨w, hw, huw, -⟩ := exec_drawing_touched hi hx
  rw [huw]
  exact hw.drawable hd

section
variable {s u : State} {p : Word} {col : Colour} (hd : s.drawable)
include hd

/-- A string whose first byte cannot be read (45_graphics_bitmap_text.md R222). -/
theorem writeString_unmapped (hu : mapped s.cfg p.toNat 1 = false) :
    exec (.writeString p col) s = .next { s with result := 0x0007, faultBits := s.faultBits ||| 0x10 } := by
  rw [exec_writeString hd, memSize_sub, putString, readMem_unmapped hu, Flow.andThen, Flow.close, raise_memFault]

variable (hm : mapped s.cfg p.toNat 1 = true)
include hm

/-- The terminator ends the string (45_graphics_bitmap_text.md R222). -/
theorem writeString_terminator (h0 : Memory.read s.mem p.toNat = 0) :
    exec (.writeString p col) s = .next { s with result := 0 } := by
  rw [exec_writeString hd, memSize_sub, putString, readMem_byte hm, h0]
  rfl

variable (h0 : Memory.read s.mem p.toNat ≠ 0) (hx : exec (.writeChar (Memory.read s.mem p.toNat) col) s = .next u)
include h0 hx

/-- A character that `WRITE_CHAR` refuses ends the string, which reports it (45_graphics_bitmap_text.md R222). -/
theorem writeString_refused (hst : u.result.setWidth 8 = Status.errReject.code) :
    exec (.writeString p col) s = .next { u with result := Memory.read s.mem p.toNat ++ 0x02#8 } := by
  cases charEnd_of_exec hd hx hst with
  | rejected hput =>
    rw [exec_writeString hd, memSize_sub, putString_character col _ hm h0, hput]
    rfl

/-- A character stopped by a `MemFault` stops the string (45_graphics_bitmap_text.md R222). -/
theorem writeString_stopped (hst : u.result.setWidth 8 = Status.errMem.code) :
    exec (.writeString p col) s = .next u := by
  cases charEnd_of_exec hd hx hst with
  | stopped hput =>
    rw [exec_writeString hd, memSize_sub, putString_character col _ hm h0, hput]
    rfl

/-- A character drawn: the string goes on at the next address, in the state that `WRITE_CHAR` left but for its `RESULT`
(45_graphics_bitmap_text.md R222). -/
theorem writeString_drawn (hst : u.result.setWidth 8 = Status.ok.code) :
    exec (.writeString p col) s = .next ((putString col (memSize - (p.toNat + 1)) (p.toNat + 1) u).close fun report t =>
      t.setResult report.1 report.2) := by
  cases charEnd_of_exec hd hx hst with
  | @drawn w hput =>
    rw [exec_writeString hd, memSize_sub, putString_character col _ hm h0, hput, putString_setResult]
    exact congrArg Host.Outcome.next (close_setResult _ _ _).symm

/-- A character drawn below the last address: the rest of the string is a string (45_graphics_bitmap_text.md R222). -/
theorem writeString_goesOn (hst : u.result.setWidth 8 = Status.ok.code) (hlast : p ≠ 0xFFFFFFFF) :
    exec (.writeString p col) s = exec (.writeString (p + 1) col) u := by
  rw [writeString_drawn hd hm h0 hx hst, exec_writeString (drawable_of_exec rfl hd hx), toNat_next hlast]

/-- A character drawn at the last address: past it there is nothing to read (45_graphics_bitmap_text.md R222). -/
theorem writeString_passesTheEnd (hst : u.result.setWidth 8 = Status.ok.code) (hlast : p = 0xFFFFFFFF) :
    exec (.writeString p col) s = .next { u with result := 0x0007, faultBits := u.faultBits ||| 0x10 } := by
  have hleft : memSize - (p.toNat + 1) = 0 := by rw [hlast]; rfl
  rw [writeString_drawn hd hm h0 hx hst, hleft, putString, Flow.close, raise_memFault]

end

/-- Settles O45: the first byte is unmapped, the terminator, or a character, which `WRITE_CHAR` ends in one of three ways. -/
theorem writeStringGoesByCharacters : Obligations.WriteStringGoesByCharacters := fun _ _ _ hd =>
  ⟨writeString_unmapped hd, fun hm => ⟨writeString_terminator hd hm, fun h0 _ hx =>
    ⟨writeString_refused hd hm h0 hx, writeString_stopped hd hm h0 hx, writeString_goesOn hd hm h0 hx,
      writeString_passesTheEnd hd hm h0 hx⟩⟩⟩

/-! ### A whole string -/

/-- A string that lies aside of the front instance without its first byte. -/
theorem State.readableAside.tail {s : State} {a n : Nat} (h : s.readableAside a (n + 1)) : s.readableAside (a + 1) n :=
  fun k hk => by
    rw [Nat.add_right_comm, Nat.add_assoc]
    exact h (k + 1) (Nat.succ_lt_succ hk)

/-- Drawing a character leaves a string that lies aside as it stood, and aside (45_graphics_bitmap_text.md R223 (4)). -/
theorem string_after_character {s u : State} {ch : Byte} {col : Colour} (hx : exec (.writeChar ch col) s = .next u)
    {a n : Nat} (hr : s.readableAside a n) :
    u.readableAside a n ∧ ∀ k, k < n → Memory.read u.mem (a + k) = Memory.read s.mem (a + k) := by
  obtain ⟨w, hw, huw, -⟩ := exec_drawing_touched rfl hx
  refine ⟨fun k hk => ?_, fun k hk => ?_⟩
  · obtain ⟨hmapped, haside⟩ := hr k hk
    rw [huw]
    exact ⟨by rw [hw.cfg]; exact hmapped, fun hf => haside ((hw.inFront _).mp hf)⟩
  · rw [huw]
    exact hw.aside _ (hr k hk).2

/-- Settles O46: by induction on the characters, each drawn by `writeString_goesOn`, which leaves the rest of the string as it
stood. -/
theorem writeStringIsItsCharacters : Obligations.WriteStringIsItsCharacters := by
  intro s t p col chars hd hr hchars hdraws
  induction chars generalizing s p with
  | nil =>
    obtain rfl : t = s := hdraws
    have hm : mapped t.cfg p.toNat 1 = true := (hr 0 Nat.one_pos).1
    refine ⟨writeString_terminator hd hm, fun ch u h0 hread hx hst => ?_⟩
    obtain rfl : Memory.read t.mem p.toNat = ch := hread
    exact writeString_refused hd hm h0 hx hst
  | cons c rest ih =>
    obtain ⟨u, hx, hok, hrest⟩ := hdraws
    obtain ⟨h0, rfl⟩ : c ≠ 0 ∧ Memory.read s.mem p.toNat = c := hchars 0 c rfl
    have hlast : p ≠ 0xFFFFFFFF := by
      rintro rfl
      exact absurd (mapped_below (hr 1 (by simp)).1) (by decide)
    have hnext := toNat_next hlast
    have hgoesOn := writeString_goesOn hd (hr 0 (by simp)).1 h0 hx hok hlast
    obtain ⟨hru, hsame⟩ := string_after_character hx hr
    have hread : ∀ k, k < rest.length + 1 → Memory.read u.mem ((p + 1).toNat + k) = Memory.read s.mem (p.toNat + (k + 1)) :=
      fun k hk => by
        rw [hnext, Nat.add_assoc, Nat.add_comm 1 k]
        exact hsame (k + 1) (Nat.succ_lt_succ hk)
    rw [hgoesOn, List.length_cons, ← hread rest.length (Nat.lt_succ_self _)]
    refine ih u (p + 1) (drawable_of_exec rfl hd hx) (by rw [hnext]; exact hru.tail) (fun i ch hi => ?_) hrest
    obtain ⟨hlt, -⟩ := List.getElem?_eq_some_iff.mp hi
    rw [hread i (Nat.lt_succ_of_lt hlt)]
    exact hchars (i + 1) ch hi

/-! ### The status of every command -/

/-- The fault bit that a status sets, by the class of the command (60_exceptions.md R261, R263). -/
def faultOf (i : Instr) (st : Status) : Byte :=
  if st = .errMisuse then (if i.isBeginTransfer then 0x01 else if i.isDrawing then 0x02 else 0x04)
  else if st = .errMem then 0x10
  else 0

/-- A command has ended with this value byte and status, which its row of the table allows (60_exceptions.md R261, R263). -/
structure EndsBy (i : Instr) (s t : State) (v : Byte) (st : Status) : Prop where
  allowed : mayReturn i st = true
  result : t.result = v ++ st.code
  fault : t.faultBits = s.faultBits ||| faultOf i st
  drawn : ∀ ch col, i = .writeChar ch col → st = .ok → v = ch
  value : v ≠ 0 → (i.isWriteChar = true ∧ st = .ok) ∨ (i.isWriteString = true ∧ st = .errReject)

/-- A command refused for misuse, with the bit of its class. -/
theorem EndsBy.misuse {i : Instr} {c : Cause} (s : State) (hc : c.status = .errMisuse)
    (hi : mayReturn i .errMisuse = true) (hbit : c.bit = faultOf i .errMisuse) : EndsBy i s (raise c s) 0 .errMisuse where
  allowed := hi
  result := congrArg (fun st : Status => 0#8 ++ st.code) hc
  fault := by rw [raise_faultBits, hbit]
  drawn := fun _ _ _ h => by cases h
  value := fun h => absurd rfl h

/-- A command other than `WRITE_CHAR` that ends without a fault and without a value. -/
theorem EndsBy.plain {i : Instr} {s t : State} {st : Status} (hw : i.isWriteChar = false) (hi : mayReturn i st = true)
    (ht : t.result = 0#8 ++ st.code) (hf : t.faultBits = s.faultBits) (hst : faultOf i st = 0 := by rfl) :
    EndsBy i s t 0 st where
  allowed := hi
  result := ht
  fault := by rw [hst, hf]; exact BitVec.or_zero.symm
  drawn := fun ch col h => by subst h; cases hw
  value := fun h => absurd rfl h

/-- A drawing command starts no transfer (42_framebuffer.md R160). -/
theorem isBeginTransfer_of_drawing {i : Instr} (h : i.isDrawing = true) : i.isBeginTransfer = false := by
  cases i with
  | beginTransfer => cases h
  | _ => rfl

/-- The commands of the command path neither start a transfer nor draw (41_bus_abstraction.md R149). -/
theorem notDrawing_of_commandPath {i : Instr} (h : i.usesCommandPath = true) :
    i.isBeginTransfer = false ∧ i.isDrawing = false := by
  cases i with
  | init | setDisplayOn | setContrast => exact ⟨rfl, rfl⟩
  | _ => cases h

/-- A drawing body ends by the table (60_exceptions.md R261, R269). -/
theorem Ended.endsBy {i : Instr} {s t : State} (h : Ended i s t) : ∃ v st, EndsBy i s t v st := by
  cases h with
  | @status u v st ht hr hm he hc hok hv hp =>
    have hfault : faultOf i st = 0 := by rw [faultOf, if_neg hm, if_neg he]
    exact ⟨v, st, hr, rfl, by rw [hfault]; exact ht.faultBits.trans BitVec.or_zero.symm, hok, hv⟩
  | @memFault u a ht hr hc =>
    exact ⟨0, .errMem, hr, rfl, congrArg (· ||| 0x10#8) ht.faultBits, fun _ _ _ hst => Status.noConfusion hst,
      fun h => absurd rfl h⟩

/-- Every command ends by the table (60_exceptions.md R261, R263). -/
theorem Ran.endsBy {i : Instr} {s t : State} (h : Ran i s t) : ∃ v st, EndsBy i s t v st := by
  cases h with
  | ended _ _ h => exact h.endsBy
  | misuseDraw hi =>
    have hb := isBeginTransfer_of_drawing hi
    exact ⟨0, .errMisuse, .misuse s rfl (by simp [mayReturn, hi]) (by simp [faultOf, hb, hi, Cause.bit])⟩
  | misuseBus hi =>
    obtain ⟨hb, hdraw⟩ := notDrawing_of_commandPath hi
    exact ⟨0, .errMisuse, .misuse s rfl (by simp [mayReturn, hi]) (by simp [faultOf, hb, hdraw, Cause.bit])⟩
  | misuseXfer _ _ _ hi =>
    subst hi
    exact ⟨0, .errMisuse, .misuse s rfl rfl rfl⟩
  | init _ hi | displayOn _ hi | contrast _ hi | started _ _ _ hi | empty _ _ hi | cursor _ _ hi | syncs hi | waits hi =>
    subst hi
    exact ⟨0, .ok, .plain rfl rfl rfl rfl⟩
  | errState hi =>
    subst hi
    exact ⟨0, .errState, .plain rfl rfl rfl rfl⟩
  | errBusy hi =>
    subst hi
    exact ⟨0, .errBusy, .plain rfl rfl rfl rfl⟩

/-- A string whose status is `ERR_REJECT` was refused at a character, and reports it (45_graphics_bitmap_text.md R222). -/
theorem putString_of_reject {s t : State} {p : Word} {col : Colour} (hd : s.drawable)
    (hx : exec (.writeString p col) s = .next t) (hst : t.result.setWidth 8 = Status.errReject.code) : ∃ v u,
      putString col (memSize - p.toNat) p.toNat s = .ok (v, .errReject) u ∧ t = u.setResult v .errReject := by
  rw [exec_writeString hd] at hx
  cases hx
  cases hput : putString col (memSize - p.toNat) p.toNat s with
  | memFault a u =>
    rw [hput] at hst
    cases Status.code_injective ((Status.code_setWidth 0 .errMem).symm.trans hst)
  | ok report u =>
    obtain ⟨v, st⟩ := report
    rw [hput] at hst
    cases Status.code_injective ((Status.code_setWidth v st).symm.trans hst)
    exact ⟨v, u, rfl, rfl⟩

/-- A string that is refused reports a byte of its own, not the terminator, that `WRITE_CHAR` still refuses
(45_graphics_bitmap_text.md R222). -/
theorem writeString_reports {s t : State} {p : Word} {col : Colour} (hx : exec (.writeString p col) s = .next t)
    (hst : t.result.setWidth 8 = Status.errReject.code) : ∃ k,
      mapped s.cfg (p.toNat + k) 1 = true ∧ t.result.extractLsb' 8 8 = Memory.read t.mem (p.toNat + k) ∧
      Memory.read t.mem (p.toNat + k) ≠ 0 ∧
      exec (.writeChar (Memory.read t.mem (p.toNat + k)) col) t = .next { t with result := 0x0002 } := by
  by_cases hd : s.drawable
  · have hdt := drawable_of_exec rfl hd hx
    obtain ⟨v, u, hput, rfl⟩ := putString_of_reject hd hx hst
    obtain ⟨k, hm, rfl, h0, hrefused⟩ := putString_refused col _ _ s hput
    refine ⟨k, hm, Status.code_value _ _, h0, exec_writeChar_rejected hdt ?_⟩
    exact (putChar_setResult _ _ _ _ u).trans (congrArg (Flow.mapState _) hrefused)
  · cases ((exec_drawing _ rfl s).1 hd).symm.trans hx
    cases Status.code_injective ((Status.code_setWidth 0 .errMisuse).symm.trans hst)

/-- Settles O14: how each command ended is `Ran`, by its row of the table, and the byte a string reports is
`writeString_reports`. -/
theorem everyCommandEndsWithAStatusOfItsRow : Obligations.EveryCommandEndsWithAStatusOfItsRow := by
  intro i s t hx
  obtain ⟨v, st, h⟩ := (ran_of_exec hx).endsBy
  have hstatus : t.result.setWidth 8 = st.code := by rw [h.result, Status.code_setWidth]
  have hvalue : t.result.extractLsb' 8 8 = v := by rw [h.result, Status.code_value]
  refine ⟨st, h.allowed, hstatus, h.fault, ?_, ?_, ?_⟩
  · rw [hvalue]
    exact h.drawn
  · rintro p col rfl rfl
    exact writeString_reports hx hstatus
  · rw [hvalue]
    exact h.value

/-! ### The cursor -/

/-- Settles O42: `SET_CURSOR` is no drawing command, so nothing is checked, and a byte widened to 16 bits keeps its value. -/
theorem setCursorStoresItsOperands : Obligations.SetCursorStoresItsOperands := fun s x y => by
  rw [BitVec.ofNat_toNat, BitVec.ofNat_toNat]
  rfl

end Sys2Proof.Machine
end

section
/-! Proofs of the statements about the session (spec/46_session.md R236 to R252): the bring-up, `UPDATE_SCREEN` in each state, the
tick and the deferred start, and the transition table of `SSTATE`. -/

namespace Sys2Proof.Machine

/-! ### The bring-up -/

/-- A display command leaves the select line at `Data` on SPI, where alone it exists (10_state.md R37, 41_bus_abstraction.md
R151). -/
theorem commandLevel_eq (c : Config) (level : DCLevel) : commandLevel c level = if c.bus = .spi then .data else level := by
  rw [commandLevel]
  cases c.bus <;> rfl

/-- Settles O56: `execInit_free`, with its seventeen commands written out. -/
theorem initRunsTheBringUp : Obligations.InitRunsTheBringUp := by
  intro s mode hf
  refine (execInit_free hf mode).trans ?_
  rw [commandLevel_eq]
  rfl

/-! ### `UPDATE_SCREEN` -/

/-- Before `INIT` the command is refused (46_session.md R241). -/
theorem exec_updateScreen_early {s : State} (h : s.sstate = .uninitialized ∨ s.sstate = .initializing) :
    exec .updateScreen s = .next (s.setResult 0 .errState) := by
  rcases h with h | h <;> rw [exec, execUpdateScreen, h]

/-- During a sync the command is refused (46_session.md R241). -/
theorem exec_updateScreen_busy {s : State} (h : s.sstate = .syncInFlight) :
    exec .updateScreen s = .next (s.setResult 0 .errBusy) := by
  rw [exec, execUpdateScreen, h]

/-- In `Idle` the command makes the request that already stands in `SyncPending`, and tries to start it (46_session.md R241,
R243). -/
theorem exec_updateScreen_requests {s : State} (h : s.sstate = .idle ∨ s.sstate = .syncPending) :
    exec .updateScreen s = .next (trySyncStart { s with sstate := .syncPending }).done := by
  rcases h with h | h
  · rw [exec, execUpdateScreen, h]
  · have hs : { s with sstate := .syncPending } = s := by rw [← h]
    rw [hs, exec, execUpdateScreen, h]

/-- A request with the gate open: the sync begins (46_session.md R241, R246). -/
theorem exec_updateScreen_open {s : State} (h : s.sstate = .idle ∨ s.sstate = .syncPending) (hg : s.gate = true) :
    exec .updateScreen s = .next { s.syncBegun with result := 0 } := by
  rw [exec_updateScreen_requests h,
    trySyncStart_begins (s := { s with sstate := .syncPending }) rfl hg (fbBytes_bounds s.cfg)]
  rfl

/-- A request with the gate closed: it stays pending (46_session.md R241, R242). -/
theorem exec_updateScreen_closed {s : State} (h : s.sstate = .idle ∨ s.sstate = .syncPending) (hg : s.gate = false) :
    exec .updateScreen s = .next { s with sstate := .syncPending, result := 0 } := by
  rw [exec_updateScreen_requests h, trySyncStart_waits (s := { s with sstate := .syncPending }) (.inr hg)]
  rfl

/-- Settles O58: one lemma for each of the four answers, the gate as its three terms. -/
theorem updateScreenByState : Obligations.UpdateScreenByState := by
  intro s
  refine ⟨exec_updateScreen_early, exec_updateScreen_busy, fun h => ⟨fun hg => ?_, fun hg => ?_⟩⟩
  · exact exec_updateScreen_open h ((gate_iff s).mpr hg)
  · exact exec_updateScreen_closed h (Bool.eq_false_iff.mpr (mt (gate_iff s).mp hg))

/-! ### The tick and the deferred start -/

/-- Settles O59: the tick is its own condition, and the deferred start is the one place a sync begins. -/
theorem tickAndDeferredStart : Obligations.TickAndDeferredStart := by
  intro s
  refine ⟨fun hc hs => if_pos ⟨hc, hs⟩, fun h => if_neg ?_, fun hp hg => ?_, fun h => trySyncStart_waits ?_⟩
  · rintro ⟨hc, hs⟩
    exact h.elim (fun hc' => by cases hc.symm.trans hc') fun hs' => hs' hs
  · exact trySyncStart_begins hp ((gate_iff s).mpr hg) (fbBytes_bounds s.cfg)
  · exact h.imp_right fun hg => Bool.eq_false_iff.mpr (mt (gate_iff s).mp hg)

/-! ### The transition table of `SSTATE` -/

/-- `INIT` leads to `Idle`, unless a transfer in flight refuses it (46_session.md R236, R252). -/
theorem exec_init_sstate {m : Byte} {s t : State} (h : exec (.init m) s = .next t) :
    t.sstate = if s.xferInFlight then s.sstate else .idle := by
  cases hf : s.xferInFlight
  · cases (execInit_free hf m).symm.trans h
    rfl
  · cases (congrArg Host.Outcome.next (onCommandPath_refused hf _)).symm.trans h
    rfl

/-- `UPDATE_SCREEN` before `INIT` and during a sync changes nothing; else it goes by the gate (46_session.md R241, R252). -/
theorem exec_updateScreen_sstate {s t : State} (h : exec .updateScreen s = .next t) :
    t.sstate = if s.sstate = .idle ∨ s.sstate = .syncPending then if s.gate then .syncInFlight else .syncPending
      else s.sstate := by
  cases ran_of_exec h with
  | errState _ hs => rcases hs with hs | hs <;> simp [hs]
  | errBusy _ hs => simp [hs]
  | syncs _ hs hg => rw [if_pos hs, hg]; rfl
  | waits _ hs hg => rw [if_pos hs, hg]; rfl
  | misuseDraw hi | ended hi | misuseBus hi | misuseXfer _ _ _ hi | init _ hi | displayOn _ hi | contrast _ hi
  | started _ _ _ hi | empty _ _ hi | cursor _ _ hi => cases hi

/-- Every other command leaves the session state alone (46_session.md R252). -/
theorem exec_other_sstate {i : Instr} {s t : State} (h : exec i s = .next t) (hinit : ∀ m, i ≠ .init m)
    (hupdate : i ≠ .updateScreen) : t.sstate = s.sstate := by
  cases ran_of_exec h with
  | misuseDraw | misuseBus | misuseXfer | displayOn | contrast | started | empty | cursor => rfl
  | ended _ _ he =>
    obtain ⟨u, hu, htu⟩ := he.touched
    rw [htu, hu.rest]
  | init m hi => exact absurd hi (hinit m)
  | errState hi | errBusy hi | syncs hi | waits hi => exact absurd hi hupdate

/-- A sync begins from a pending request with the gate open (46_session.md R243, R252). -/
theorem trySyncStart_sstate (s : State) :
    (trySyncStart s).sstate = if s.sstate = .syncPending ∧ s.gate = true then .syncInFlight else s.sstate := by
  rcases trySyncStart_cases s with ⟨hp, hg, h⟩ | ⟨hn, h⟩
  · rw [h, if_pos ⟨hp, hg⟩]
    rfl
  · rw [h, if_neg hn]

/-- The tick makes a request in `Idle` (46_session.md R244, R252). -/
theorem tickStep_sstate (s : State) : (tickStep s).sstate =
    if s.cfg.continuousRefresh = true ∧ s.sstate = .idle then .syncPending else s.sstate := by
  rw [tickStep, apply_ite State.sstate]

/-- The completion of a sync, successful or not, returns to `Idle`; that of the host's transfer leaves the session alone
(46_session.md R247, R248). -/
theorem complete_sstate (s : State) (owner : Owner) (success : Bool) :
    (complete s owner success).sstate = if owner = .session then .idle else s.sstate := by
  cases owner with
  | host => rfl
  | session => cases success <;> rfl

theorem complete_xferInFlight (s : State) (owner : Owner) (success : Bool) :
    (complete s owner success).xferInFlight = s.xferInFlight := by
  obtain ⟨_, _, _, h, -⟩ := complete_frame s owner success
  rw [h]

/-- The sequencer's step returns to `Idle` when it ends a sync: a sync is the session's transfer in flight (10_state.md R44 (d),
46_session.md R247, R248, R252). -/
theorem State.Inv.sequencerStep_sstate {s : State} (hi : s.Inv) : (Machine.sequencerStep s).sstate =
    if s.sstate = .syncInFlight ∧ (Machine.sequencerStep s).xferInFlight = false then .idle else s.sstate := by
  have hgoes : ¬ (s.sstate = .syncInFlight ∧ s.xferInFlight = false) := fun h => hi.noSync h.2 h.1
  have hends : s.xferInFlight = true → (s.xferOwner = .session ↔ s.sstate = .syncInFlight) :=
    fun hf => by rw [hi.sync, and_iff_right hf]
  have hs := hi.sequenced
  generalize Machine.sequencerStep s = t at hs
  cases hs with
  | none | spurious | next => exact (if_neg hgoes).symm
  | success _ hf | failure _ hf => simp only [complete_sstate, complete_xferInFlight, hends hf, and_true]

/-- The bus agent's answer with success leaves the session state alone (46_session.md R252). -/
theorem busSuccessStep_sstate (s : State) : (busSuccessStep s).sstate = s.sstate := by
  unfold busSuccessStep
  split
  · split <;> rfl
  · rfl

/-- The bus agent's answer with an error leaves the session state alone (46_session.md R252). -/
theorem busErrorStep_sstate (k : Nat) (s : State) : (busErrorStep k s).sstate = s.sstate := by
  unfold busErrorStep
  split <;> rfl

/-- Settles O19: one lemma for each event of the table. -/
theorem sessionTransitionTable : Obligations.SessionTransitionTable := by
  refine fun s hi => ⟨fun m t => exec_init_sstate, fun t h => ?_, tickStep_sstate s, trySyncStart_sstate s,
    hi.sequencerStep_sstate, fun i t => exec_other_sstate, busSuccessStep_sstate s, fun k => busErrorStep_sstate k s⟩
  rw [exec_updateScreen_sstate h]
  cases s.sstate <;> rfl

end Sys2Proof.Machine
end

section
/-! Proofs of the statements about the faults and the refused commands (spec/60_exceptions.md R262 to R266, R276): what misuse
writes, when drawing is misuse, what a refused command leaves unchanged, and who writes `FAULT` and `RESULT`. -/

namespace Sys2Proof.Machine

/-! ### Protocol misuse -/

/-- A command refused for misuse writes its status and the sticky bit of its cause alone (60_exceptions.md R263). -/
theorem raise_misuse {c : Cause} (h : c.status = .errMisuse) (s : State) :
    raise c s = { s with result := 0x0006, faultBits := s.faultBits ||| c.bit } := by
  rw [raise, h]
  rfl

/-- `BEGIN_TRANSFER` while a transfer is in flight is misuse of the engine (60_exceptions.md R264). -/
theorem exec_beginTransfer_refused {s : State} (hf : s.xferInFlight = true) (a : Byte) (b n : Word) :
    exec (.beginTransfer a b n) s = .next (raise .misuseXfer s) :=
  congrArg Host.Outcome.next (if_pos hf)

/-- A command on the command path while a transfer is in flight is misuse of the bus (60_exceptions.md R266). -/
theorem exec_commandPath_refused {i : Instr} {s : State} (hi : i.usesCommandPath = true) (hf : s.xferInFlight = true) :
    exec i s = .next (raise .misuseBus s) := by
  cases i with
  | init | setDisplayOn | setContrast => exact congrArg Host.Outcome.next (onCommandPath_refused hf _)
  | _ => cases hi

/-- Settles O20: both kinds of command are refused for misuse, which writes `RESULT` and the bit of its cause alone. -/
theorem commandsInFlightAreMisuse : Obligations.CommandsInFlightAreMisuse := by
  refine fun s hf => ⟨fun a b n => ?_, fun i hi => ?_⟩
  · rw [exec_beginTransfer_refused hf, raise_misuse rfl]
    rfl
  · rw [exec_commandPath_refused hi hf, raise_misuse rfl]
    rfl

/-! ### Drawing into the source -/

/-- A drawing body that ran has set no bit of misuse: the one bit it can set is that of a `MemFault` (60_exceptions.md R262,
R269). -/
theorem Ended.misuseBits {i : Instr} {s t : State} (h : Ended i s t) : t.faultBits &&& 0x07 = s.faultBits &&& 0x07 := by
  cases h with
  | status v st ht => exact congrArg (· &&& 0x07#8) ht.faultBits
  | @memFault u a ht =>
    have hbit : ∀ f : Byte, (f ||| 0x10) &&& 0x07 = f &&& 0x07 := by decide
    exact (hbit u.faultBits).trans (congrArg (· &&& 0x07#8) ht.faultBits)

/-- A single-buffered instance syncs its one buffer, the front instance (46_session.md R246). -/
theorem syncSource_single {s : State} (hd : s.cfg.doubleBuffered = false) : s.syncSource.toNat = s.frontBase := by
  rw [syncSource_eq, State.frontBase, State.frontIndex, hd]
  rfl

/-- A double-buffered instance syncs the back instance, which lies a whole buffer away from the front one
(46_session.md R246, 20_memory.md R61). -/
theorem syncSource_double {s : State} (hd : s.cfg.doubleBuffered = true) :
    s.syncSource.toNat + 4096 ≤ s.frontBase ∨ s.frontBase + 4096 ≤ s.syncSource.toNat := by
  rw [syncSource_eq, State.frontBase, State.frontIndex, hd]
  cases s.front <;> decide

/-- During a sync a double-buffered instance can be drawn on: the sync reads the back instance (46_session.md R251). -/
theorem State.Inv.drawable_of_double {s : State} (hi : s.Inv) (hs : s.sstate = .syncInFlight)
    (hd : s.cfg.doubleBuffered = true) : s.drawable := by
  obtain ⟨hsrc, hlen⟩ := hi.source hs
  have hapart := syncSource_double hd
  have hb := fbBytes_bounds s.cfg
  rintro - a ⟨⟨hlo, hhi⟩, hlo', hhi'⟩
  rw [hsrc] at hlo hhi
  omega

/-- During a sync a single-buffered instance cannot be drawn on: the sync reads the front instance (46_session.md R251). -/
theorem State.Inv.not_drawable_of_single {s : State} (hi : s.Inv) (hs : s.sstate = .syncInFlight)
    (hd : s.cfg.doubleBuffered = false) : ¬ s.drawable := by
  obtain ⟨hsrc, hlen⟩ := hi.source hs
  have hb := fbBytes_bounds s.cfg
  have hbase : s.xferSrc.toNat = s.frontBase := hsrc ▸ syncSource_single hd
  exact fun h => h (hi.sync.mp hs).1 s.frontBase ⟨⟨by omega, by omega⟩, by omega, by omega⟩

/-- Settles O21: a drawing command is refused for misuse or its body ends, which is never misuse; a sync reads the
front buffer exactly when it is the only one. -/
theorem drawingIntoTheSourceIsMisuse : Obligations.DrawingIntoTheSourceIsMisuse := by
  refine ⟨fun s i hdraw => ?_, fun s hi hs => ⟨hi.drawable_of_double hs, hi.not_drawable_of_single hs⟩⟩
  obtain ⟨hrefused, hran⟩ := exec_drawing i hdraw s
  refine ⟨fun hd => ?_, fun hd => ?_⟩
  · rw [hrefused hd, raise_misuse rfl]
    rfl
  · obtain ⟨t, ht, he⟩ := hran hd
    exact ⟨t, ht, he.result, he.misuseBits⟩

/-! ### Refused commands -/

/-- The statuses by which a command says that it was refused (60_exceptions.md R276). -/
inductive Refuses (i : Instr) : Status → Prop
  | misuse : Refuses i .errMisuse
  | bounds : Refuses i .errBounds
  | state : Refuses i .errState
  | busy : Refuses i .errBusy
  | reject (hw : i.isWriteChar = true) : Refuses i .errReject

/-- A command that says by its status that it was refused has changed `RESULT` and `FAULT` alone (60_exceptions.md R276). -/
def Precise (i : Instr) (s t : State) : Prop :=
  ∀ ⦃st : Status⦄, Refuses i st → t.result.setWidth 8 = st.code →
    t = { s with result := t.result, faultBits := t.faultBits }

/-- A command has one status to answer for: the one it wrote. -/
theorem precise_of_result {i : Instr} {s t : State} {v : Byte} {st : Status} (hresult : t.result = v ++ st.code)
    (h : Refuses i st → t = { s with result := t.result, faultBits := t.faultBits }) : Precise i s t := by
  intro st' hrefused hcode
  rw [hresult, Status.code_setWidth] at hcode
  cases Status.code_injective hcode
  exact h hrefused

/-- A command that ends with `OK` has not been refused. -/
theorem precise_done (i : Instr) (s u : State) : Precise i s u.done := precise_of_result u.done_result nofun

/-- A drawing command is not `UPDATE_SCREEN` (42_framebuffer.md R160). -/
theorem isUpdateScreen_of_drawing {i : Instr} (h : i.isDrawing = true) : i.isUpdateScreen = false := by
  cases i with
  | updateScreen => cases h
  | _ => rfl

/-- A drawing body is precise: bounds and a rejected character are found before the first write, and it ends neither with misuse
nor with a status of the session (60_exceptions.md R261, R276). -/
theorem Ended.precise {i : Instr} {s t : State} (hi : i.isDrawing = true) (h : Ended i s t) : Precise i s t := by
  cases h with
  | @memFault u a => exact precise_of_result (raise_result (.memFault a) u) nofun
  | @status u v st ht hr hm he hc hok hv hp =>
    refine precise_of_result (u.setResult_result v st) fun hrefused => ?_
    cases hrefused with
    | misuse => exact absurd rfl hm
    | bounds => rw [hp (.inl rfl)]; rfl
    | state | busy => cases (isUpdateScreen_of_drawing hi).symm.trans hr
    | reject hw => rw [hp (.inr ⟨rfl, hw⟩)]; rfl

/-- Every command is precise (60_exceptions.md R276). -/
theorem Ran.precise {i : Instr} {s t : State} (h : Ran i s t) : Precise i s t := by
  cases h with
  | misuseDraw | misuseBus | misuseXfer | errState | errBusy => exact fun _ _ _ => rfl
  | ended hi _ he => exact he.precise hi
  | init | displayOn | contrast | started | empty | cursor | syncs | waits => exact precise_done i s _

/-- Settles O15: every command is precise. -/
theorem refusedCommandsChangeNothingElse : Obligations.RefusedCommandsChangeNothingElse := by
  intro i s t hx hcode
  have h := (ran_of_exec hx).precise
  rcases hcode with hc | hc | hc | hc | ⟨hc, hw⟩
  · exact h .misuse hc
  · exact h .bounds hc
  · exact h .state hc
  · exact h .busy hc
  · exact h (.reject hw) hc

/-! ### The writers of `FAULT` and `RESULT` -/

/-- A move leaves `FAULT` and `RESULT` alone, or it is the host's and adds fault bits (60_exceptions.md R262, R263). -/
theorem Move.faults {head : Option Turn} {s t : State} (h : Move head s t) :
    (t.faultBits = s.faultBits ∧ t.result = s.result) ∨
      ∃ w bits, head = some (.command w) ∧ t.faultBits = s.faultBits ||| bits := by
  cases h with
  | command w i hw _ hx =>
    obtain ⟨v, st, hend⟩ := (ran_of_exec hx).endsBy
    exact .inr ⟨w, _, hw, hend.fault⟩
  | illegal w hw => exact .inr ⟨w, _, hw, raise_faultBits _ _⟩
  | session => rcases trySyncStart_cases s with ⟨-, -, h⟩ | ⟨-, h⟩ <;> rw [h] <;> exact .inl ⟨rfl, rfl⟩
  | sequencer =>
    obtain ⟨-, hfault, hresult, -⟩ := sequencerStep_frame s
    exact .inl ⟨hfault, hresult⟩
  | tick =>
    unfold tickStep
    split <;> exact .inl ⟨rfl, rfl⟩
  | deliver | fail | read | store | idle => exact .inl ⟨rfl, rfl⟩

/-- Settles O13: a step is one move, which leaves both registers alone or is the host's and adds fault bits. -/
theorem faultBitsAreStickyAndTheHostsAlone : Obligations.FaultBitsAreStickyAndTheHostsAlone := by
  intro s t hstep
  obtain ⟨rest, n, hm⟩ := step_cases hstep
  rcases hm.faults with ⟨hfault, hresult⟩ | ⟨w, bits, hw, hfault⟩
  · exact ⟨fun b hb => by rw [hfault]; exact hb, fun _ => ⟨hfault, hresult⟩⟩
  · refine ⟨fun b hb => ?_, fun hnone => absurd hw (hnone w)⟩
    rw [hfault, BitVec.getLsbD_or, hb, Bool.true_or]

end Sys2Proof.Machine
end
